-- ==== Sys2Proof/Word.lean ====
section
/-! DEFINITION. The machine's word types (spec/00_scope.md R7, spec/30_encoding.md R100). -/

namespace Sys2Proof

/-- A 64-bit word or value (R7). -/
abbrev Word := BitVec 64

/-- One byte of a byte array (R71). -/
abbrev Byte := BitVec 8

/-- One command as the host presents it: 136 bits (R100). -/
abbrev CommandWord := BitVec 136

end Sys2Proof
end

