-- ==== Sys2Proof/Config.lean ====
section
/-! DEFINITION. What an implementation fixes (spec/00_scope.md R8, R9; spec/92_eei_decisions.md D14, OPEN): the four
capacities, constants without a body, so that a claim holds whatever they are (notes/assumptions/4.md), and the default block
size. -/

namespace Sys2Proof.Config

/-- How many slots there are beyond the three every implementation has (R9). -/
opaque extraSlots : Nat

/-- `NSLOT`, at least 3 (R9). A slot index has 8 bits, so 256 or more plays the spec's `∞`. -/
def nslot : Nat := extraSlots + 3

/-- `WORD_CAP`: the most words a word array may hold; `none` is `∞` (R9). -/
opaque wordCap : Option Nat

/-- `VBUF_CAP`: the most values in `VBUF`; `none` is `∞` (R9). -/
opaque vbufCap : Option Nat

/-- `BYTE_CAP`: the most bytes in `BYTES` or in one slot's payload; `none` is `∞` (R9). -/
opaque byteCap : Option Nat

/-- `DEFAULT_BLOCK_SIZE` (R8): only the assembler uses it (R129). -/
def defaultBlockSize : BitVec 32 := 256

end Sys2Proof.Config
end

