-- ==== Sys2Proof/Syntax.lean ====
section
/-! DEFINITION. The 27 commands (spec/30_encoding.md R101), one constructor per row of spec/opcode_table.json, operands as
the fields of `a` and `b` that the row names. -/

namespace Sys2Proof

/-- A decoded command. A width is its 7-bit field, a slot index its 8-bit field, `RBIND`'s source its 2-bit field; which
of their values a command admits is `Instr.wf`. -/
inductive Instr where
  | wclr
  | put (val : Word) (w : BitVec 7)
  | flush
  | rbind (src : BitVec 2)
  | get (w : BitVec 7)
  | scan (off : Word)
  | flog2 (x : Word)
  | cdiv (n d : Word)
  | ctz (x : Word)
  | next1 (pos : Word)
  | efenc
  | efdec
  | efat (r : Word)
  | efhas (v : Word)
  | sqbuild (k : BitVec 8) (bsz : BitVec 32)
  | sqlen (k : BitVec 8)
  | sqbsz (k : BitVec 8)
  | sqnblk (k : BitVec 8)
  | sqdec (k : BitVec 8)
  | sqdecb (k : BitVec 8) (blk : Word)
  | sqget (k : BitVec 8) (i : Word)
  | sqhas (k : BitVec 8) (v : Word)
  | sqldb (k : BitVec 8) (blk : Word)
  | sqser (k : BitVec 8)
  | sqload (k : BitVec 8)
  | sqand (d l r : BitVec 8)
  | sqor (d l r : BitVec 8)
deriving DecidableEq, Repr

end Sys2Proof
end

