-- ==== Sys2Proof/WellFormed.lean ====
section
/-! DEFINITION. Which terms are commands (spec/30_encoding.md R101, R102 steps 3 and 4): widths at most 64, a source selector
other than 3, slot indices below `NSLOT`. -/

namespace Sys2Proof

/-- A width field holds 0 to 64 (R102 step 3). -/
def widthOk (w : BitVec 7) : Bool := decide (w.toNat ≤ 64)

/-- A slot field is below `NSLOT` (R102 step 4). -/
def slotOk (k : BitVec 8) : Bool := decide (k.toNat < Config.nslot)

/-- `RBIND`'s source field is not 3 (R102 step 4). -/
def sourceOk (src : BitVec 2) : Bool := decide (src.toNat ≠ 3)

/-- The operand values the encoding admits. -/
def Instr.wf : Instr → Bool
  | .wclr => true
  | .put _ w => widthOk w
  | .flush => true
  | .rbind src => sourceOk src
  | .get w => widthOk w
  | .scan _ => true
  | .flog2 _ => true
  | .cdiv _ _ => true
  | .ctz _ => true
  | .next1 _ => true
  | .efenc => true
  | .efdec => true
  | .efat _ => true
  | .efhas _ => true
  | .sqbuild k _ => slotOk k
  | .sqlen k => slotOk k
  | .sqbsz k => slotOk k
  | .sqnblk k => slotOk k
  | .sqdec k => slotOk k
  | .sqdecb k _ => slotOk k
  | .sqget k _ => slotOk k
  | .sqhas k _ => slotOk k
  | .sqldb k _ => slotOk k
  | .sqser k => slotOk k
  | .sqload k => slotOk k
  | .sqand d l r => slotOk d && slotOk l && slotOk r
  | .sqor d l r => slotOk d && slotOk l && slotOk r

end Sys2Proof
end

