-- ==== Sys2Proof/Decode.lean ====
section
/-! DEFINITION. The command word (spec/30_encoding.md R100, R101, R102, R129 to R131): the decoder, total on all 136-bit words,
rejecting by name, and after it the encoder, written from the same table. -/

namespace Sys2Proof

/-- Why a command word is rejected: the four decode checks of R102. -/
inductive Reject where
  /-- `op` is reserved: `Illegal(1)`. -/
  | reservedOpcode
  /-- A reserved-zero bit is 1: `Illegal(2)`. -/
  | reservedZero
  /-- `PUT` or `GET` with `w > 64`: `Illegal(3)`. -/
  | width
  /-- `RBIND` with `src = 3`, or a slot index not below `NSLOT`: `Illegal(4)`. -/
  | selector
deriving DecidableEq, Repr

/-- The sub-cause number of `Illegal` that a rejection gives (spec/60_exceptions.md R325). -/
def rejectCause : Reject → Nat
  | .reservedOpcode => 1
  | .reservedZero => 2
  | .width => 3
  | .selector => 4

/-- `op`, bits 7 to 0 (R100). -/
def opField (c : CommandWord) : BitVec 8 := c.extractLsb' 0 8

/-- `a`, bits 71 to 8 (R100). -/
def aField (c : CommandWord) : Word := c.extractLsb' 8 64

/-- `b`, bits 135 to 72 (R100). -/
def bField (c : CommandWord) : Word := c.extractLsb' 72 64

/-- Every bit of `x` at position `n` or above is 0 (a reserved-zero range `[63:n]`, R100). -/
def zeroFrom (n : Nat) (x : Word) : Bool := decide (x >>> n = 0)

/-- Steps 3 and 4 of R102: the operand values no command admits, and how each is rejected. -/
def formReject : Instr → Option Reject
  | .put _ w => if w.toNat > 64 then some .width else none
  | .get w => if w.toNat > 64 then some .width else none
  | .rbind src => if src.toNat = 3 then some .selector else none
  | .sqbuild k _ => if k.toNat < Config.nslot then none else some .selector
  | .sqlen k => if k.toNat < Config.nslot then none else some .selector
  | .sqbsz k => if k.toNat < Config.nslot then none else some .selector
  | .sqnblk k => if k.toNat < Config.nslot then none else some .selector
  | .sqdec k => if k.toNat < Config.nslot then none else some .selector
  | .sqdecb k _ => if k.toNat < Config.nslot then none else some .selector
  | .sqget k _ => if k.toNat < Config.nslot then none else some .selector
  | .sqhas k _ => if k.toNat < Config.nslot then none else some .selector
  | .sqldb k _ => if k.toNat < Config.nslot then none else some .selector
  | .sqser k => if k.toNat < Config.nslot then none else some .selector
  | .sqload k => if k.toNat < Config.nslot then none else some .selector
  | .sqand d l r =>
    if d.toNat < Config.nslot ∧ l.toNat < Config.nslot ∧ r.toNat < Config.nslot then none else some .selector
  | .sqor d l r =>
    if d.toNat < Config.nslot ∧ l.toNat < Config.nslot ∧ r.toNat < Config.nslot then none else some .selector
  | .wclr => none
  | .flush => none
  | .scan _ => none
  | .flog2 _ => none
  | .cdiv _ _ => none
  | .ctz _ => none
  | .next1 _ => none
  | .efenc => none
  | .efdec => none
  | .efat _ => none
  | .efhas _ => none

/-- Steps 2 to 4 of R102 for a row of the table: `reserved` says that the row's reserved-zero bits are 0. -/
def decodeRow (reserved : Bool) (i : Instr) : Except Reject Instr :=
  if reserved then
    match formReject i with
    | some r => .error r
    | none => .ok i
  else .error .reservedZero

/-- The opcode map R101, with the order of checks of R102. -/
def decodeFields (op : BitVec 8) (a b : Word) : Except Reject Instr :=
  let slot : BitVec 8 := a.extractLsb' 0 8
  let slot1 : BitVec 8 := a.extractLsb' 8 8
  let slot2 : BitVec 8 := a.extractLsb' 16 8
  let width : BitVec 7 := b.extractLsb' 0 7
  match op.toNat with
  | 0x01 => decodeRow (zeroFrom 0 a && zeroFrom 0 b) .wclr
  | 0x02 => decodeRow (zeroFrom 7 b) (.put a width)
  | 0x03 => decodeRow (zeroFrom 0 a && zeroFrom 0 b) .flush
  | 0x08 => decodeRow (zeroFrom 2 a && zeroFrom 0 b) (.rbind (a.extractLsb' 0 2))
  | 0x09 => decodeRow (zeroFrom 0 a && zeroFrom 7 b) (.get width)
  | 0x0A => decodeRow (zeroFrom 0 b) (.scan a)
  | 0x10 => decodeRow (zeroFrom 0 b) (.flog2 a)
  | 0x11 => decodeRow true (.cdiv a b)
  | 0x12 => decodeRow (zeroFrom 0 b) (.ctz a)
  | 0x13 => decodeRow (zeroFrom 0 b) (.next1 a)
  | 0x20 => decodeRow (zeroFrom 0 a && zeroFrom 0 b) .efenc
  | 0x21 => decodeRow (zeroFrom 0 a && zeroFrom 0 b) .efdec
  | 0x22 => decodeRow (zeroFrom 0 b) (.efat a)
  | 0x23 => decodeRow (zeroFrom 0 b) (.efhas a)
  | 0x30 => decodeRow (zeroFrom 8 a && zeroFrom 32 b) (.sqbuild slot (b.extractLsb' 0 32))
  | 0x31 => decodeRow (zeroFrom 8 a && zeroFrom 0 b) (.sqlen slot)
  | 0x32 => decodeRow (zeroFrom 8 a && zeroFrom 0 b) (.sqbsz slot)
  | 0x33 => decodeRow (zeroFrom 8 a && zeroFrom 0 b) (.sqnblk slot)
  | 0x34 => decodeRow (zeroFrom 8 a && zeroFrom 0 b) (.sqdec slot)
  | 0x35 => decodeRow (zeroFrom 8 a) (.sqdecb slot b)
  | 0x36 => decodeRow (zeroFrom 8 a) (.sqget slot b)
  | 0x37 => decodeRow (zeroFrom 8 a) (.sqhas slot b)
  | 0x38 => decodeRow (zeroFrom 8 a) (.sqldb slot b)
  | 0x40 => decodeRow (zeroFrom 8 a && zeroFrom 0 b) (.sqser slot)
  | 0x41 => decodeRow (zeroFrom 8 a && zeroFrom 0 b) (.sqload slot)
  | 0x50 => decodeRow (zeroFrom 24 a && zeroFrom 0 b) (.sqand slot slot1 slot2)
  | 0x51 => decodeRow (zeroFrom 24 a && zeroFrom 0 b) (.sqor slot slot1 slot2)
  | _ => .error .reservedOpcode

/-- Decoding a command word: total, the first failing check of R102 rejects it. -/
def decode (c : CommandWord) : Except Reject Instr := decodeFields (opField c) (aField c) (bField c)

/-- The instruction the decoder reads from a table row's `nbits` bits `w`; bits above `nbits` are 0. The hardware takes the
136 bits whole (R100), so the table's numbering is the word's own. -/
def decodeTableWord (nbits w : Nat) : Option Instr :=
  match decode (BitVec.ofNat 136 (w % 2 ^ nbits)) with
  | .ok i => some i
  | .error _ => none

/-- `op + a·2^8 + b·2^72` (R130). -/
def commandWord (op : BitVec 8) (a b : Word) : CommandWord := (b ++ a) ++ op

/-- `a` of the three-slot form (R131). -/
def threeSlots (d l r : BitVec 8) : Word :=
  d.setWidth 64 ||| (l.setWidth 64 <<< 8) ||| (r.setWidth 64 <<< 16)

/-- The opcode byte of each command (R101). -/
def opcode : Instr → BitVec 8
  | .wclr => 0x01
  | .put _ _ => 0x02
  | .flush => 0x03
  | .rbind _ => 0x08
  | .get _ => 0x09
  | .scan _ => 0x0A
  | .flog2 _ => 0x10
  | .cdiv _ _ => 0x11
  | .ctz _ => 0x12
  | .next1 _ => 0x13
  | .efenc => 0x20
  | .efdec => 0x21
  | .efat _ => 0x22
  | .efhas _ => 0x23
  | .sqbuild _ _ => 0x30
  | .sqlen _ => 0x31
  | .sqbsz _ => 0x32
  | .sqnblk _ => 0x33
  | .sqdec _ => 0x34
  | .sqdecb _ _ => 0x35
  | .sqget _ _ => 0x36
  | .sqhas _ _ => 0x37
  | .sqldb _ _ => 0x38
  | .sqser _ => 0x40
  | .sqload _ => 0x41
  | .sqand _ _ _ => 0x50
  | .sqor _ _ _ => 0x51

/-- Operand `a` of each command (R101). -/
def operandA : Instr → Word
  | .put val _ => val
  | .rbind src => src.setWidth 64
  | .scan off => off
  | .flog2 x => x
  | .cdiv n _ => n
  | .ctz x => x
  | .next1 pos => pos
  | .efat r => r
  | .efhas v => v
  | .sqbuild k _ => k.setWidth 64
  | .sqlen k => k.setWidth 64
  | .sqbsz k => k.setWidth 64
  | .sqnblk k => k.setWidth 64
  | .sqdec k => k.setWidth 64
  | .sqdecb k _ => k.setWidth 64
  | .sqget k _ => k.setWidth 64
  | .sqhas k _ => k.setWidth 64
  | .sqldb k _ => k.setWidth 64
  | .sqser k => k.setWidth 64
  | .sqload k => k.setWidth 64
  | .sqand d l r => threeSlots d l r
  | .sqor d l r => threeSlots d l r
  | .wclr => 0
  | .flush => 0
  | .get _ => 0
  | .efenc => 0
  | .efdec => 0

/-- Operand `b` of each command (R101). -/
def operandB : Instr → Word
  | .put _ w => w.setWidth 64
  | .get w => w.setWidth 64
  | .cdiv _ d => d
  | .sqbuild _ bsz => bsz.setWidth 64
  | .sqdecb _ blk => blk
  | .sqget _ i => i
  | .sqhas _ v => v
  | .sqldb _ blk => blk
  | .wclr => 0
  | .flush => 0
  | .rbind _ => 0
  | .scan _ => 0
  | .flog2 _ => 0
  | .ctz _ => 0
  | .next1 _ => 0
  | .efenc => 0
  | .efdec => 0
  | .efat _ => 0
  | .efhas _ => 0
  | .sqlen _ => 0
  | .sqbsz _ => 0
  | .sqnblk _ => 0
  | .sqdec _ => 0
  | .sqser _ => 0
  | .sqload _ => 0
  | .sqand _ _ _ => 0
  | .sqor _ _ _ => 0

/-- The word of a well-formed command (R100, R101, R130). -/
def encode (i : Instr) : CommandWord := commandWord (opcode i) (operandA i) (operandB i)

/-- The assembler's `SQBUILD sK` with an optional block size: absent, it is the default 256 (R129). -/
def assembleSqbuild (k : BitVec 8) (bsz : Option (BitVec 32)) : Instr :=
  .sqbuild k (bsz.getD Config.defaultBlockSize)

end Sys2Proof
end

