-- ==== Sys2Proof/Machine/State.lean ====
section
/-! DEFINITION. The machine's state as plain data (spec/10_state.md R32 to R51), the host's moves (spec/60_exceptions.md R337),
the ways a step can stop, and the state after reset (R51, spec/70_reset_and_hazards.md R350). -/

namespace Sys2Proof.Machine

/-- Data by index, as (index, value) pairs; the canonical form is `cellsWf`, and an unlisted index holds no value. -/
abbrev Cells (α : Type) := List (Nat × α)

/-- The byte buffer's memory: (address, byte) pairs, an unlisted address holding no value (R45, notes/assumptions/6.md). -/
abbrev Memory := List Host.Cell

/-- The BitStream Writer (R32 to R34). -/
structure Writer where
  words : List Word
  cur : Word
  filled : BitVec 6
deriving DecidableEq, Repr

/-- The BitStream Reader (R36, R37). -/
structure Reader where
  words : List Word
  pos : Word
deriving DecidableEq, Repr

/-- An EFBlock: the six metadata fields and two word arrays (R46, spec/30_encoding.md R105). -/
structure EFBlock where
  nElem : BitVec 32
  l : BitVec 8
  floor : Word
  lowWords : Word
  highWords : Word
  highBitsLen : Word
  low : List Word
  high : List Word
deriving DecidableEq, Repr

/-- A Sequence as a slot holds it (R47). Its payload is a dense array of bytes, offset 0 first. -/
structure Sequence where
  nElem : Word
  blockSize : BitVec 32
  nBlocks : Word
  blockLast : List Word
  blockOffset : List Word
  payload : List Byte
deriving DecidableEq, Repr

/-- The seven header fields (spec/30_encoding.md R112), which the host may read from a slot (R47). -/
structure SequenceMetadata where
  magic : List Byte
  version : BitVec 32
  nElem : Word
  blockSize : BitVec 32
  reserved : BitVec 32
  nBlocks : Word
  payloadOffset : Word
deriving DecidableEq, Repr

/-- `ERR` as an enumeration of the six values it takes (R40, spec/93_implementation_defined.md U13); `errCode` numbers them. -/
inductive ErrKind where
  | noFault
  | invalidInput
  | outOfRange
  | malformed
  | io
  | illegal
deriving DecidableEq, Repr

/-- What the host does next: the interactions of R337 that can change state. -/
inductive PortMove where
  /-- present a command (R100) -/
  | command (c : CommandWord)
  /-- write `VBUF[i]` (R44) -/
  | writeValue (i : Word) (v : Word)
  /-- write `VLEN` (R42) -/
  | writeVlen (n : Word)
  /-- write `BYTES[i]` (R45) -/
  | writeByte (i : Word) (x : Byte)
  /-- write `BLEN` (R43) -/
  | writeBlen (n : Word)
  /-- reset (R350) -/
  | reset
deriving DecidableEq, Repr

/-- The complete state (R51), and `port`, the model's own list of the host's coming moves (notes/assumptions/1.md). -/
structure State where
  writer : Writer
  reader : Reader
  res : Word
  t : Bool
  err : ErrKind
  einfo : Word
  vlen : Word
  vbuf : Cells Word
  blen : Word
  bytes : Memory
  efb : Option EFBlock
  slots : Cells Sequence
  port : List PortMove
deriving DecidableEq, Repr

/-- The capacities of R9 that a command can exceed (an index at or above `NSLOT` is rejected at decode instead). -/
inductive Capacity where
  | words
  | values
  | bytes
deriving DecidableEq, Repr

/-- The model's own stops. A fault of the HARDWARE is no stop: it is a next state with `ERR` and `EINFO` written (R330). -/
inductive Fault where
  /-- Raised by `EFENC` and `SQBUILD` when an entry of `VBUF` below `VLEN` was never written: the host broke its duty (R337) and
  the entry holds no value (R44). Safe: the machine stops where the hardware would go on. -/
  | unwrittenValue
  /-- Raised by `SQLOAD` when a byte of `BYTES` below `BLEN` was never written (R337, R45). Safe, as `unwrittenValue`. -/
  | unwrittenByte
deriving DecidableEq, Repr

/-- The refusals: where the spec gives no successor state (R332). -/
inductive Refusal where
  /-- An instruction without a meaning in this model, by mnemonic; raised by no instruction here. Safe. -/
  | notModelled (mnemonic : String)
  /-- A command or a host write would exceed a capacity (R9, R332). Raised by every operation that makes an array longer. Safe. -/
  | capacity (c : Capacity)
  /-- A command reads a slot whose content is not canonical (R257, R332). Safe. -/
  | notCanonical
  /-- `EFDEC`, `EFAT` or `EFHAS` on a block that is not valid (R210, U10); no run reaches one. Safe. -/
  | invalidBlock
  /-- The host writes a buffer or a length while the core is halted: it has no such move (R337, U15). Safe. -/
  | hostWriteHalted
deriving DecidableEq, Repr

/-- What running something on a state answers. -/
abbrev Out := Host.Outcome State Fault Refusal

/-- The state right after reset (R51, R350). -/
def State.reset : State where
  writer := { words := [], cur := 0, filled := 0 }
  reader := { words := [], pos := 0 }
  res := 0
  t := false
  err := .noFault
  einfo := 0
  vlen := 0
  vbuf := []
  blen := 0
  bytes := []
  efb := none
  slots := []
  port := []

end Sys2Proof.Machine
end

