-- ==== Sys2Proof/Machine/Bits.lean ====
section
/-! DEFINITION. The pure functions of the BitStream and of the bit utilities (spec/00_scope.md R11 to R20, spec/40_bitstream.md
R141 to R144, spec/41_bitutil.md R170 to R173). Arithmetic is on naturals, exact, as the rules have it. -/

namespace Sys2Proof.Machine

/-- `mask(w) = 2^w − 1` (R12). -/
def mask (w : Nat) : Nat := 2 ^ w - 1

/-- `stream_bit(Wd, p)`: bit `p mod 64` of word `p div 64`, and 0 past the end (R13, R19). -/
def streamBit (ws : List Word) (p : Nat) : Nat := ((ws.getD (p / 64) 0).toNat >>> (p % 64)) &&& 1

/-- `read_bits(Wd, p, w) = Σ_{k<w} stream_bit(Wd, p + k)·2^k` (R19). -/
def readBits (ws : List Word) : Nat → Nat → Nat
  | _, 0 => 0
  | p, w + 1 => streamBit ws p + 2 * readBits ws (p + 1) w

/-- `popcount(x)`, the number of one bits (R20). -/
def popcount (x : Word) : Nat := (List.range 64).countP fun k => x.getLsbD k

/-- `floor_log2(x)`: no value at 0 (R170). -/
def floorLog2 (x : Nat) : Option Nat := if x = 0 then none else some (Nat.log2 x)

/-- `ceil_div(a, b)`, for `b > 0` (R171). -/
def ceilDiv (a b : Nat) : Nat := (a + b - 1) / b

/-- `ctz(x)`: the least set bit; no value at 0 (R172). -/
def ctz (x : Word) : Option Nat := (List.range 64).find? fun k => x.getLsbD k

/-- The word-by-word scan of R173: the first one bit of the words, the first of which has word index `i`. -/
def scanWords : List Word → Nat → Option Nat
  | [], _ => none
  | w :: ws, i =>
    match ctz w with
    | some k => some (64 * i + k)
    | none => scanWords ws (i + 1)

/-- `next_one_at_or_after(H, len(H), pos)` (R173): the bits below `pos` in the first word are masked off. -/
def nextOne (ws : List Word) (pos : Nat) : Option Nat :=
  match ws.drop (pos / 64) with
  | [] => none
  | w :: rest => scanWords ((w &&& ~~~ BitVec.ofNat 64 (mask (pos % 64))) :: rest) (pos / 64)

/-- A Writer with nothing in it (R140, R193). -/
def emptyWriter : Writer := { words := [], cur := 0, filled := 0 }

/-- Whether `put` of width `w` appends a word (R141). -/
def putAppends (wr : Writer) (w : Nat) : Bool := decide (w ≠ 0) && decide (64 ≤ wr.filled.toNat + w)

/-- `put(val, w)` for `w ≤ 64` (R141). -/
def writerPut (wr : Writer) (val w : Nat) : Writer :=
  if w = 0 then wr
  else
    let merged := wr.cur.toNat ||| ((val &&& mask w) <<< wr.filled.toNat)
    if 64 ≤ wr.filled.toNat + w then
      { words := wr.words ++ [BitVec.ofNat 64 merged]
        cur := BitVec.ofNat 64 (merged >>> 64)
        filled := BitVec.ofNat 6 (wr.filled.toNat + w - 64) }
    else
      { words := wr.words
        cur := BitVec.ofNat 64 merged
        filled := BitVec.ofNat 6 (wr.filled.toNat + w) }

/-- `flush()` (R143). -/
def writerFlush (wr : Writer) : Writer :=
  if wr.filled.toNat > 0 then { words := wr.words ++ [wr.cur], cur := 0, filled := 0 } else wr

/-- Non-decreasing: no `v[i−1] > v[i]` (R321 sub-cause 2). -/
def nonDecreasing : List Word → Bool
  | [] => true
  | [_] => true
  | v :: w :: vs => decide (v.toNat ≤ w.toNat) && nonDecreasing (w :: vs)

/-- The `n` little-endian bytes of `v`, as `MemWrite` and `Append` store them (R16, R74). -/
def leBytes : Nat → Nat → List Byte
  | 0, _ => []
  | n + 1, v => BitVec.ofNat 8 v :: leBytes n (v / 256)

/-- The value of little-endian bytes (R16). -/
def leValue : List Byte → Nat
  | [] => 0
  | x :: xs => x.toNat + 256 * leValue xs

/-- `MemRead(M, addr, n)` inside the array (R16). -/
def memRead (bs : List Byte) (addr n : Nat) : Nat := leValue ((bs.drop addr).take n)

/-- `n` words stored from byte offset `o` on (R75). -/
def readWords (bs : List Byte) : Nat → Nat → List Word
  | _, 0 => []
  | o, n + 1 => BitVec.ofNat 64 (memRead bs o 8) :: readWords bs (o + 8) n

end Sys2Proof.Machine
end

