-- ==== Sys2Proof/Machine/Codec.lean ====
section
/-! DEFINITION. The Elias-Fano block: encoder (spec/42_efblock_encode.md R191 to R195), decoder, rank lookup, membership
(spec/43_efblock_decode.md R213, R215, R217), validity (R210), and a block's bytes (spec/44_sequence.md R242). -/

namespace Sys2Proof.Machine

/-- Step 1: `range = values[n−1] − floor + 1`, exact, up to `2^64` (R191). -/
def efRange (vs : List Word) : Nat := (vs.getLastD 0).toNat - (vs.headD 0).toNat + 1

/-- Step 2: `l = floor_log2(range div n)` if that quotient is at least 1, else 0 (R192). -/
def efLowBits (vs : List Word) : Nat := (floorLog2 (efRange vs / vs.length)).getD 0

/-- Step 3: the Writer's words after a `put` of each value's `l` low bits and a `flush` (R193). -/
def efLow (vs : List Word) (floor l : Nat) : List Word :=
  (writerFlush (vs.foldl (fun wr v => writerPut wr ((v.toNat - floor) &&& mask l) l) emptyWriter)).words

/-- Set bit `p` of a word array (R194). -/
def setBit (ws : List Word) (p : Nat) : List Word :=
  ws.set (p / 64) (ws.getD (p / 64) 0 ||| BitVec.ofNat 64 (1 <<< (p % 64)))

/-- Step 4's loop from element `i` on: set bit `((values[i] − floor) >> l) + i` (R194). -/
def setHighBits (floor l : Nat) : List Word → Nat → List Word → List Word
  | [], _, ws => ws
  | v :: vs, i, ws => setHighBits floor l vs (i + 1) (setBit ws (((v.toNat - floor) >>> l) + i))

/-- `high_bits_len = n + ceil(range / 2^l)` (R194). -/
def efHighBitsLen (vs : List Word) (l : Nat) : Nat := vs.length + ceilDiv (efRange vs) (2 ^ l)

/-- `ef_encode(values)`, for `1 ≤ n < 2^32` non-decreasing values (R195). -/
def efEncode (vs : List Word) : EFBlock :=
  let floor := vs.headD 0
  let l := efLowBits vs
  let low := efLow vs floor.toNat l
  let highBits := efHighBitsLen vs l
  let highWords := ceilDiv highBits 64
  { nElem := BitVec.ofNat 32 vs.length
    l := BitVec.ofNat 8 l
    floor := floor
    lowWords := BitVec.ofNat 64 low.length
    highWords := BitVec.ofNat 64 highWords
    highBitsLen := BitVec.ofNat 64 highBits
    low := low
    high := setHighBits floor.toNat l vs 0 (List.replicate highWords 0) }

/-- Element `j`'s low field (R211). -/
def lowField (blk : EFBlock) (j : Nat) : Nat := readBits blk.low (j * blk.l.toNat) blk.l.toNat

/-- `floor + ((hi << l) | lo)` (R104). -/
def joinValue (blk : EFBlock) (hi lo : Nat) : Word :=
  BitVec.ofNat 64 (blk.floor.toNat + ((hi <<< blk.l.toNat) ||| lo))

/-- The loop of `ef_decode` (R213): `k` elements to go, element `i` next, its scan starting at bit `start`. Where no one bit
is left the loop ends; no valid block meets that (notes/assumptions/14.md). -/
def efDecodeFrom (blk : EFBlock) : Nat → Nat → Nat → List Word
  | 0, _, _ => []
  | k + 1, i, start =>
    match nextOne blk.high start with
    | none => []
    | some pos => joinValue blk (pos - i) (lowField blk i) :: efDecodeFrom blk k (i + 1) (pos + 1)

/-- `ef_decode(blk)` (R213). -/
def efDecode (blk : EFBlock) : List Word := efDecodeFrom blk blk.nElem.toNat 0 0

/-- Clear the `rem` lowest one bits: `rem` times `w & (w − 1)` (R215). -/
def clearLowest : Nat → Word → Word
  | 0, w => w
  | n + 1, w => clearLowest n (w &&& (w - 1))

/-- The word walk of `ef_at` (R215): the position of the one bit with `rem` one bits before it. -/
def selectOne : List Word → Nat → Nat → Option Nat
  | [], _, _ => none
  | w :: ws, i, rem =>
    if rem ≥ popcount w then selectOne ws (i + 1) (rem - popcount w)
    else (ctz (clearLowest rem w)).map fun k => 64 * i + k

/-- `ef_at(blk, r)`; no value where the block holds no `r`-th one bit (R215). -/
def efAt (blk : EFBlock) (r : Nat) : Option Word :=
  (selectOne blk.high 0 r).map fun pos => joinValue blk (pos - r) (lowField blk r)

/-- The scan of `ef_contains` (R217), with `k` elements to go and element `j` next. -/
def efScanFrom (blk : EFBlock) (hiStar loStar : Nat) : Nat → Nat → Nat → Bool
  | 0, _, _ => false
  | k + 1, j, start =>
    match nextOne blk.high start with
    | none => false
    | some pos =>
      if pos - j < hiStar then efScanFrom blk hiStar loStar k (j + 1) (pos + 1)
      else if pos - j > hiStar then false
      else if lowField blk j = loStar then true
      else efScanFrom blk hiStar loStar k (j + 1) (pos + 1)

/-- `ef_contains(blk, v)` (R217). -/
def efContains (blk : EFBlock) (v : Word) : Bool :=
  if v.toNat < blk.floor.toNat then false
  else
    let d := v.toNat - blk.floor.toNat
    efScanFrom blk (d >>> blk.l.toNat) (d &&& mask blk.l.toNat) blk.nElem.toNat 0 0

/-- A valid block: one that `ef_encode` gives for some non-decreasing run of 1 to `2^32 − 1` values (R210), decided by decoding
it and encoding the result (notes/assumptions/11.md). -/
def isValidBlock (blk : EFBlock) : Bool :=
  let vs := efDecode blk
  !vs.isEmpty && decide (vs.length < 2 ^ 32) && nonDecreasing vs && decide (efEncode vs = blk)

/-- The bytes of a word array (R75). -/
def wordsBytes (ws : List Word) : List Byte := ws.flatMap fun w => leBytes 8 w.toNat

/-- `block_bytes(blk)` (R242, R105, R106): 40 bytes of metadata with zero filler, then `low`, then `high`. -/
def blockBytes (blk : EFBlock) : List Byte :=
  leBytes 4 blk.nElem.toNat ++ leBytes 1 blk.l.toNat ++ [0, 0, 0] ++ leBytes 8 blk.floor.toNat
    ++ leBytes 8 blk.lowWords.toNat ++ leBytes 8 blk.highWords.toNat ++ leBytes 8 blk.highBitsLen.toNat
    ++ wordsBytes blk.low ++ wordsBytes blk.high

/-- `parse_block(payload, o)` (R242): the filler at `o + 5` to `o + 7` is ignored. -/
def parseBlock (payload : List Byte) (o : Nat) : EFBlock :=
  let lowWords := memRead payload (o + 16) 8
  let highWords := memRead payload (o + 24) 8
  { nElem := BitVec.ofNat 32 (memRead payload o 4)
    l := BitVec.ofNat 8 (memRead payload (o + 4) 1)
    floor := BitVec.ofNat 64 (memRead payload (o + 8) 8)
    lowWords := BitVec.ofNat 64 lowWords
    highWords := BitVec.ofNat 64 highWords
    highBitsLen := BitVec.ofNat 64 (memRead payload (o + 32) 8)
    low := readWords payload (o + 40) lowWords
    high := readWords payload (o + 40 + 8 * lowWords) highWords }

end Sys2Proof.Machine
end

