-- ==== Sys2Proof/Machine/Container.lean ====
section
/-! DEFINITION. The Sequence container's pure functions: building (spec/44_sequence.md R241), reaching a block (R249), whole
decode (R250), the directory seek (R254), canonical form (R243). -/

namespace Sys2Proof.Machine

/-- The first `k` consecutive runs of length `size` (the last may be shorter) (R241). -/
def runsOf (size : Nat) : Nat → List Word → List (List Word)
  | 0, _ => []
  | k + 1, vs => vs.take size :: runsOf size k (vs.drop size)

/-- The blocks that `seq_build(values, B)` writes (R241). -/
def seqBlocks (vs : List Word) (size : Nat) : List EFBlock :=
  (runsOf size (ceilDiv vs.length size) vs).map efEncode

/-- The running byte offsets of consecutive pieces, the first at `o` (R241, R114). -/
def offsetsFrom : Nat → List (List Byte) → List Word
  | _, [] => []
  | o, p :: ps => BitVec.ofNat 64 o :: offsetsFrom (o + p.length) ps

/-- `seq_build(values, B)`, for non-decreasing values and `B ≥ 1` (R241). -/
def seqBuild (vs : List Word) (bsz : BitVec 32) : Sequence :=
  let runs := runsOf bsz.toNat (ceilDiv vs.length bsz.toNat) vs
  let pieces := runs.map fun run => blockBytes (efEncode run)
  { nElem := BitVec.ofNat 64 vs.length
    blockSize := bsz
    nBlocks := BitVec.ofNat 64 runs.length
    blockLast := runs.map fun run => run.getLastD 0
    blockOffset := offsetsFrom 0 pieces
    payload := pieces.flatten }

/-- `block_at(S, b) = parse_block(S.payload, S.block_offset[b])` (R249). -/
def blockAt (q : Sequence) (b : Nat) : EFBlock := parseBlock q.payload (q.blockOffset.getD b 0).toNat

/-- `decode(S)`: the blocks' decodes in order (R250). -/
def seqDecode (q : Sequence) : List Word :=
  q.blockOffset.flatMap fun o => efDecode (parseBlock q.payload o.toNat)

/-- The binary search of R254 between `lo` and `hi`; `fuel` bounds the loop. -/
def seekLoop (lasts : List Word) (v : Word) : Nat → Nat → Nat → Nat
  | 0, lo, _ => lo
  | fuel + 1, lo, hi =>
    if lo < hi then
      let mid := (lo + hi) / 2
      if (lasts.getD mid 0).toNat < v.toNat then seekLoop lasts v fuel (mid + 1) hi
      else seekLoop lasts v fuel lo mid
    else lo

/-- `seek(S, v)`: the smallest `b` with `block_last[b] ≥ v`, or `n_blocks` if there is none (R254). -/
def seek (q : Sequence) (v : Word) : Nat := seekLoop q.blockLast v q.blockLast.length 0 q.blockLast.length

/-- `get(i)`: block `i div B`, rank `i mod B` (R252). -/
def seqGet (q : Sequence) (i : Nat) : Option Word := efAt (blockAt q (i / q.blockSize.toNat)) (i % q.blockSize.toNat)

/-- `contains(v)`: seek, the test against the found block's `floor`, membership in the block (R253, R255). -/
def seqContains (q : Sequence) (v : Word) : Bool :=
  let b := seek q v
  if b = q.nBlocks.toNat then false
  else if v.toNat < (blockAt q b).floor.toNat then false
  else efContains (blockAt q b) v

/-- A canonical Sequence: one that `seq_build` gives for some non-decreasing values and some `B ≥ 1` (R243), decided by
decoding it and building the result; lengths stay below what a u64 holds (notes/assumptions/5.md, notes/assumptions/10.md). -/
def isCanonical (q : Sequence) : Bool :=
  let vs := seqDecode q
  decide (1 ≤ q.blockSize.toNat) && decide (vs.length < 2 ^ 64) && decide (q.payload.length < 2 ^ 64) && nonDecreasing vs
    && decide (seqBuild vs q.blockSize = q)

end Sys2Proof.Machine
end

