-- ==== Sys2Proof/Machine/Image.lean ====
section
/-! DEFINITION. The serialized image: out (spec/45_serialization.md R280; layout spec/30_encoding.md R112, R118) and in, with the
eleven structural checks of R284 in their order. -/

namespace Sys2Proof.Machine

/-- The ASCII bytes "PPEF" in reading order (R76). -/
def magicBytes : List Byte := [0x50, 0x50, 0x45, 0x46]

/-- The seven header fields of a Sequence: three fixed, one derived, three stored (R47, R112). -/
def metadataOf (q : Sequence) : SequenceMetadata where
  magic := magicBytes
  version := 1
  nElem := q.nElem
  blockSize := q.blockSize
  reserved := 0
  nBlocks := q.nBlocks
  payloadOffset := BitVec.ofNat 64 (40 + 16 * q.nBlocks.toNat)

/-- The 40 header bytes (R112). -/
def headerBytes (m : SequenceMetadata) : List Byte :=
  m.magic ++ leBytes 4 m.version.toNat ++ leBytes 8 m.nElem.toNat ++ leBytes 4 m.blockSize.toNat
    ++ leBytes 4 m.reserved.toNat ++ leBytes 8 m.nBlocks.toNat ++ leBytes 8 m.payloadOffset.toNat

/-- `serialize(S)` (R280): header, `block_last[]`, `block_offset[]`, payload. -/
def serialize (q : Sequence) : List Byte :=
  headerBytes (metadataOf q) ++ wordsBytes q.blockLast ++ wordsBytes q.blockOffset ++ q.payload

/-- `ceil(n·l / 64)` if `l > 0`, else 0 (R107). -/
def lowWordsFor (n l : Nat) : Nat := if l > 0 then ceilDiv (n * l) 64 else 0

/-- Check 9 of R284 on one block at payload offset `off`: the values its metadata must hold. -/
def blockMetaOk (payload : List Byte) (off expected : Nat) : Bool :=
  let n := memRead payload off 4
  let l := memRead payload (off + 4) 1
  decide (n = expected) && decide (l ≤ 63) && decide (memRead payload (off + 16) 8 = lowWordsFor n l)
    && decide (memRead payload (off + 32) 8 ≤ 64 * memRead payload (off + 24) 8)

/-- `size_of_block` from the metadata at `off` (R111). -/
def blockSizeAt (payload : List Byte) (off : Nat) : Nat :=
  40 + 8 * (memRead payload (off + 16) 8 + memRead payload (off + 24) 8)

/-- Check 9 of R284, the block chain, for the directory entries from block `b` on, which must begin at `off`; it answers
the offset after the last block. Block `b` holds `block_size` values, the last one the rest. -/
def chainEnd (payload : List Byte) (bsz total nBlocks : Nat) : List Word → Nat → Nat → Option Nat
  | [], _, off => some off
  | o :: os, b, off =>
    let expected := if b + 1 < nBlocks then bsz else total - bsz * (nBlocks - 1)
    if decide (o.toNat = off) && decide (off + 40 ≤ payload.length) && blockMetaOk payload off expected
        && decide (off + blockSizeAt payload off ≤ payload.length) then
      chainEnd payload bsz total nBlocks os (b + 1) (off + blockSizeAt payload off)
    else none

/-- `deserialize(img)`: the Sequence, or the number of the first structural check that fails (R283, R284). -/
def loadImage (img : List Byte) : Except Nat Sequence :=
  let total := memRead img 8 8
  let bsz := memRead img 16 4
  let nBlocks := memRead img 24 8
  let payloadOffset := memRead img 32 8
  if img.length < 40 then .error 1
  else if img.take 4 ≠ magicBytes then .error 2
  else if memRead img 4 4 ≠ 1 then .error 3
  else if bsz < 1 then .error 4
  else if memRead img 20 4 ≠ 0 then .error 5
  else if nBlocks ≠ ceilDiv total bsz then .error 6
  else if payloadOffset ≠ 40 + 16 * nBlocks then .error 7
  else if img.length < payloadOffset then .error 8
  else
    let lasts := readWords img 40 nBlocks
    let offsets := readWords img (40 + 8 * nBlocks) nBlocks
    let payload := img.drop payloadOffset
    match chainEnd payload bsz total nBlocks offsets 0 0 with
    | none => .error 9
    | some off =>
      if off ≠ payload.length then .error 10
      else if nonDecreasing lasts then
        .ok { nElem := BitVec.ofNat 64 total
              blockSize := BitVec.ofNat 32 bsz
              nBlocks := BitVec.ofNat 64 nBlocks
              blockLast := lasts
              blockOffset := offsets
              payload := payload }
      else .error 11

end Sys2Proof.Machine
end

