-- ==== Sys2Proof/Machine/Merge.lean ====
section
/-! DEFINITION. The set-algebra engine's pure functions: intersection (spec/46_setalgebra.md R303), union (R306), and the
block-at-a-time schedule of R304, which is a refinement and which no command calls (notes/assumptions/17.md). -/

namespace Sys2Proof.Machine

/-- The two-pointer loop of R303 while the left pointer stands on `x`; `rest` is the loop after the left pointer moves. -/
def intersectAt (x : Word) (rest : List Word → List Word) : List Word → List Word
  | [] => []
  | y :: ys =>
    if x.toNat < y.toNat then rest (y :: ys)
    else if x.toNat > y.toNat then intersectAt x rest ys
    else x :: rest ys

/-- `intersect_values(x, y)` (R303). -/
def intersectValues : List Word → List Word → List Word
  | [], _ => []
  | x :: xs, ys => intersectAt x (intersectValues xs) ys

/-- The merge loop of R306, before the test that drops repeats, while the left pointer stands on `x`. -/
def mergeAt (x : Word) (rest : List Word → List Word) : List Word → List Word
  | [] => x :: rest []
  | y :: ys => if x.toNat ≤ y.toNat then x :: rest (y :: ys) else y :: mergeAt x rest ys

/-- The values of both inputs in the order the loop of R306 takes them. -/
def mergeValues : List Word → List Word → List Word
  | [], ys => ys
  | x :: xs, ys => mergeAt x (mergeValues xs) ys

/-- Drop a value not above the last emitted one (R306). -/
def emitRising : Option Word → List Word → List Word
  | _, [] => []
  | none, v :: vs => v :: emitRising (some v) vs
  | some u, v :: vs => if u.toNat < v.toNat then v :: emitRising (some v) vs else emitRising (some u) vs

/-- `union_values(x, y)` (R306). -/
def unionValues (xs ys : List Word) : List Word := emitRising none (mergeValues xs ys)

/-- What is left of a decoded block after its head is taken; an exhausted block is closed (R304). -/
def restOf : List Word → Option (List Word)
  | [] => none
  | v :: vs => some (v :: vs)

/-- The block index after an element was taken: the next block once this one is exhausted (R304). -/
def stepBlock (rest : List Word) (b : Nat) : Nat := if rest.isEmpty then b + 1 else b

/-- The schedule of R304: at blocks `i` and `j`, with the unread part of each input's open block. -/
def intersectSchedule (p q : Sequence) : Nat → Nat → Nat → Option (List Word) → Option (List Word) → List Word
  | 0, _, _, _, _ => []
  | fuel + 1, i, j, bufP, bufQ =>
    if i < p.nBlocks.toNat ∧ j < q.nBlocks.toNat then
      match bufP, bufQ with
      | none, bufQ =>
        if (p.blockLast.getD i 0).toNat < (blockAt q j).floor.toNat then intersectSchedule p q fuel (i + 1) j none bufQ
        else intersectSchedule p q fuel i j (some (efDecode (blockAt p i))) bufQ
      | some xs, none =>
        if (q.blockLast.getD j 0).toNat < (blockAt p i).floor.toNat then intersectSchedule p q fuel i (j + 1) (some xs) none
        else intersectSchedule p q fuel i j (some xs) (some (efDecode (blockAt q j)))
      | some (x :: xs), some (y :: ys) =>
        if x.toNat < y.toNat then intersectSchedule p q fuel (stepBlock xs i) j (restOf xs) (some (y :: ys))
        else if x.toNat > y.toNat then intersectSchedule p q fuel i (stepBlock ys j) (some (x :: xs)) (restOf ys)
        else x :: intersectSchedule p q fuel (stepBlock xs i) (stepBlock ys j) (restOf xs) (restOf ys)
      | some _, some _ => []
    else []

/-- The intersection computed block by block (R304); every turn of the loop closes or opens a block or takes a value. -/
def intersectByBlocks (p q : Sequence) : List Word :=
  intersectSchedule p q (2 * (p.nBlocks.toNat + q.nBlocks.toNat) + p.nElem.toNat + q.nElem.toNat + 1) 0 0 none none

end Sys2Proof.Machine
end

