-- ==== Sys2Proof/Machine/Ops.lean ====
section
/-! DEFINITION. The named operations over memory and registers: indexed cells (spec/20_memory.md R70 to R72), one update per
register, the capacities (spec/00_scope.md R9), fault entry and reset (spec/60_exceptions.md R330, R331,
spec/70_reset_and_hazards.md R350). -/

namespace Sys2Proof.Machine

/-! ### Indexed cells: `VBUF`, `BYTES`, the slots -/

/-- The value at index `a`; an unlisted index holds none. -/
def cellsRead {α : Type} : Cells α → Nat → Option α
  | [], _ => none
  | (k, v) :: m, a => if a = k then some v else cellsRead m a

/-- Write index `a`, keeping the indices rising. -/
def cellsWrite {α : Type} : Cells α → Nat → α → Cells α
  | [], a, v => [(a, v)]
  | (k, x) :: m, a, v =>
    if a < k then (a, v) :: (k, x) :: m
    else if a = k then (a, v) :: m
    else (k, x) :: cellsWrite m a v

/-- The cells below index `n`. -/
def cellsBelow {α : Type} (m : Cells α) (n : Nat) : Cells α := m.filter fun c => decide (c.1 < n)

/-- Consecutive cells from index `a` on. -/
def cellsFrom {α : Type} : Nat → List α → Cells α
  | _, [] => []
  | a, v :: vs => (a, v) :: cellsFrom (a + 1) vs

/-- The `n` values from index `a` on, none where one of them is unlisted; for cells in canonical form that begin at `a`. -/
def cellsRun {α : Type} : Cells α → Nat → Nat → Option (List α)
  | _, _, 0 => some []
  | [], _, _ + 1 => none
  | (k, v) :: m, a, n + 1 => if k = a then (cellsRun m (a + 1) n).map fun vs => v :: vs else none

/-- Indices strictly rise, and none is below `lo`. -/
def cellsWfFrom {α : Type} : Nat → Cells α → Bool
  | _, [] => true
  | lo, (k, _) :: m => decide (lo ≤ k) && cellsWfFrom (k + 1) m

/-- The canonical form: indices strictly rise. An unlisted index holds no value, so no listed value equals it. -/
def cellsWf {α : Type} (m : Cells α) : Bool := cellsWfFrom 0 m

/-- The byte memory is in canonical form. -/
def Memory.wf (m : Memory) : Bool := cellsWf m

/-! ### Capacities (R9): each also stays below what the registers that count it can hold (notes/assumptions/5.md) -/

/-- `n` items fit a capacity, a natural or `∞` (R9). No items fit every capacity: that test comes first, so that a command which
stores nothing is evaluated without knowing the capacity. -/
def capFits (cap : Option Nat) (n : Nat) : Bool :=
  decide (n = 0) || (match cap with | none => true | some c => decide (n ≤ c))

/-- `n` words fit a word array: `WORD_CAP`, and every bit index below `2^64` (R70). -/
def fitsWords (n : Nat) : Bool := decide (n ≤ 2 ^ 58) && capFits Config.wordCap n

/-- `n` values fit `VBUF`: `VBUF_CAP`, and `VLEN` is a u64 (R42). -/
def fitsValues (n : Nat) : Bool := decide (n < 2 ^ 64) && capFits Config.vbufCap n

/-- `n` bytes fit `BYTES` or a payload: `BYTE_CAP`, and `BLEN` is a u64 (R43). -/
def fitsBytes (n : Nat) : Bool := decide (n < 2 ^ 64) && capFits Config.byteCap n

/-- Go on if something fits, else refuse: the spec gives no successor (R332). -/
def require (fits : Bool) (c : Capacity) (go : Out) : Out := if fits then go else .refused (.capacity c)

/-! ### Register updates: one home for each register -/

def State.setWriter (s : State) (wr : Writer) : State := { s with writer := wr }
def State.setReader (s : State) (rd : Reader) : State := { s with reader := rd }
/-- Write `RES` with a value below `2^64`. -/
def State.setRes (s : State) (n : Nat) : State := { s with res := BitVec.ofNat 64 n }
def State.setFault (s : State) (kind : ErrKind) (info : Nat) : State :=
  { s with err := kind, einfo := BitVec.ofNat 64 info }
def State.setEfb (s : State) (blk : EFBlock) : State := { s with efb := some blk }
/-- `VBUF[0 .. n) <- vs; VLEN <- n`; entries at or above `n` hold no value afterwards (R212, R44). -/
def State.setValues (s : State) (vs : List Word) : State :=
  { s with vbuf := cellsFrom 0 vs, vlen := BitVec.ofNat 64 vs.length }
/-- `BYTES[0 .. n) <- img; BLEN <- n` (R281, R45). -/
def State.setBytes (s : State) (img : List Byte) : State :=
  { s with bytes := cellsFrom 0 img, blen := BitVec.ofNat 64 img.length }
/-- Replace slot `k` whole (R48). -/
def State.setSlot (s : State) (k : BitVec 8) (q : Sequence) : State := { s with slots := cellsWrite s.slots k.toNat q }
def State.setPort (s : State) (moves : List PortMove) : State := { s with port := moves }

/-! ### Faults -/

/-- The code a kind puts in `ERR` (R40, R321 to R325). -/
def errCode : ErrKind → BitVec 3
  | .noFault => 0
  | .invalidInput => 1
  | .outOfRange => 2
  | .malformed => 3
  | .io => 4
  | .illegal => 5

/-- Fault entry, the hardware's one exception: `ERR` and `EINFO` are written and nothing else changes (R17, R330). -/
def raise (kind : ErrKind) (info : Nat) (s : State) : Out := .next (s.setFault kind info)

/-- Reset, the only way out of a fault: there is no trap return (R331, R350). The host's coming moves are not the core's state. -/
def resetCore (s : State) : State := State.reset.setPort s.port

/-- A command whose form no encoding admits faults as its decoding does (R102 steps 3 and 4; notes/assumptions/13.md). -/
def checkForm (i : Instr) (s : State) (go : Out) : Out :=
  match formReject i with
  | some r => raise .illegal (rejectCause r) s
  | none => go

/-! ### Slots written from values -/

/-- Every word array of the blocks fits (R195). -/
def blocksFit (blks : List EFBlock) : Bool :=
  blks.all fun blk => fitsWords blk.low.length && fitsWords blk.high.length

/-- `S[k] <- seq_build(vs, B)`, refused where `n_elem`, the payload or a block's arrays would exceed a capacity (R244, R302). -/
def storeSequence (k : BitVec 8) (vs : List Word) (bsz : BitVec 32) (s : State) : Out :=
  require (decide (vs.length < 2 ^ 64) && fitsBytes (seqBuild vs bsz).payload.length) .bytes
    (require (blocksFit (seqBlocks vs bsz.toNat)) .words (.next (s.setSlot k (seqBuild vs bsz))))

/-- `VBUF <- out` with its length, refused above `VBUF_CAP` (R212, R250, R9). -/
def storeValues (vs : List Word) (s : State) : Out := require (fitsValues vs.length) .values (.next (s.setValues vs))

/-- `EFB <- blk`, refused where an array exceeds `WORD_CAP` (R195, R9). -/
def storeBlock (blk : EFBlock) (s : State) : Out :=
  require (fitsWords blk.low.length && fitsWords blk.high.length) .words (.next (s.setEfb blk))

end Sys2Proof.Machine
end

