-- ==== Sys2Proof/Machine/Flags.lean ====
section
/-! DEFINITION. The one flag, `T` (spec/10_state.md R39): its write, and the found bit of a scan (spec/41_bitutil.md R177). No
other flag exists and no command sets one as a side effect. -/

namespace Sys2Proof.Machine

/-- Write `T`. -/
def State.setT (s : State) (x : Bool) : State := { s with t := x }

/-- `RES` and `T` of a scan: the position and 1, or `2^64 − 1` and 0 (R177). -/
def State.setFound (s : State) (found : Option Nat) : State :=
  match found with
  | some p => (s.setRes p).setT true
  | none => (s.setRes (2 ^ 64 - 1)).setT false

end Sys2Proof.Machine
end

