-- ==== Sys2Proof/Machine/Operands.lean ====
section
/-! DEFINITION. The operand forms: a slot read (spec/44_sequence.md R240), the block register (spec/43_efblock_decode.md R212),
the run in `VBUF` (spec/42_efblock_encode.md R190), the image in `BYTES` (spec/45_serialization.md R283), the Reader's source
(spec/40_bitstream.md R146). -/

namespace Sys2Proof.Machine

/-- `need_slot(k)` (R240): `Illegal(5)` on `none`, refused on content that is not canonical (R257). -/
def needSlot (k : BitVec 8) (s : State) (use : Sequence → Out) : Out :=
  match cellsRead s.slots k.toNat with
  | none => raise .illegal 5 s
  | some q => if isCanonical q then use q else .refused .notCanonical

/-- The block register: `Illegal(5)` on `none` (R325), refused on an invalid block (R210, U10). -/
def needBlock (s : State) (use : EFBlock → Out) : Out :=
  match s.efb with
  | none => raise .illegal 5 s
  | some blk => if isValidBlock blk then use blk else .refused .invalidBlock

/-- `VBUF[0 .. VLEN)`; an entry the host never wrote holds no value (R44, R337). -/
def needRun (s : State) (use : List Word → Out) : Out :=
  match cellsRun s.vbuf 0 s.vlen.toNat with
  | none => .fault .unwrittenValue
  | some vs => use vs

/-- `BYTES[0 .. BLEN)`; a byte the host never wrote holds no value (R45, R337). -/
def needImage (s : State) (use : List Byte → Out) : Out :=
  match cellsRun s.bytes 0 s.blen.toNat with
  | none => .fault .unwrittenByte
  | some img => use img

/-- The word array `RBIND src` copies: `W.words`, `EFB.low` or `EFB.high`; `Illegal(5)` where `EFB` is `none` (R146). -/
def needSource (src : BitVec 2) (s : State) (use : List Word → Out) : Out :=
  if src.toNat = 0 then use s.writer.words
  else
    match s.efb with
    | none => raise .illegal 5 s
    | some blk => use (if src.toNat = 1 then blk.low else blk.high)

end Sys2Proof.Machine
end

