-- ==== Sys2Proof/Machine/BitStream.lean ====
section
/-! DEFINITION. The BitStream commands (spec/40_bitstream.md R140 to R146). -/

namespace Sys2Proof.Machine

/-- `WCLR` (R140). -/
def execWclr (s : State) : Out := .next (s.setWriter emptyWriter)

/-- `PUT val, w` (R141). -/
def execPut (val : Word) (w : BitVec 7) (s : State) : Out :=
  checkForm (.put val w) s
    (require (!putAppends s.writer w.toNat || fitsWords (s.writer.words.length + 1)) .words
      (.next (s.setWriter (writerPut s.writer val.toNat w.toNat))))

/-- `FLUSH` (R143). -/
def execFlush (s : State) : Out :=
  require (decide (s.writer.filled.toNat = 0) || fitsWords (s.writer.words.length + 1)) .words
    (.next (s.setWriter (writerFlush s.writer)))

/-- `RBIND src` (R146): the copy is a snapshot. -/
def execRbind (src : BitVec 2) (s : State) : Out :=
  checkForm (.rbind src) s (needSource src s fun ws => .next (s.setReader { words := ws, pos := 0 }))

/-- `GET w` (R144). -/
def execGet (w : BitVec 7) (s : State) : Out :=
  checkForm (.get w) s
    (if s.reader.pos.toNat + w.toNat ≥ 2 ^ 64 then raise .illegal 6 s
     else
      .next ((s.setRes (readBits s.reader.words s.reader.pos.toNat w.toNat)).setReader
        { words := s.reader.words, pos := BitVec.ofNat 64 (s.reader.pos.toNat + w.toNat) }))

/-- `SCAN off` (R145). -/
def execScan (off : Word) (s : State) : Out := .next (s.setReader { words := s.reader.words, pos := off })

end Sys2Proof.Machine
end

