-- ==== Sys2Proof/Machine/BitUtil.lean ====
section
/-! DEFINITION. The bit utility commands (spec/41_bitutil.md R174 to R177). -/

namespace Sys2Proof.Machine

/-- `FLOG2 x` (R174). -/
def execFlog2 (x : Word) (s : State) : Out :=
  match floorLog2 x.toNat with
  | none => raise .illegal 6 s
  | some k => .next (s.setRes k)

/-- `CDIV n, d` (R175). -/
def execCdiv (n d : Word) (s : State) : Out :=
  if d.toNat = 0 then raise .illegal 6 s
  else if n.toNat + d.toNat - 1 ≥ 2 ^ 64 then raise .illegal 6 s
  else .next (s.setRes (ceilDiv n.toNat d.toNat))

/-- `CTZ x` (R176). -/
def execCtz (x : Word) (s : State) : Out :=
  match ctz x with
  | none => raise .illegal 6 s
  | some k => .next (s.setRes k)

/-- `NEXT1 pos` (R177). -/
def execNext1 (pos : Word) (s : State) : Out := .next (s.setFound (nextOne s.reader.words pos.toNat))

end Sys2Proof.Machine
end

