-- ==== Sys2Proof/Machine/Block.lean ====
section
/-! DEFINITION. The block commands (spec/42_efblock_encode.md R190, spec/43_efblock_decode.md R212, R214, R216). -/

namespace Sys2Proof.Machine

/-- `EFENC` (R190). -/
def execEfenc (s : State) : Out :=
  if s.vlen.toNat = 0 then raise .invalidInput 1 s
  else if s.vlen.toNat ≥ 2 ^ 32 then raise .invalidInput 3 s
  else
    needRun s fun vs =>
      if nonDecreasing vs then storeBlock (efEncode vs) s else raise .invalidInput 2 s

/-- `EFDEC` (R212). -/
def execEfdec (s : State) : Out := needBlock s fun blk => storeValues (efDecode blk) s

/-- `EFAT r` (R214). -/
def execEfat (r : Word) (s : State) : Out :=
  needBlock s fun blk =>
    if r.toNat ≥ blk.nElem.toNat then raise .outOfRange 3 s
    else
      match efAt blk r.toNat with
      | some v => .next (s.setRes v.toNat)
      | none => .refused .invalidBlock

/-- `EFHAS v` (R216). -/
def execEfhas (v : Word) (s : State) : Out := needBlock s fun blk => .next (s.setT (efContains blk v))

end Sys2Proof.Machine
end

