-- ==== Sys2Proof/Machine/Seq.lean ====
section
/-! DEFINITION. The Sequence commands (spec/44_sequence.md R244 to R253). -/

namespace Sys2Proof.Machine

/-- `SQBUILD k, B` (R244). -/
def execSqbuild (k : BitVec 8) (bsz : BitVec 32) (s : State) : Out :=
  checkForm (.sqbuild k bsz) s
    (if bsz.toNat = 0 then raise .invalidInput 4 s
     else
      needRun s fun vs => if nonDecreasing vs then storeSequence k vs bsz s else raise .invalidInput 2 s)

/-- `SQLEN k` (R246). -/
def execSqlen (k : BitVec 8) (s : State) : Out :=
  checkForm (.sqlen k) s (needSlot k s fun q => .next (s.setRes q.nElem.toNat))

/-- `SQBSZ k` (R247). -/
def execSqbsz (k : BitVec 8) (s : State) : Out :=
  checkForm (.sqbsz k) s (needSlot k s fun q => .next (s.setRes q.blockSize.toNat))

/-- `SQNBLK k` (R248). -/
def execSqnblk (k : BitVec 8) (s : State) : Out :=
  checkForm (.sqnblk k) s (needSlot k s fun q => .next (s.setRes q.nBlocks.toNat))

/-- `SQDEC k` (R250). -/
def execSqdec (k : BitVec 8) (s : State) : Out :=
  checkForm (.sqdec k) s (needSlot k s fun q => storeValues (seqDecode q) s)

/-- `SQDECB k, blk` (R251); the capacity test is R9's (notes/assumptions/15.md). -/
def execSqdecb (k : BitVec 8) (blk : Word) (s : State) : Out :=
  checkForm (.sqdecb k blk) s
    (needSlot k s fun q =>
      if blk.toNat ≥ q.nBlocks.toNat then raise .outOfRange 2 s
      else storeValues (efDecode (blockAt q blk.toNat)) s)

/-- `SQGET k, i` (R252). -/
def execSqget (k : BitVec 8) (i : Word) (s : State) : Out :=
  checkForm (.sqget k i) s
    (needSlot k s fun q =>
      if i.toNat ≥ q.nElem.toNat then raise .outOfRange 1 s
      else
        match seqGet q i.toNat with
        | some v => .next (s.setRes v.toNat)
        | none => .refused .notCanonical)

/-- `SQHAS k, v` (R253). -/
def execSqhas (k : BitVec 8) (v : Word) (s : State) : Out :=
  checkForm (.sqhas k v) s (needSlot k s fun q => .next (s.setT (seqContains q v)))

/-- `SQLDB k, blk` (R249); the capacity test is R9's (notes/assumptions/15.md). -/
def execSqldb (k : BitVec 8) (blk : Word) (s : State) : Out :=
  checkForm (.sqldb k blk) s
    (needSlot k s fun q =>
      if blk.toNat ≥ q.nBlocks.toNat then raise .outOfRange 2 s
      else storeBlock (blockAt q blk.toNat) s)

end Sys2Proof.Machine
end

