-- ==== Sys2Proof/Machine/Serial.lean ====
section
/-! DEFINITION. The serialization commands (spec/45_serialization.md R281, R283). -/

namespace Sys2Proof.Machine

/-- `SQSER k` (R281). -/
def execSqser (k : BitVec 8) (s : State) : Out :=
  checkForm (.sqser k) s
    (needSlot k s fun q => require (fitsBytes (serialize q).length) .bytes (.next (s.setBytes (serialize q))))

/-- `SQLOAD k` (R283): `Malformed(c)` with the first failing check, else the slot is replaced. -/
def execSqload (k : BitVec 8) (s : State) : Out :=
  checkForm (.sqload k) s
    (needImage s fun img =>
      match loadImage img with
      | .error c => raise .malformed c s
      | .ok q => .next (s.setSlot k q))

end Sys2Proof.Machine
end

