-- ==== Sys2Proof/Machine/SetAlgebra.lean ====
section
/-! DEFINITION. The set-algebra commands (spec/46_setalgebra.md R300 to R305): both operands are read before the destination is
written, and the result has the left operand's block size (R301). -/

namespace Sys2Proof.Machine

/-- `SQAND d, l, r` (R302). -/
def execSqand (d l r : BitVec 8) (s : State) : Out :=
  checkForm (.sqand d l r) s
    (needSlot l s fun p =>
      needSlot r s fun q => storeSequence d (intersectValues (seqDecode p) (seqDecode q)) p.blockSize s)

/-- `SQOR d, l, r` (R305). -/
def execSqor (d l r : BitVec 8) (s : State) : Out :=
  checkForm (.sqor d l r) s
    (needSlot l s fun p =>
      needSlot r s fun q => storeSequence d (unionValues (seqDecode p) (seqDecode q)) p.blockSize s)

end Sys2Proof.Machine
end

