-- ==== Sys2Proof/Machine/Dispatch.lean ====
section
/-! DEFINITION. One arm per command (spec/30_encoding.md R101): what an accepted command does. -/

namespace Sys2Proof.Machine

def exec (i : Instr) (s : State) : Host.Outcome State Fault Refusal :=
  match i with
  | .wclr => Sys2Proof.Machine.execWclr s
  | .put val w => Sys2Proof.Machine.execPut val w s
  | .flush => Sys2Proof.Machine.execFlush s
  | .rbind src => Sys2Proof.Machine.execRbind src s
  | .get w => Sys2Proof.Machine.execGet w s
  | .scan off => Sys2Proof.Machine.execScan off s
  | .flog2 x => Sys2Proof.Machine.execFlog2 x s
  | .cdiv n d => Sys2Proof.Machine.execCdiv n d s
  | .ctz x => Sys2Proof.Machine.execCtz x s
  | .next1 pos => Sys2Proof.Machine.execNext1 pos s
  | .efenc => Sys2Proof.Machine.execEfenc s
  | .efdec => Sys2Proof.Machine.execEfdec s
  | .efat r => Sys2Proof.Machine.execEfat r s
  | .efhas v => Sys2Proof.Machine.execEfhas v s
  | .sqbuild k bsz => Sys2Proof.Machine.execSqbuild k bsz s
  | .sqlen k => Sys2Proof.Machine.execSqlen k s
  | .sqbsz k => Sys2Proof.Machine.execSqbsz k s
  | .sqnblk k => Sys2Proof.Machine.execSqnblk k s
  | .sqdec k => Sys2Proof.Machine.execSqdec k s
  | .sqdecb k blk => Sys2Proof.Machine.execSqdecb k blk s
  | .sqget k n => Sys2Proof.Machine.execSqget k n s
  | .sqhas k v => Sys2Proof.Machine.execSqhas k v s
  | .sqldb k blk => Sys2Proof.Machine.execSqldb k blk s
  | .sqser k => Sys2Proof.Machine.execSqser k s
  | .sqload k => Sys2Proof.Machine.execSqload k s
  | .sqand d l r => Sys2Proof.Machine.execSqand d l r s
  | .sqor d l r => Sys2Proof.Machine.execSqor d l r s

end Sys2Proof.Machine
end

