-- ==== Sys2Proof/Machine/Port.lean ====
section
/-! DEFINITION. The command port and the host's other liberties (spec/60_exceptions.md R331, R337; spec/30_encoding.md R102;
spec/70_reset_and_hazards.md R350). -/

namespace Sys2Proof.Machine

/-- Present a command: a halted core takes no notice of it (R331), a rejected word faults `Illegal` (R102, R325), any other
runs. -/
def runCommand (c : CommandWord) (s : State) : Out :=
  if s.err ≠ .noFault then .next s
  else
    match decode c with
    | .error r => raise .illegal (rejectCause r) s
    | .ok i => exec i s

/-- The host writes buffers and lengths only while `ERR = 0` (R337, U15). -/
def hostWrite (s : State) (go : Out) : Out := if s.err ≠ .noFault then .refused .hostWriteHalted else go

/-- One move of the host. `VLEN` and `BLEN` stay within their capacities; an entry at or above a length just written holds no
value (R42 to R45, notes/assumptions/7.md, notes/assumptions/8.md). -/
def perform (m : PortMove) (s : State) : Out :=
  match m with
  | .command c => runCommand c s
  | .writeValue i v =>
    hostWrite s (require (fitsValues (i.toNat + 1)) .values (.next { s with vbuf := cellsWrite s.vbuf i.toNat v }))
  | .writeVlen n =>
    hostWrite s (require (fitsValues n.toNat) .values (.next { s with vlen := n, vbuf := cellsBelow s.vbuf n.toNat }))
  | .writeByte i x =>
    hostWrite s (require (fitsBytes (i.toNat + 1)) .bytes (.next { s with bytes := cellsWrite s.bytes i.toNat x }))
  | .writeBlen n =>
    hostWrite s (require (fitsBytes n.toNat) .bytes (.next { s with blen := n, bytes := cellsBelow s.bytes n.toNat }))
  | .reset => .next (resetCore s)

/-! ### What the host may read between commands, also when halted (R337); no read changes state -/

/-- `VBUF[i]` for `i < VLEN`. -/
def hostValue (s : State) (i : Nat) : Option Word := if i < s.vlen.toNat then cellsRead s.vbuf i else none

/-- `BYTES[i]` for `i < BLEN`. -/
def hostByte (s : State) (i : Nat) : Option Byte := if i < s.blen.toNat then cellsRead s.bytes i else none

/-- The seven header fields of slot `k` (R47). -/
def hostMetadata (s : State) (k : Nat) : Option SequenceMetadata := (cellsRead s.slots k).map metadataOf

end Sys2Proof.Machine
end

