-- ==== Sys2Proof/Machine/Step.lean ====
section
/-! DEFINITION. One step: the host's next move is taken from the port and performed (spec/20_memory.md R83,
spec/60_exceptions.md R337; notes/assumptions/1.md, notes/assumptions/2.md). -/

namespace Sys2Proof.Machine

/-- One step; with no move of the host the core does nothing. -/
def step (s : State) : Host.Outcome State Fault Refusal :=
  match s.port with
  | [] => .next s
  | m :: moves => perform m (s.setPort moves)

/-- The host's next move presents the command whose bits are `w` (the bits above `nbits` are 0), before its other moves. -/
def State.withFetchWord (s : State) (nbits w : Nat) : State :=
  s.setPort (.command (BitVec.ofNat 136 (w % 2 ^ nbits)) :: s.port)

end Sys2Proof.Machine
end

