-- ==== Sys2Proof/Safety.lean ====
section
/-! DEFINITION. The terms in which claims are stated: good runs (spec/60_exceptions.md R331, R338; spec/00_scope.md R24), what a
buffer, the block register or a slot holds, the opcode table's columns (spec/30_encoding.md R101, spec/60_exceptions.md R326), and
the machine's invariants. -/

namespace Sys2Proof.Safety

open Sys2Proof.Machine

/-! ### Runs -/

/-- The core accepts commands: `ERR = 0` (R331). -/
def running (s : State) : Prop := s.err = .noFault

/-- `n` steps from `s`, `ERR = 0` before each of them and at the end, and no move left: the first fault ends the run as a failure,
also where a reset comes after it (R24, R331, R338). -/
def goodSteps : Nat → State → Prop
  | 0, s => running s ∧ s.port = []
  | n + 1, s => running s ∧ ∃ t, step s = .next t ∧ goodSteps n t

/-- The run of the host's moves from `s` is a success: every command presented was executed, none with a fault (R24, R338). -/
def goodRun (s : State) : Prop := goodSteps s.port.length s

/-- The commands of a run, one after another from one next state to the next; the first fault ends the run, and no command after
it has any effect (R24, R83, R331). -/
def execAll : List Instr → State → Out
  | [], s => .next s
  | i :: is, s =>
    if s.err ≠ .noFault then .next s
    else
      match exec i s with
      | .next t => execAll is t
      | .fault r => .fault r
      | .refused r => .refused r

/-! ### The Writer's stream -/

/-- The bit position at which the next `PUT` lands (R35). -/
def writerBits (wr : Writer) : Nat := 64 * wr.words.length + wr.filled.toNat

/-- Bit `p` of what was written: the words, then the partial accumulator. -/
def writerBit (wr : Writer) (p : Nat) : Nat := streamBit (wr.words ++ [wr.cur]) p

/-- No bit of `W.cur` at or above `W.filled` is 1 (R33). -/
def writerOk (wr : Writer) : Prop := wr.cur.toNat < 2 ^ wr.filled.toNat

/-- The widths of a list of fields, in all. -/
def totalWidth (fs : List (Word × BitVec 7)) : Nat := (fs.map fun f => f.2.toNat).sum

/-- A `PUT` of every field, `FLUSH`, `RBIND W` (R147). -/
def writeFields (fs : List (Word × BitVec 7)) : List Instr := (fs.map fun f => .put f.1 f.2) ++ [.flush, .rbind 0]

/-! ### What registers and buffers hold -/

/-- A run `ef_encode` takes: non-decreasing, 1 to `2^32 − 1` values (R210). -/
def blockRun (vs : List Word) : Prop := nonDecreasing vs = true ∧ 1 ≤ vs.length ∧ vs.length < 2 ^ 32

/-- Values and a block size that `seq_build` takes (R241, R243), of lengths a u64 holds. -/
def buildable (vs : List Word) (bsz : BitVec 32) : Prop :=
  nonDecreasing vs = true ∧ 1 ≤ bsz.toNat ∧ vs.length < 2 ^ 64 ∧ (seqBuild vs bsz).payload.length < 2 ^ 64

/-- `EFB` holds the block of a run. -/
def holdsBlock (s : State) (vs : List Word) : Prop := s.efb = some (efEncode vs) ∧ blockRun vs

/-- Slot `k` holds the Sequence built from values. -/
def holdsSequence (s : State) (k : BitVec 8) (vs : List Word) (bsz : BitVec 32) : Prop :=
  cellsRead s.slots k.toNat = some (seqBuild vs bsz) ∧ buildable vs bsz

/-- Slot `k` holds nothing. -/
def emptySlot (s : State) (k : BitVec 8) : Prop := cellsRead s.slots k.toNat = none

/-- `VBUF[0 .. VLEN)` holds these values. -/
def holdsRun (s : State) (vs : List Word) : Prop := cellsRun s.vbuf 0 s.vlen.toNat = some vs

/-- `BYTES[0 .. BLEN)` holds these bytes. -/
def holdsImage (s : State) (img : List Byte) : Prop := cellsRun s.bytes 0 s.blen.toNat = some img

/-- Block `b` of the values, at most `size` of them (R241). -/
def blockOf (vs : List Word) (size b : Nat) : List Word := (vs.drop (b * size)).take size

/-- The Sequence of these values exceeds no capacity (R9, R195, R244). -/
def sequenceFits (vs : List Word) (bsz : BitVec 32) : Prop :=
  vs.length < 2 ^ 64 ∧ fitsBytes (seqBuild vs bsz).payload.length = true ∧ blocksFit (seqBlocks vs bsz.toNat) = true

/-- The block's arrays exceed no capacity. -/
def blockFits (blk : EFBlock) : Prop := fitsWords blk.low.length = true ∧ fitsWords blk.high.length = true

/-- The state a fault leaves: `ERR` and `EINFO` written, nothing else (R330). -/
def faulted (s : State) (kind : ErrKind) (info : Word) : State := { s with err := kind, einfo := info }

/-! ### The block chain of a payload and of an image (R112, R284) -/

/-- `block_offset[b]` as an image with `n` blocks lists it (R284 check 8). -/
def imageOffset (img : List Byte) (n b : Nat) : Nat := memRead img (40 + 8 * n + 8 * b) 8

/-- Where the block at payload offset `off` ends: `off + 40 + 8·(low_words + high_words)` (R284 check 9). -/
def blockEnd (payload : List Byte) (off : Nat) : Nat :=
  off + 40 + 8 * (memRead payload (off + 16) 8 + memRead payload (off + 24) 8)

/-- Where block `b` must begin, by the directory's offsets: at the end of the block before it, `off_0 = 0` (R284 check 9). -/
def chainOffset (payload : List Byte) (offset : Nat → Nat) : Nat → Nat
  | 0 => 0
  | b + 1 => blockEnd payload (offset b)

/-- How many of the `total` values block `b` of `n` must hold (R284 check 9). -/
def chainCount (bsz total n b : Nat) : Nat := if b + 1 < n then bsz else total - bsz * (n - 1)

/-- Check 9 of R284, the block chain, clause by clause, for `n` blocks at the directory's offsets. -/
def blockChain (payload : List Byte) (offset : Nat → Nat) (bsz total n : Nat) : Prop :=
  ∀ b, b < n →
    let off := offset b
    let count := memRead payload off 4
    let l := memRead payload (off + 4) 1
    off = chainOffset payload offset b ∧ off + 40 ≤ payload.length ∧ count = chainCount bsz total n b ∧ l ≤ 63 ∧
    memRead payload (off + 16) 8 = (if 0 < l then ceilDiv (count * l) 64 else 0) ∧
    memRead payload (off + 32) 8 ≤ 64 * memRead payload (off + 24) 8 ∧ blockEnd payload off ≤ payload.length

/-- A block's bytes at payload offset `off`: the six metadata fields at their offsets, the zero filler, then the words of `low` and
after them the words of `high` (R105, R106, R111, R242). -/
def blockLaidOut (payload : List Byte) (off : Nat) (blk : EFBlock) : Prop :=
  memRead payload off 4 = blk.nElem.toNat ∧ memRead payload (off + 4) 1 = blk.l.toNat ∧
  (payload.drop (off + 5)).take 3 = [0, 0, 0] ∧ memRead payload (off + 8) 8 = blk.floor.toNat ∧
  memRead payload (off + 16) 8 = blk.lowWords.toNat ∧ memRead payload (off + 24) 8 = blk.highWords.toNat ∧
  memRead payload (off + 32) 8 = blk.highBitsLen.toNat ∧
  (∀ j, j < blk.low.length → memRead payload (off + 40 + 8 * j) 8 = (blk.low.getD j 0).toNat) ∧
  ∀ j, j < blk.high.length →
    memRead payload (off + 40 + 8 * blk.lowWords.toNat + 8 * j) 8 = (blk.high.getD j 0).toNat

/-- Check 11 of R284: `block_last` is non-decreasing. -/
def lastsRise (img : List Byte) (n : Nat) : Prop :=
  ∀ b, b + 1 < n → memRead img (40 + 8 * b) 8 ≤ memRead img (40 + 8 * (b + 1)) 8

/-- The Sequence whose fields the checks of R284 read from an image (R283). -/
def sequenceOf (img : List Byte) : Sequence where
  nElem := BitVec.ofNat 64 (memRead img 8 8)
  blockSize := BitVec.ofNat 32 (memRead img 16 4)
  nBlocks := BitVec.ofNat 64 (memRead img 24 8)
  blockLast := (List.range (memRead img 24 8)).map fun b => BitVec.ofNat 64 (memRead img (40 + 8 * b) 8)
  blockOffset := (List.range (memRead img 24 8)).map fun b => BitVec.ofNat 64 (imageOffset img (memRead img 24 8) b)
  payload := img.drop (memRead img 32 8)

/-! ### The opcode table -/

/-- Column `mask_full` of spec/opcode_table.json by opcode byte: the opcode and the reserved-zero bits. -/
def rowMask (op : BitVec 8) : Option CommandWord :=
  match op.toNat with
  | 0x01 => some 0xFFFFFFFFFFFFFFFFFFFFFFFFFFFFFFFFFF
  | 0x02 => some 0xFFFFFFFFFFFFFF800000000000000000FF
  | 0x03 => some 0xFFFFFFFFFFFFFFFFFFFFFFFFFFFFFFFFFF
  | 0x08 => some 0xFFFFFFFFFFFFFFFFFFFFFFFFFFFFFFFCFF
  | 0x09 => some 0xFFFFFFFFFFFFFF80FFFFFFFFFFFFFFFFFF
  | 0x0A => some 0xFFFFFFFFFFFFFFFF0000000000000000FF
  | 0x10 => some 0xFFFFFFFFFFFFFFFF0000000000000000FF
  | 0x11 => some 0x00000000000000000000000000000000FF
  | 0x12 => some 0xFFFFFFFFFFFFFFFF0000000000000000FF
  | 0x13 => some 0xFFFFFFFFFFFFFFFF0000000000000000FF
  | 0x20 => some 0xFFFFFFFFFFFFFFFFFFFFFFFFFFFFFFFFFF
  | 0x21 => some 0xFFFFFFFFFFFFFFFFFFFFFFFFFFFFFFFFFF
  | 0x22 => some 0xFFFFFFFFFFFFFFFF0000000000000000FF
  | 0x23 => some 0xFFFFFFFFFFFFFFFF0000000000000000FF
  | 0x30 => some 0xFFFFFFFF00000000FFFFFFFFFFFFFF00FF
  | 0x31 => some 0xFFFFFFFFFFFFFFFFFFFFFFFFFFFFFF00FF
  | 0x32 => some 0xFFFFFFFFFFFFFFFFFFFFFFFFFFFFFF00FF
  | 0x33 => some 0xFFFFFFFFFFFFFFFFFFFFFFFFFFFFFF00FF
  | 0x34 => some 0xFFFFFFFFFFFFFFFFFFFFFFFFFFFFFF00FF
  | 0x35 => some 0x0000000000000000FFFFFFFFFFFFFF00FF
  | 0x36 => some 0x0000000000000000FFFFFFFFFFFFFF00FF
  | 0x37 => some 0x0000000000000000FFFFFFFFFFFFFF00FF
  | 0x38 => some 0x0000000000000000FFFFFFFFFFFFFF00FF
  | 0x40 => some 0xFFFFFFFFFFFFFFFFFFFFFFFFFFFFFF00FF
  | 0x41 => some 0xFFFFFFFFFFFFFFFFFFFFFFFFFFFFFF00FF
  | 0x50 => some 0xFFFFFFFFFFFFFFFFFFFFFFFFFF000000FF
  | 0x51 => some 0xFFFFFFFFFFFFFFFFFFFFFFFFFF000000FF
  | _ => none

/-- `PUT` or `GET` with a width field above 64 (R102 step 3). -/
def badWidth (c : CommandWord) : Prop :=
  ((opField c).toNat = 0x02 ∨ (opField c).toNat = 0x09) ∧ 64 < (bField c).toNat % 128

/-- The opcode bytes of the commands with one slot field (R101). -/
def slotOpcodes : List Nat := [0x30, 0x31, 0x32, 0x33, 0x34, 0x35, 0x36, 0x37, 0x38, 0x40, 0x41]

/-- `RBIND` with source 3, or a slot field not below `NSLOT` (R102 step 4). -/
def badSelector (c : CommandWord) : Prop :=
  ((opField c).toNat = 0x08 ∧ (aField c).toNat % 4 = 3) ∨
  ((opField c).toNat ∈ slotOpcodes ∧ Config.nslot ≤ (aField c).toNat % 256) ∨
  (((opField c).toNat = 0x50 ∨ (opField c).toNat = 0x51) ∧
    (Config.nslot ≤ (aField c).toNat % 256 ∨ Config.nslot ≤ (aField c).toNat / 256 % 256 ∨
      Config.nslot ≤ (aField c).toNat / 65536 % 256))

/-- The registers of R101's column "Writes". -/
inductive Reg where
  | writer
  | readerWords
  | readerPos
  | res
  | t
  | efb
  | values
  | bytes
  | slot (k : BitVec 8)
deriving DecidableEq, Repr

/-- R101's column "Writes", `R.*` being both of the Reader's registers. -/
def writes : Instr → List Reg
  | .wclr => [.writer]
  | .put _ _ => [.writer]
  | .flush => [.writer]
  | .rbind _ => [.readerWords, .readerPos]
  | .get _ => [.res, .readerPos]
  | .scan _ => [.readerPos]
  | .flog2 _ => [.res]
  | .cdiv _ _ => [.res]
  | .ctz _ => [.res]
  | .next1 _ => [.res, .t]
  | .efenc => [.efb]
  | .efdec => [.values]
  | .efat _ => [.res]
  | .efhas _ => [.t]
  | .sqbuild k _ => [.slot k]
  | .sqlen _ => [.res]
  | .sqbsz _ => [.res]
  | .sqnblk _ => [.res]
  | .sqdec _ => [.values]
  | .sqdecb _ _ => [.values]
  | .sqget _ _ => [.res]
  | .sqhas _ _ => [.t]
  | .sqldb _ _ => [.efb]
  | .sqser _ => [.bytes]
  | .sqload k => [.slot k]
  | .sqand d _ _ => [.slot d]
  | .sqor d _ _ => [.slot d]

/-- The faults each command can raise after decode, by kind and sub-cause (R326). -/
def mayRaise : Instr → List (ErrKind × Nat)
  | .get _ => [(.illegal, 6)]
  | .rbind _ => [(.illegal, 5)]
  | .flog2 _ => [(.illegal, 6)]
  | .ctz _ => [(.illegal, 6)]
  | .cdiv _ _ => [(.illegal, 6)]
  | .efenc => [(.invalidInput, 1), (.invalidInput, 3), (.invalidInput, 2)]
  | .efdec => [(.illegal, 5)]
  | .efhas _ => [(.illegal, 5)]
  | .efat _ => [(.illegal, 5), (.outOfRange, 3)]
  | .sqbuild _ _ => [(.invalidInput, 4), (.invalidInput, 2)]
  | .sqlen _ => [(.illegal, 5)]
  | .sqbsz _ => [(.illegal, 5)]
  | .sqnblk _ => [(.illegal, 5)]
  | .sqdec _ => [(.illegal, 5)]
  | .sqhas _ _ => [(.illegal, 5)]
  | .sqser _ => [(.illegal, 5)]
  | .sqdecb _ _ => [(.illegal, 5), (.outOfRange, 2)]
  | .sqldb _ _ => [(.illegal, 5), (.outOfRange, 2)]
  | .sqget _ _ => [(.illegal, 5), (.outOfRange, 1)]
  | .sqload _ =>
    [(.malformed, 1), (.malformed, 2), (.malformed, 3), (.malformed, 4), (.malformed, 5), (.malformed, 6),
      (.malformed, 7), (.malformed, 8), (.malformed, 9), (.malformed, 10), (.malformed, 11)]
  | .sqand _ _ _ => [(.illegal, 5)]
  | .sqor _ _ _ => [(.illegal, 5)]
  | .wclr => []
  | .put _ _ => []
  | .flush => []
  | .scan _ => []
  | .next1 _ => []

/-- The slots a command reads, in the order it tests them (R240, R302). -/
def slotReads : Instr → List (BitVec 8)
  | .sqlen k => [k]
  | .sqbsz k => [k]
  | .sqnblk k => [k]
  | .sqdec k => [k]
  | .sqdecb k _ => [k]
  | .sqget k _ => [k]
  | .sqhas k _ => [k]
  | .sqldb k _ => [k]
  | .sqser k => [k]
  | .sqand _ l r => [l, r]
  | .sqor _ l r => [l, r]
  | .sqbuild _ _ => []
  | .sqload _ => []
  | .wclr => []
  | .put _ _ => []
  | .flush => []
  | .rbind _ => []
  | .get _ => []
  | .scan _ => []
  | .flog2 _ => []
  | .cdiv _ _ => []
  | .ctz _ => []
  | .next1 _ => []
  | .efenc => []
  | .efdec => []
  | .efat _ => []
  | .efhas _ => []

/-! ### Invariants -/

/-- The byte memory, the value buffer and the slots are in canonical form (notes/assumptions/6.md). -/
def memoryForm (s : State) : Prop :=
  Memory.wf s.bytes = true ∧ cellsWf s.vbuf = true ∧ cellsWf s.slots = true

/-- `EFB`, when not none, holds a valid block (R210). -/
def blockRegisterOk (s : State) : Prop := ∀ blk, s.efb = some blk → isValidBlock blk = true

/-- Every array and length is within its capacity and every slot in use below `NSLOT` (R32, R36, R42, R43, R47, R9). -/
def withinCapacities (s : State) : Prop :=
  fitsWords s.writer.words.length = true ∧ fitsWords s.reader.words.length = true ∧
  (∀ blk, s.efb = some blk → blockFits blk) ∧ fitsValues s.vlen.toNat = true ∧ fitsBytes s.blen.toNat = true ∧
  ∀ k q, cellsRead s.slots k = some q → k < Config.nslot ∧ fitsBytes q.payload.length = true

/-- `block_offset[b]` of a slot. -/
def slotOffset (q : Sequence) (b : Nat) : Nat := (q.blockOffset.getD b 0).toNat

/-- A slot's fields agree with each other: `block_size ≥ 1`, `n_blocks = ceil(n_elem / block_size)`, directory arrays of
`n_blocks` entries, `block_last` non-decreasing, `block_offset` the chain of the payload's blocks from 0 on, and the payload
ending where the last block ends (R47, R112, R114, and checks 9 and 10 of R284). -/
def slotShape (q : Sequence) : Prop :=
  1 ≤ q.blockSize.toNat ∧ q.nBlocks.toNat = ceilDiv q.nElem.toNat q.blockSize.toNat ∧
  q.blockLast.length = q.nBlocks.toNat ∧ q.blockOffset.length = q.nBlocks.toNat ∧ nonDecreasing q.blockLast = true ∧
  blockChain q.payload (slotOffset q) q.blockSize.toNat q.nElem.toNat q.nBlocks.toNat ∧
  chainOffset q.payload (slotOffset q) q.nBlocks.toNat = q.payload.length

/-- Every slot in use has that shape. -/
def slotsShaped (s : State) : Prop := ∀ k q, cellsRead s.slots k = some q → slotShape q

end Sys2Proof.Safety
end

