-- ==== Sys2Proof/Certificates/Slice0/Obligations.lean ====
section
/-! DEFINITION. The statements for the provers, each from the numbered rules its docstring cites. -/

open Sys2Proof Sys2Proof.Machine Sys2Proof.Safety

/-! ### The command word -/

/-- Decoding the word of a well-formed command gives that command (R100, R101, R130, R131). -/
def Obligations.DecodeOfEncodeIsTheCommand : Prop :=
  ∀ i : Instr, i.wf = true → decode (encode i) = .ok i

/-- A word that decodes is the word of the command it decodes to, which is well formed: each accepted word has one meaning
(R100, R101, R102). -/
def Obligations.EncodeOfDecodeIsTheWord : Prop :=
  ∀ (c : CommandWord) (i : Instr), decode c = .ok i → i.wf = true ∧ encode i = c

/-- The word of a command is the number `op + a·2^8 + b·2^72` (R130, which the spec marks as derived from R100). -/
def Obligations.CommandWordIsItsNumber : Prop :=
  ∀ i : Instr, (encode i).toNat = (opcode i).toNat + (operandA i).toNat * 2 ^ 8 + (operandB i).toNat * 2 ^ 72

/-- The decode checks in their order, as faults of a presented word, and what passes them all runs (R102). -/
def Obligations.DecodeChecksRunInOrder : Prop :=
  ∀ (c : CommandWord) (s : State), s.err = .noFault →
    (rowMask (opField c) = none → runCommand c s = .next (faulted s .illegal 1)) ∧
    ∀ m, rowMask (opField c) = some m →
      (c &&& m ≠ (opField c).setWidth 136 → runCommand c s = .next (faulted s .illegal 2)) ∧
      (c &&& m = (opField c).setWidth 136 →
        (badWidth c → runCommand c s = .next (faulted s .illegal 3)) ∧
        (badSelector c → runCommand c s = .next (faulted s .illegal 4)) ∧
        (¬ badWidth c → ¬ badSelector c → ∃ i, decode c = .ok i ∧ runCommand c s = exec i s))

/-- One word of each of the 27 rows of R101, in the table's order, decodes to the command it stands for. The words are those of the
programs of spec/95_test_vectors.md; the last, a second one for `SQOR`, sets the three slots apart as R131 lays them out. -/
def Obligations.WordsOfTheSpecDecode : Prop :=
  decode 0x0000000000000000000000000000000001 = .ok .wclr ∧
  decode 0x0000000000000003000000000000000502 = .ok (.put 5 3) ∧
  decode 0x0000000000000000000000000000000003 = .ok .flush ∧
  decode 0x0000000000000000000000000000000208 = .ok (.rbind 2) ∧
  decode 0x0000000000000040000000000000000009 = .ok (.get 64) ∧
  decode 0x000000000000000000000000000000800A = .ok (.scan 128) ∧
  decode 0x0000000000000000000000000000000810 = .ok (.flog2 8) ∧
  decode 0x0000000000000008000000000000002111 = .ok (.cdiv 33 8) ∧
  decode 0x0000000000000000000000000000008812 = .ok (.ctz 0x88) ∧
  decode 0x0000000000000000000000000000000413 = .ok (.next1 4) ∧
  decode 0x0000000000000000000000000000000020 = .ok .efenc ∧
  decode 0x0000000000000000000000000000000021 = .ok .efdec ∧
  decode 0x0000000000000000000000000000000322 = .ok (.efat 3) ∧
  decode 0x0000000000000000000000000000001523 = .ok (.efhas 21) ∧
  decode 0x0000000000000003000000000000000130 = .ok (.sqbuild 1 3) ∧
  decode 0x0000000000000000000000000000000231 = .ok (.sqlen 2) ∧
  decode 0x0000000000000000000000000000000032 = .ok (.sqbsz 0) ∧
  decode 0x0000000000000000000000000000000033 = .ok (.sqnblk 0) ∧
  decode 0x0000000000000000000000000000000234 = .ok (.sqdec 2) ∧
  decode 0x0000000000000001000000000000000135 = .ok (.sqdecb 1 1) ∧
  decode 0x000000000000000B000000000000000036 = .ok (.sqget 0 11) ∧
  decode 0x0000000000000026000000000000000037 = .ok (.sqhas 0 38) ∧
  decode 0x0000000000000000000000000000000038 = .ok (.sqldb 0 0) ∧
  decode 0x0000000000000000000000000000000240 = .ok (.sqser 2) ∧
  decode 0x0000000000000000000000000000000141 = .ok (.sqload 1) ∧
  decode 0x0000000000000000000000000001000250 = .ok (.sqand 2 0 1) ∧
  decode 0x0000000000000000000000000001000051 = .ok (.sqor 0 0 1) ∧
  decode 0x0000000000000000000000000001000251 = .ok (.sqor 2 0 1)

/-! ### Steps, faults, reset -/

/-- When the host's next move presents a word, the step is that word presented to the state with the move taken. Where the core
accepts commands, a word that decodes to `i` runs `exec i` and a word that decoding rejects faults `Illegal` with the sub-cause of
the check that failed (R83, R100, R102, R325; the port is the model's, notes/assumptions/1.md). -/
def Obligations.StepRunsTheDecodedCommand : Prop :=
  ∀ (s : State) (c : CommandWord) (moves : List PortMove), s.port = .command c :: moves →
    step s = runCommand c { s with port := moves } ∧
    (s.err = .noFault →
      (∀ i, decode c = .ok i → step s = exec i { s with port := moves }) ∧
      (decode c = .error .reservedOpcode → step s = .next (faulted { s with port := moves } .illegal 1)) ∧
      (decode c = .error .reservedZero → step s = .next (faulted { s with port := moves } .illegal 2)) ∧
      (decode c = .error .width → step s = .next (faulted { s with port := moves } .illegal 3)) ∧
      (decode c = .error .selector → step s = .next (faulted { s with port := moves } .illegal 4)))

/-- A fault is final: while `ERR ≠ 0` a presented command has no effect at all, however many are presented, and every step either
leaves everything but the port as it was or is a reset (R331, R338). The model's own part: the port and its moves are
notes/assumptions/1.md (DESIGN CHOICE), that an empty port leaves the state as it was is notes/assumptions/2.md (DESIGN CHOICE),
and that a command presented to a halted core is taken from the port and dropped is notes/assumptions/3.md (DEDUCED). -/
def Obligations.FaultIsFinalUntilReset : Prop :=
  ∀ s : State, s.err ≠ .noFault →
    (∀ c moves, s.port = .command c :: moves → step s = .next { s with port := moves }) ∧
    (∀ cs : List CommandWord, s.port = cs.map .command →
      Sys2Proof.core.run cs.length s = .next { s with port := [] }) ∧
    ∀ t, step s = .next t →
      t = { s with port := s.port.tail } ∨
        ∃ moves, s.port = .reset :: moves ∧ t = { State.reset with port := moves }

/-- The host may reset at any time, reset puts every piece of state at its reset value, and nothing else clears `ERR` (R350). The
model's own part: reset is a move of the port (notes/assumptions/1.md, DESIGN CHOICE), and it keeps the host's remaining moves,
the clause `t.port = moves` (notes/assumptions/9.md, DEDUCED). -/
def Obligations.ResetEstablishesTheResetState : Prop :=
  (∀ (s : State) (moves : List PortMove), s.port = .reset :: moves →
    ∃ t, step s = .next t ∧ t.port = moves ∧ t.writer.words = [] ∧ t.writer.cur = 0 ∧ t.writer.filled = 0 ∧
      t.reader.words = [] ∧ t.reader.pos = 0 ∧ t.res = 0 ∧ t.t = false ∧ errCode t.err = 0 ∧ t.einfo = 0 ∧
      t.vlen = 0 ∧ (∀ i, hostValue t i = none) ∧ t.blen = 0 ∧ (∀ i, hostByte t i = none) ∧ t.efb = none ∧
      ∀ k, emptySlot t k) ∧
  ∀ s t : State, s.err ≠ .noFault → step s = .next t → t.err = .noFault → ∃ moves, s.port = .reset :: moves

/-- A presented command that faults writes `ERR` and `EINFO` and changes nothing else, and one that does not fault leaves both
alone; the same of every term `exec` is given (R330). -/
def Obligations.FaultsArePrecise : Prop :=
  (∀ (c : CommandWord) (s t : State), s.err = .noFault → runCommand c s = .next t →
    (t.err = .noFault ∧ t.einfo = s.einfo) ∨ (t.err ≠ .noFault ∧ t = faulted s t.err t.einfo)) ∧
  ∀ (i : Instr) (s t : State), exec i s = .next t →
    (t.err = s.err ∧ t.einfo = s.einfo) ∨ (t.err ≠ .noFault ∧ t = faulted s t.err t.einfo)

/-- A well-formed command raises only the faults the table lists for it (R326); `IO` is in no row (R324). -/
def Obligations.CommandsRaiseOnlyTheirFaults : Prop :=
  ∀ (i : Instr) (s t : State), i.wf = true → s.err = .noFault → exec i s = .next t → t.err ≠ .noFault →
    (t.err, t.einfo.toNat) ∈ mayRaise i

/-! ### BitStream -/

/-- `WCLR` empties the Writer; `FLUSH` appends a partial word and starts a fresh one, with no bits pending changes nothing, and
is refused where the word would exceed `WORD_CAP` (R140, R143). That an array of more than `2^58` words counts as exceeding an
infinite `WORD_CAP` too is the model's choice (notes/assumptions/5.md, DESIGN CHOICE). -/
def Obligations.WriterClearsAndFlushes : Prop :=
  ∀ s : State,
    exec .wclr s = .next { s with writer := { words := [], cur := 0, filled := 0 } } ∧
    (s.writer.filled.toNat = 0 → exec .flush s = .next s) ∧
    (0 < s.writer.filled.toNat → fitsWords (s.writer.words.length + 1) = true →
      exec .flush s = .next { s with writer := { words := s.writer.words ++ [s.writer.cur], cur := 0, filled := 0 } }) ∧
    (0 < s.writer.filled.toNat → fitsWords (s.writer.words.length + 1) = false →
      exec .flush s = .refused (.capacity .words))

/-- `PUT` appends the `w` low bits of `val`, least significant first, after the bits already written, and keeps those; `w = 0`
changes nothing; a full word that would exceed `WORD_CAP` is refused, a width above 64 faults (R141). The model's own part: an array of
more than `2^58` words counts as exceeding an infinite `WORD_CAP` too (notes/assumptions/5.md, DESIGN CHOICE), and the width
clause is about a term that no word decodes to (notes/assumptions/13.md, DESIGN CHOICE). -/
def Obligations.PutAppendsTheField : Prop :=
  ∀ (val : Word) (w : BitVec 7) (s : State),
    (64 < w.toNat → exec (.put val w) s = .next (faulted s .illegal 3)) ∧
    (w.toNat = 0 → exec (.put val w) s = .next s) ∧
    (w.toNat ≤ 64 → writerOk s.writer →
      (64 ≤ s.writer.filled.toNat + w.toNat → fitsWords (s.writer.words.length + 1) = true) →
      ∃ wr, exec (.put val w) s = .next { s with writer := wr } ∧ writerOk wr ∧
        writerBits wr = writerBits s.writer + w.toNat ∧ s.writer.words <+: wr.words ∧
        (∀ p, p < writerBits s.writer → writerBit wr p = writerBit s.writer p) ∧
        ∀ k, k < w.toNat → writerBit wr (writerBits s.writer + k) = val.toNat / 2 ^ k % 2) ∧
    (w.toNat ≤ 64 → 1 ≤ w.toNat → 64 ≤ s.writer.filled.toNat + w.toNat →
      fitsWords (s.writer.words.length + 1) = false → exec (.put val w) s = .refused (.capacity .words))

/-- `GET` in its word-level form: the bits joined from two neighbouring words, the cursor advanced; a cursor that would leave
its register and a width above 64 fault (R144). The width clause is about a term that no word decodes to, R144 raising that fault
at decode: it is the model's choice (notes/assumptions/13.md, DESIGN CHOICE). -/
def Obligations.GetReadsTheStream : Prop :=
  ∀ (w : BitVec 7) (s : State),
    (64 < w.toNat → exec (.get w) s = .next (faulted s .illegal 3)) ∧
    (w.toNat ≤ 64 → 2 ^ 64 ≤ s.reader.pos.toNat + w.toNat → exec (.get w) s = .next (faulted s .illegal 6)) ∧
    (w.toNat ≤ 64 → s.reader.pos.toNat + w.toNat < 2 ^ 64 →
      exec (.get w) s = .next
        { s with
          res := BitVec.ofNat 64
            ((((s.reader.words.getD (s.reader.pos.toNat / 64) 0).toNat >>> (s.reader.pos.toNat % 64)) |||
              ((s.reader.words.getD (s.reader.pos.toNat / 64 + 1) 0).toNat <<< (64 - s.reader.pos.toNat % 64)))
              % 2 ^ w.toNat)
          reader := { words := s.reader.words, pos := BitVec.ofNat 64 (s.reader.pos.toNat + w.toNat) } })

/-- A read wholly past the end gives 0 and still advances (R148). -/
def Obligations.ReadingPastTheEndGivesZero : Prop :=
  ∀ (w : BitVec 7) (s : State), w.toNat ≤ 64 → 64 * s.reader.words.length ≤ s.reader.pos.toNat →
    s.reader.pos.toNat + w.toNat < 2 ^ 64 →
    ∃ t, exec (.get w) s = .next t ∧ t.res = 0 ∧ t.reader.pos.toNat = s.reader.pos.toNat + w.toNat

/-- `SCAN` sets the cursor; `RBIND` copies the selected word array and rewinds, faulting where `EFB` is none (R145, R146). The last
clause, `RBIND` with source 3, is about a term that no word decodes to, R146 rejecting it at decode: it is the model's choice
(notes/assumptions/13.md, DESIGN CHOICE). -/
def Obligations.ReaderIsRepositionedAndBound : Prop :=
  ∀ s : State,
    (∀ off, exec (.scan off) s = .next { s with reader := { words := s.reader.words, pos := off } }) ∧
    exec (.rbind 0) s = .next { s with reader := { words := s.writer.words, pos := 0 } } ∧
    (∀ blk, s.efb = some blk →
      exec (.rbind 1) s = .next { s with reader := { words := blk.low, pos := 0 } } ∧
      exec (.rbind 2) s = .next { s with reader := { words := blk.high, pos := 0 } }) ∧
    (s.efb = none →
      exec (.rbind 1) s = .next (faulted s .illegal 5) ∧ exec (.rbind 2) s = .next (faulted s .illegal 5)) ∧
    exec (.rbind 3) s = .next (faulted s .illegal 4)

/-- From `ERR = 0`, fields of any widths from 0 to 64, written to an empty Writer, flushed and bound, are read back in order, each
masked to its width, and the run ends with `ERR = 0` (R147, R331). -/
def Obligations.FieldsRoundTrip : Prop :=
  ∀ (fs : List (Word × BitVec 7)) (s : State), (∀ f ∈ fs, f.2.toNat ≤ 64) →
    s.err = .noFault → s.writer = { words := [], cur := 0, filled := 0 } → totalWidth fs < 2 ^ 64 →
    fitsWords (ceilDiv (totalWidth fs) 64) = true →
    ∀ n f, fs[n]? = some f →
      ∃ t, execAll (writeFields fs ++ (fs.take (n + 1)).map fun g => .get g.2) s = .next t ∧ t.err = .noFault ∧
        t.res.toNat = f.1.toNat % 2 ^ f.2.toNat

/-- From `ERR = 0`, fields of one width `w ≥ 1`: `SCAN k·w; GET w` gives the `k`-th value, and 0 beyond the last, which R149 marks
as derived; the run ends with `ERR = 0` (R149, R331). -/
def Obligations.UniformFieldsAreAddressable : Prop :=
  ∀ (vs : List Word) (w : BitVec 7) (s : State) (k : Nat), 1 ≤ w.toNat → w.toNat ≤ 64 →
    s.err = .noFault → s.writer = { words := [], cur := 0, filled := 0 } → fitsWords (ceilDiv (vs.length * w.toNat) 64) = true →
    (k + 1) * w.toNat < 2 ^ 64 →
    ∃ t, execAll (writeFields (vs.map fun v => (v, w)) ++ [.scan (BitVec.ofNat 64 (k * w.toNat)), .get w]) s = .next t ∧
      t.err = .noFault ∧ t.res.toNat = (vs.getD k 0).toNat % 2 ^ w.toNat

/-! ### Bit utilities -/

/-- `FLOG2`: the index of the highest set bit; `Illegal(6)` at 0 (R174; that `floor_log2` means this is what R170 marks as
derived). -/
def Obligations.FloorLogGivesTheHighestBit : Prop :=
  ∀ (x : Word) (s : State),
    (x = 0 → exec (.flog2 x) s = .next (faulted s .illegal 6)) ∧
    (x ≠ 0 → ∃ k, k ≤ 63 ∧ 2 ^ k ≤ x.toNat ∧ x.toNat < 2 ^ (k + 1) ∧
      exec (.flog2 x) s = .next { s with res := BitVec.ofNat 64 k })

/-- `CDIV`: the least `q` with `q·d ≥ n`; `Illegal(6)` where `d = 0` or the source's sum leaves 64 bits (R175). -/
def Obligations.CeilingDivisionIsExact : Prop :=
  ∀ (n d : Word) (s : State),
    (d = 0 ∨ 2 ^ 64 ≤ n.toNat + d.toNat - 1 → exec (.cdiv n d) s = .next (faulted s .illegal 6)) ∧
    (d ≠ 0 → n.toNat + d.toNat - 1 < 2 ^ 64 →
      ∃ q, q < 2 ^ 64 ∧ n.toNat ≤ q * d.toNat ∧ (∀ p, n.toNat ≤ p * d.toNat → q ≤ p) ∧
        exec (.cdiv n d) s = .next { s with res := BitVec.ofNat 64 q })

/-- `CTZ`: the least set bit; `Illegal(6)` at 0 (R172, R176). -/
def Obligations.TrailingZerosFindTheLeastBit : Prop :=
  ∀ (x : Word) (s : State),
    (x = 0 → exec (.ctz x) s = .next (faulted s .illegal 6)) ∧
    (x ≠ 0 → ∃ k, k ≤ 63 ∧ x.getLsbD k = true ∧ (∀ j, j < k → x.getLsbD j = false) ∧
      exec (.ctz x) s = .next { s with res := BitVec.ofNat 64 k })

/-- `NEXT1`: the smallest set bit of the Reader's array at or after `pos`, with `T = 1`; `2^64 − 1` and `T = 0` where there is
none (R173, R177). -/
def Obligations.NextOneFindsTheFirstBit : Prop :=
  ∀ (pos : Word) (s : State), s.reader.words.length ≤ 2 ^ 58 →
    (∃ p, pos.toNat ≤ p ∧ p < 2 ^ 64 ∧ streamBit s.reader.words p = 1 ∧
      (∀ j, pos.toNat ≤ j → j < p → streamBit s.reader.words j = 0) ∧
      exec (.next1 pos) s = .next { s with res := BitVec.ofNat 64 p, t := true }) ∨
    ((∀ j, pos.toNat ≤ j → streamBit s.reader.words j = 0) ∧
      exec (.next1 pos) s = .next { s with res := BitVec.ofNat 64 (2 ^ 64 - 1), t := false })

/-! ### The block codec -/

/-- `EFENC`: its three tests in their order, then `EFB` is the encoding of the run, or the command is refused where an array of it
would exceed `WORD_CAP` (R190). -/
def Obligations.EncodeCommandChecksThenEncodes : Prop :=
  ∀ s : State,
    (s.vlen.toNat = 0 → exec .efenc s = .next (faulted s .invalidInput 1)) ∧
    (2 ^ 32 ≤ s.vlen.toNat → exec .efenc s = .next (faulted s .invalidInput 3)) ∧
    ∀ vs, holdsRun s vs → 1 ≤ s.vlen.toNat → s.vlen.toNat < 2 ^ 32 →
      (nonDecreasing vs = false → exec .efenc s = .next (faulted s .invalidInput 2)) ∧
      (nonDecreasing vs = true → blockFits (efEncode vs) → exec .efenc s = .next { s with efb := some (efEncode vs) }) ∧
      (nonDecreasing vs = true → ¬ blockFits (efEncode vs) → exec .efenc s = .refused (.capacity .words))

/-- What the encoder writes: the metadata, the dense low fields with zero padding, and exactly the one bits of the high array
(R107, R108). The zero padding is an inference that R107 marks as derived. -/
def Obligations.EncodedBlockMeetsTheFormat : Prop :=
  ∀ vs : List Word, blockRun vs →
    let blk := efEncode vs
    let l := blk.l.toNat
    let range := (vs.getLastD 0).toNat - blk.floor.toNat + 1
    blk.nElem.toNat = vs.length ∧ (∀ v ∈ vs, blk.floor.toNat ≤ v.toNat) ∧ blk.floor ∈ vs ∧ l ≤ 63 ∧
    (1 ≤ range / vs.length → 2 ^ l ≤ range / vs.length ∧ range / vs.length < 2 ^ (l + 1)) ∧
    (range / vs.length = 0 → l = 0) ∧
    blk.highBitsLen.toNat = vs.length + ceilDiv range (2 ^ l) ∧
    blk.lowWords.toNat = lowWordsFor vs.length l ∧ blk.low.length = blk.lowWords.toNat ∧
    blk.highWords.toNat = ceilDiv blk.highBitsLen.toNat 64 ∧ blk.high.length = blk.highWords.toNat ∧
    (∀ j v, vs[j]? = some v → readBits blk.low (j * l) l = (v.toNat - blk.floor.toNat) % 2 ^ l) ∧
    (∀ p, vs.length * l ≤ p → streamBit blk.low p = 0) ∧
    (∀ p, streamBit blk.high p = 1 ↔ ∃ j v, vs[j]? = some v ∧ p = (v.toNat - blk.floor.toNat) / 2 ^ l + j) ∧
    (List.range blk.highBitsLen.toNat).countP (fun p => decide (streamBit blk.high p = 1)) = vs.length

/-- Decoding, looking up and testing an encoded run agree with the run (R219, which the spec marks as derived). -/
def Obligations.BlockLawsHold : Prop :=
  ∀ vs : List Word, blockRun vs →
    efDecode (efEncode vs) = vs ∧ (∀ r, r < vs.length → efAt (efEncode vs) r = vs[r]?) ∧
    ∀ v, efContains (efEncode vs) v = decide (v ∈ vs)

/-- The model's test of validity is the rule's: a block is valid when it is the encoding of some run (R210). -/
def Obligations.ValidBlocksAreTheEncodings : Prop :=
  ∀ blk : EFBlock, isValidBlock blk = true ↔ ∃ vs, blockRun vs ∧ blk = efEncode vs

/-- `EFDEC` writes the run the block was built from and its length; none faults, a capacity exceeded is refused (R212). -/
def Obligations.DecodeCommandRestoresTheRun : Prop :=
  ∀ s : State,
    (s.efb = none → exec .efdec s = .next (faulted s .illegal 5)) ∧
    ∀ vs, holdsBlock s vs →
      (fitsValues vs.length = true →
        exec .efdec s = .next { s with vbuf := cellsFrom 0 vs, vlen := BitVec.ofNat 64 vs.length }) ∧
      (fitsValues vs.length = false → exec .efdec s = .refused (.capacity .values))

/-- `EFAT` gives the `r`-th value of the block's run; a rank past its end and a block register of none fault (R214). -/
def Obligations.RankLookupGivesTheValue : Prop :=
  ∀ (r : Word) (s : State),
    (s.efb = none → exec (.efat r) s = .next (faulted s .illegal 5)) ∧
    ∀ vs, holdsBlock s vs →
      (vs.length ≤ r.toNat → exec (.efat r) s = .next (faulted s .outOfRange 3)) ∧
      ∀ v, vs[r.toNat]? = some v → exec (.efat r) s = .next { s with res := v }

/-- `EFHAS` tells whether the value is one of the block's run; a block register of none faults (R216). -/
def Obligations.BlockMembershipIsExact : Prop :=
  ∀ (v : Word) (s : State),
    (s.efb = none → exec (.efhas v) s = .next (faulted s .illegal 5)) ∧
    ∀ vs, holdsBlock s vs → exec (.efhas v) s = .next { s with t := decide (v ∈ vs) }

/-! ### The container -/

/-- `SQBUILD`: its two tests in their order, then the slot is replaced by the Sequence of the run, or the command is refused
where that exceeds a capacity (R244). That a payload of `2^64` bytes or more counts as exceeding an infinite `BYTE_CAP` too is the
model's choice (notes/assumptions/5.md, DESIGN CHOICE). -/
def Obligations.BuildCommandChecksThenBuilds : Prop :=
  ∀ (k : BitVec 8) (bsz : BitVec 32) (s : State), slotOk k = true →
    (bsz = 0 → exec (.sqbuild k bsz) s = .next (faulted s .invalidInput 4)) ∧
    ∀ vs, bsz ≠ 0 → holdsRun s vs →
      (nonDecreasing vs = false → exec (.sqbuild k bsz) s = .next (faulted s .invalidInput 2)) ∧
      (nonDecreasing vs = true → sequenceFits vs bsz →
        exec (.sqbuild k bsz) s = .next { s with slots := cellsWrite s.slots k.toNat (seqBuild vs bsz) }) ∧
      (nonDecreasing vs = true → ¬ sequenceFits vs bsz → ∃ c, exec (.sqbuild k bsz) s = .refused (.capacity c))

/-- A built Sequence meets the container invariants: the last value of each block, directory, offsets, payload size, block lengths
(R113, R114). -/
def Obligations.BuiltSequenceMeetsTheInvariants : Prop :=
  ∀ (vs : List Word) (bsz : BitVec 32), buildable vs bsz →
    let q := seqBuild vs bsz
    let n := q.nBlocks.toNat
    let size := fun b => 40 + 8 * ((blockAt q b).lowWords.toNat + (blockAt q b).highWords.toNat)
    n = ceilDiv vs.length bsz.toNat ∧ q.blockLast.length = n ∧ q.blockOffset.length = n ∧
    nonDecreasing q.blockLast = true ∧
    (∀ b, b < n → q.blockLast.getD b 0 = (blockOf vs bsz.toNat b).getLastD 0 ∧
      (q.blockLast.getD b 0) ∈ blockOf vs bsz.toNat b ∧
      ∀ v ∈ blockOf vs bsz.toNat b, v.toNat ≤ (q.blockLast.getD b 0).toNat) ∧
    (metadataOf q).payloadOffset.toNat = 40 + 16 * n ∧
    (n = 0 → q.payload = []) ∧ (0 < n → (q.blockOffset.getD 0 0).toNat = 0) ∧
    (∀ b, b + 1 < n → (q.blockOffset.getD (b + 1) 0).toNat = (q.blockOffset.getD b 0).toNat + size b ∧
      (blockAt q b).nElem.toNat = bsz.toNat) ∧
    (0 < n → q.payload.length = (q.blockOffset.getD (n - 1) 0).toNat + size (n - 1) ∧
      (blockAt q (n - 1)).nElem.toNat = (vs.length - 1) % bsz.toNat + 1)

/-- The container laws: whole decode, lookup by index, membership, block decodes and their lengths (R256). -/
def Obligations.ContainerLawsHold : Prop :=
  ∀ (vs : List Word) (bsz : BitVec 32), buildable vs bsz →
    let q := seqBuild vs bsz
    let n := q.nBlocks.toNat
    seqDecode q = vs ∧ (∀ i, i < vs.length → seqGet q i = vs[i]?) ∧ (∀ v, seqContains q v = decide (v ∈ vs)) ∧
    ((List.range n).flatMap fun b => efDecode (blockAt q b)) = seqDecode q ∧
    (∀ b, b + 1 < n → (efDecode (blockAt q b)).length = bsz.toNat) ∧
    (0 < vs.length → (efDecode (blockAt q (n - 1))).length = (vs.length - 1) % bsz.toNat + 1)

/-- The model's test of canonical form is the rule's: a Sequence is canonical when it is the one built from some values (R243;
lengths that a u64 holds, notes/assumptions/5.md). -/
def Obligations.CanonicalSequencesAreTheBuilt : Prop :=
  ∀ q : Sequence, isCanonical q = true ↔ ∃ vs bsz, buildable vs bsz ∧ q = seqBuild vs bsz

/-- `SQLEN`, `SQBSZ`, `SQNBLK` give the number of values, the block size and the number of blocks; an empty slot faults
(R246, R247, R248). -/
def Obligations.ScalarQueriesGiveTheHeader : Prop :=
  ∀ (k : BitVec 8) (s : State), slotOk k = true →
    (emptySlot s k → exec (.sqlen k) s = .next (faulted s .illegal 5) ∧
      exec (.sqbsz k) s = .next (faulted s .illegal 5) ∧ exec (.sqnblk k) s = .next (faulted s .illegal 5)) ∧
    ∀ vs bsz, holdsSequence s k vs bsz →
      exec (.sqlen k) s = .next { s with res := BitVec.ofNat 64 vs.length } ∧
      exec (.sqbsz k) s = .next { s with res := BitVec.ofNat 64 bsz.toNat } ∧
      exec (.sqnblk k) s = .next { s with res := BitVec.ofNat 64 (ceilDiv vs.length bsz.toNat) }

/-- `SQLDB` loads the encoding of block `blk`'s values; a block past the end and an empty slot fault (R249). That a block
which exceeds `WORD_CAP` is refused is R9's: R249 shows no such test (notes/assumptions/15.md, DEDUCED). -/
def Obligations.LoadBlockGivesTheBlock : Prop :=
  ∀ (k : BitVec 8) (blk : Word) (s : State), slotOk k = true →
    (emptySlot s k → exec (.sqldb k blk) s = .next (faulted s .illegal 5)) ∧
    ∀ vs bsz, holdsSequence s k vs bsz →
      (ceilDiv vs.length bsz.toNat ≤ blk.toNat → exec (.sqldb k blk) s = .next (faulted s .outOfRange 2)) ∧
      (blk.toNat < ceilDiv vs.length bsz.toNat → blockFits (efEncode (blockOf vs bsz.toNat blk.toNat)) →
        exec (.sqldb k blk) s = .next { s with efb := some (efEncode (blockOf vs bsz.toNat blk.toNat)) }) ∧
      (blk.toNat < ceilDiv vs.length bsz.toNat → ¬ blockFits (efEncode (blockOf vs bsz.toNat blk.toNat)) →
        exec (.sqldb k blk) s = .refused (.capacity .words))

/-- `SQDEC` writes all values and their number; an empty slot faults, a capacity exceeded is refused (R250). -/
def Obligations.DecodeSequenceRestoresTheValues : Prop :=
  ∀ (k : BitVec 8) (s : State), slotOk k = true →
    (emptySlot s k → exec (.sqdec k) s = .next (faulted s .illegal 5)) ∧
    ∀ vs bsz, holdsSequence s k vs bsz →
      (fitsValues vs.length = true →
        exec (.sqdec k) s = .next { s with vbuf := cellsFrom 0 vs, vlen := BitVec.ofNat 64 vs.length }) ∧
      (fitsValues vs.length = false → exec (.sqdec k) s = .refused (.capacity .values))

/-- `SQDECB` writes block `blk`'s values; a block past the end and an empty slot fault (R251). That values
beyond `VBUF_CAP` are refused is R9's: R251 shows no such test (notes/assumptions/15.md, DEDUCED). -/
def Obligations.DecodeBlockRestoresItsValues : Prop :=
  ∀ (k : BitVec 8) (blk : Word) (s : State), slotOk k = true →
    (emptySlot s k → exec (.sqdecb k blk) s = .next (faulted s .illegal 5)) ∧
    ∀ vs bsz, holdsSequence s k vs bsz →
      (ceilDiv vs.length bsz.toNat ≤ blk.toNat → exec (.sqdecb k blk) s = .next (faulted s .outOfRange 2)) ∧
      (blk.toNat < ceilDiv vs.length bsz.toNat → fitsValues (blockOf vs bsz.toNat blk.toNat).length = true →
        exec (.sqdecb k blk) s = .next
          { s with
            vbuf := cellsFrom 0 (blockOf vs bsz.toNat blk.toNat)
            vlen := BitVec.ofNat 64 (blockOf vs bsz.toNat blk.toNat).length }) ∧
      (blk.toNat < ceilDiv vs.length bsz.toNat → fitsValues (blockOf vs bsz.toNat blk.toNat).length = false →
        exec (.sqdecb k blk) s = .refused (.capacity .values))

/-- `SQGET` gives the `i`-th value; an index past the end and an empty slot fault (R252). -/
def Obligations.IndexLookupGivesTheValue : Prop :=
  ∀ (k : BitVec 8) (i : Word) (s : State), slotOk k = true →
    (emptySlot s k → exec (.sqget k i) s = .next (faulted s .illegal 5)) ∧
    ∀ vs bsz, holdsSequence s k vs bsz →
      (vs.length ≤ i.toNat → exec (.sqget k i) s = .next (faulted s .outOfRange 1)) ∧
      ∀ v, vs[i.toNat]? = some v → exec (.sqget k i) s = .next { s with res := v }

/-- `SQHAS` tells whether the value is among the Sequence's; an empty slot faults (R253). -/
def Obligations.SequenceMembershipIsExact : Prop :=
  ∀ (k : BitVec 8) (v : Word) (s : State), slotOk k = true →
    (emptySlot s k → exec (.sqhas k v) s = .next (faulted s .illegal 5)) ∧
    ∀ vs bsz, holdsSequence s k vs bsz → exec (.sqhas k v) s = .next { s with t := decide (v ∈ vs) }

/-- The binary search finds the smallest block whose last value is at least `v`, or `n_blocks` (R254). -/
def Obligations.SeekFindsTheFirstBlock : Prop :=
  ∀ (q : Sequence) (v : Word), nonDecreasing q.blockLast = true → q.blockLast.length = q.nBlocks.toNat →
    (∀ j, j < seek q v → (q.blockLast.getD j 0).toNat < v.toNat) ∧
    (seek q v = q.nBlocks.toNat ∨ (seek q v < q.nBlocks.toNat ∧ v.toNat ≤ (q.blockLast.getD (seek q v) 0).toNat))

/-! ### Serialization -/

/-- A scalar in a byte array is little-endian: what `MemRead` reads is the sum of the bytes, each 256 times the one before, and what
`Append` stores are the value's base-256 digits (R16). -/
def Obligations.ScalarsAreLittleEndian : Prop :=
  ∀ n : Nat,
    (∀ (bs : List Byte) (addr : Nat), addr + n ≤ bs.length →
      memRead bs addr n = ((List.range n).map fun k => (bs.getD (addr + k) 0).toNat * 2 ^ (8 * k)).sum) ∧
    ∀ v, (leBytes n v).length = n ∧ (∀ k, k < n → ((leBytes n v).getD k 0).toNat = v / 2 ^ (8 * k) % 256) ∧
      (v < 2 ^ (8 * n) → memRead (leBytes n v) 0 n = v)

/-- `SQSER` writes the image, laid out as the format says down to the bytes of each block, and its length; an empty slot faults, a
capacity exceeded is refused (R280, R281; the blocks' bytes R105, R106, R111, R116, R241, R242, the offsets within a block's
metadata being marked derived by R105). That an image of `2^64` bytes or more counts as exceeding an infinite `BYTE_CAP` too is the model's choice
(notes/assumptions/5.md, DESIGN CHOICE). -/
def Obligations.SaveWritesTheImage : Prop :=
  ∀ (k : BitVec 8) (s : State), slotOk k = true →
    (emptySlot s k → exec (.sqser k) s = .next (faulted s .illegal 5)) ∧
    ∀ vs bsz, holdsSequence s k vs bsz →
      let q := seqBuild vs bsz
      let n := q.nBlocks.toNat
      let img := serialize q
      (fitsBytes img.length = true →
          exec (.sqser k) s = .next { s with bytes := cellsFrom 0 img, blen := BitVec.ofNat 64 img.length }) ∧
        (fitsBytes img.length = false → exec (.sqser k) s = .refused (.capacity .bytes)) ∧
        img.take 4 = [0x50, 0x50, 0x45, 0x46] ∧ memRead img 4 4 = 1 ∧ memRead img 8 8 = vs.length ∧
        memRead img 16 4 = bsz.toNat ∧ memRead img 20 4 = 0 ∧ memRead img 24 8 = n ∧ memRead img 32 8 = 40 + 16 * n ∧
        (∀ b, b < n → memRead img (40 + 8 * b) 8 = (q.blockLast.getD b 0).toNat ∧
          memRead img (40 + 8 * n + 8 * b) 8 = (q.blockOffset.getD b 0).toNat) ∧
        img.drop (40 + 16 * n) = q.payload ∧ img.length = 40 + 16 * n + q.payload.length ∧
        ∀ b, b < n → blockLaidOut q.payload (q.blockOffset.getD b 0).toNat (efEncode (blockOf vs bsz.toNat b))

/-- `SQLOAD` of an image that `SQSER` writes from a canonical Sequence fills the slot with that Sequence (R283, R285, R287). -/
def Obligations.LoadRestoresASavedImage : Prop :=
  ∀ (k : BitVec 8) (s : State) (vs : List Word) (bsz : BitVec 32), slotOk k = true → buildable vs bsz →
    holdsImage s (serialize (seqBuild vs bsz)) →
      exec (.sqload k) s = .next { s with slots := cellsWrite s.slots k.toNat (seqBuild vs bsz) }

/-- From `ERR = 0`, saving a canonical slot and loading the image ends with `ERR = 0` and leaves the second slot equal to the first
field for field; and every image that passes the checks is what saving the loaded Sequence gives (R287, which marks this converse
as derived). -/
def Obligations.SaveAndLoadAreInverse : Prop :=
  (∀ (k j : BitVec 8) (s : State) (vs : List Word) (bsz : BitVec 32), slotOk k = true → slotOk j = true →
    s.err = .noFault → holdsSequence s k vs bsz → fitsBytes (serialize (seqBuild vs bsz)).length = true →
      ∃ t, execAll [.sqser k, .sqload j] s = .next t ∧ t.err = .noFault ∧ cellsRead t.slots j.toNat = cellsRead s.slots k.toNat) ∧
  ∀ (img : List Byte) (q : Sequence), loadImage img = .ok q → serialize q = img

/-- `SQLOAD`: the eleven checks in their order, the first that fails being the fault; an image that passes them all fills the
slot with the fields read (R283, R284). -/
def Obligations.LoadRunsTheElevenChecks : Prop :=
  ∀ (k : BitVec 8) (s : State) (img : List Byte), slotOk k = true → holdsImage s img →
    let bad := fun c : Nat => exec (.sqload k) s = .next (faulted s .malformed (BitVec.ofNat 64 c))
    let n := memRead img 24 8
    let payload := img.drop (memRead img 32 8)
    if img.length < 40 then bad 1
    else if img.take 4 ≠ [0x50, 0x50, 0x45, 0x46] then bad 2
    else if memRead img 4 4 ≠ 1 then bad 3
    else if memRead img 16 4 = 0 then bad 4
    else if memRead img 20 4 ≠ 0 then bad 5
    else if n ≠ ceilDiv (memRead img 8 8) (memRead img 16 4) then bad 6
    else if memRead img 32 8 ≠ 40 + 16 * n then bad 7
    else if img.length < memRead img 32 8 then bad 8
    else
      let chain := blockChain payload (imageOffset img n) (memRead img 16 4) (memRead img 8 8) n
      (¬ chain → bad 9) ∧
      (chain →
        (chainOffset payload (imageOffset img n) n ≠ payload.length → bad 10) ∧
        (chainOffset payload (imageOffset img n) n = payload.length →
          (¬ lastsRise img n → bad 11) ∧
          (lastsRise img n →
            exec (.sqload k) s = .next { s with slots := cellsWrite s.slots k.toNat (sequenceOf img) })))

/-! ### Set algebra -/

/-- `SQAND`: the sorted multiset intersection, each value as often as in the input that has it less often, built with the left
operand's block size; empty slots fault, a capacity exceeded is refused (R302, R303). That a payload of `2^64` bytes or more counts
as exceeding an infinite `BYTE_CAP` too is the model's choice (notes/assumptions/5.md, DESIGN CHOICE). -/
def Obligations.IntersectionIsTheMultisetIntersection : Prop :=
  ∀ (d l r : BitVec 8) (s : State), slotOk d = true → slotOk l = true → slotOk r = true →
    (emptySlot s l → exec (.sqand d l r) s = .next (faulted s .illegal 5)) ∧
    ∀ xs bx, holdsSequence s l xs bx →
      (emptySlot s r → exec (.sqand d l r) s = .next (faulted s .illegal 5)) ∧
      ∀ ys bsz, holdsSequence s r ys bsz →
        let out := intersectValues xs ys
        nonDecreasing out = true ∧ (∀ v, out.count v = min (xs.count v) (ys.count v)) ∧
        (sequenceFits out bx →
          exec (.sqand d l r) s = .next { s with slots := cellsWrite s.slots d.toNat (seqBuild out bx) }) ∧
        (¬ sequenceFits out bx → ∃ c, exec (.sqand d l r) s = .refused (.capacity c))

/-- `SQOR`: every value of either input once, rising, built with the left operand's block size; empty slots fault, a capacity
exceeded is refused (R305, R306). That a count or a payload of `2^64` or more counts as exceeding an infinite capacity too is the
model's choice (notes/assumptions/5.md, DESIGN CHOICE). -/
def Obligations.UnionIsTheSetUnion : Prop :=
  ∀ (d l r : BitVec 8) (s : State), slotOk d = true → slotOk l = true → slotOk r = true →
    (emptySlot s l → exec (.sqor d l r) s = .next (faulted s .illegal 5)) ∧
    ∀ xs bx, holdsSequence s l xs bx →
      (emptySlot s r → exec (.sqor d l r) s = .next (faulted s .illegal 5)) ∧
      ∀ ys bsz, holdsSequence s r ys bsz →
        let out := unionValues xs ys
        out.Pairwise (fun u v => u.toNat < v.toNat) ∧ (∀ v, v ∈ out ↔ v ∈ xs ∨ v ∈ ys) ∧
        (sequenceFits out bx →
          exec (.sqor d l r) s = .next { s with slots := cellsWrite s.slots d.toNat (seqBuild out bx) }) ∧
        (¬ sequenceFits out bx → ∃ c, exec (.sqor d l r) s = .refused (.capacity c))

/-- The block-at-a-time schedule with pruning returns the intersection of the decodes (R304; the schedule is a function that no
command calls, notes/assumptions/17.md). -/
def Obligations.BlockScheduleRefinesIntersection : Prop :=
  ∀ (xs ys : List Word) (bx bsz : BitVec 32), buildable xs bx → buildable ys bsz →
    intersectByBlocks (seqBuild xs bx) (seqBuild ys bsz) = intersectValues xs ys

/-! ### Refusals and the host -/

/-- A command that reads a slot whose content is not canonical is refused (R257). -/
def Obligations.NonCanonicalSlotsAreRefused : Prop :=
  ∀ (i : Instr) (s : State) (k : BitVec 8) (q : Sequence), i.wf = true → cellsRead s.slots k.toNat = some q →
    isCanonical q = false →
    ((slotReads i).head? = some k → exec i s = .refused .notCanonical) ∧
    ∀ j p, slotReads i = [j, k] → cellsRead s.slots j.toNat = some p → isCanonical p = true →
      exec i s = .refused .notCanonical

/-- The model's other stops: `EFDEC`, `EFAT` and `EFHAS` on a block that is not valid are refused (R210), and `EFENC`, `SQBUILD` and
`SQLOAD` stop where an entry below the length was never written, which the host must not allow (R337; the form of these stops is
the model's, notes/assumptions/6.md and notes/assumptions/11.md). -/
def Obligations.UnspecifiedInputsStop : Prop :=
  ∀ s : State,
    (∀ blk, s.efb = some blk → isValidBlock blk = false →
      exec .efdec s = .refused .invalidBlock ∧ (∀ r, exec (.efat r) s = .refused .invalidBlock) ∧
      ∀ v, exec (.efhas v) s = .refused .invalidBlock) ∧
    (∀ i, i < s.vlen.toNat → cellsRead s.vbuf i = none →
      (s.vlen.toNat < 2 ^ 32 → exec .efenc s = .fault .unwrittenValue) ∧
      ∀ k bsz, slotOk k = true → bsz ≠ 0 → exec (.sqbuild k bsz) s = .fault .unwrittenValue) ∧
    ∀ i, i < s.blen.toNat → cellsRead s.bytes i = none → ∀ k, slotOk k = true →
      exec (.sqload k) s = .fault .unwrittenByte

/-- What the host reads between commands: the values below `VLEN` and the bytes below `BLEN` and nothing beyond, and the seven header
fields of any slot in use, canonical or not, three of them fixed and one derived; for a built Sequence, their values (R44, R45,
R47, R337; that reads are functions of the state and no steps is notes/assumptions/19.md). -/
def Obligations.HostReadsBuffersAndMetadata : Prop :=
  ∀ s : State,
    (∀ vs, holdsRun s vs → cellsWf s.vbuf = true → ∀ i, hostValue s i = vs[i]?) ∧
    (∀ img, holdsImage s img → cellsWf s.bytes = true → ∀ i, hostByte s i = img[i]?) ∧
    ∀ k : BitVec 8, (emptySlot s k → hostMetadata s k.toNat = none) ∧
      (∀ q, cellsRead s.slots k.toNat = some q → ∃ m, hostMetadata s k.toNat = some m ∧
        m.magic = [0x50, 0x50, 0x45, 0x46] ∧ m.version = 1 ∧ m.nElem = q.nElem ∧ m.blockSize = q.blockSize ∧ m.reserved = 0 ∧
        m.nBlocks = q.nBlocks ∧
        (40 + 16 * q.nBlocks.toNat < 2 ^ 64 → m.payloadOffset.toNat = 40 + 16 * q.nBlocks.toNat)) ∧
      ∀ vs bsz, holdsSequence s k vs bsz → ∃ m, hostMetadata s k.toNat = some m ∧
        m.magic = [0x50, 0x50, 0x45, 0x46] ∧ m.version = 1 ∧ m.nElem.toNat = vs.length ∧ m.blockSize = bsz ∧ m.reserved = 0 ∧
        m.nBlocks.toNat = ceilDiv vs.length bsz.toNat ∧
        m.payloadOffset.toNat = 40 + 16 * ceilDiv vs.length bsz.toNat

/-- The host's writes: between commands, while `ERR = 0`, within the capacities; each changes its own entry or length, one beyond a
capacity is refused, and none happens on a halted core (R337, R9). The model's own part: the moves of the port
(notes/assumptions/1.md, DESIGN CHOICE); one entry a move, also at or above the current length, and the refusals of a write beyond
a capacity or to a halted core (notes/assumptions/8.md, DESIGN CHOICE); counts a u64 cannot hold (notes/assumptions/5.md, DESIGN
CHOICE); and that an entry at or above a length just written is dropped (notes/assumptions/7.md, DEDUCED). -/
def Obligations.HostWritesTheBuffers : Prop :=
  ∀ (s : State) (moves : List PortMove),
    (∀ i v, s.port = .writeValue i v :: moves → s.err = .noFault → fitsValues (i.toNat + 1) = true →
      ∃ m, step s = .next { s with port := moves, vbuf := m } ∧ cellsRead m i.toNat = some v ∧
        ∀ a, a ≠ i.toNat → cellsRead m a = cellsRead s.vbuf a) ∧
    (∀ i x, s.port = .writeByte i x :: moves → s.err = .noFault → fitsBytes (i.toNat + 1) = true →
      ∃ m, step s = .next { s with port := moves, bytes := m } ∧ cellsRead m i.toNat = some x ∧
        ∀ a, a ≠ i.toNat → cellsRead m a = cellsRead s.bytes a) ∧
    (∀ n, s.port = .writeVlen n :: moves → s.err = .noFault → fitsValues n.toNat = true →
      ∃ m, step s = .next { s with port := moves, vlen := n, vbuf := m } ∧
        (∀ a, a < n.toNat → cellsRead m a = cellsRead s.vbuf a) ∧ ∀ a, n.toNat ≤ a → cellsRead m a = none) ∧
    (∀ n, s.port = .writeBlen n :: moves → s.err = .noFault → fitsBytes n.toNat = true →
      ∃ m, step s = .next { s with port := moves, blen := n, bytes := m } ∧
        (∀ a, a < n.toNat → cellsRead m a = cellsRead s.bytes a) ∧ ∀ a, n.toNat ≤ a → cellsRead m a = none) ∧
    (s.err = .noFault →
      (∀ i v, s.port = .writeValue i v :: moves → fitsValues (i.toNat + 1) = false → step s = .refused (.capacity .values)) ∧
      (∀ n, s.port = .writeVlen n :: moves → fitsValues n.toNat = false → step s = .refused (.capacity .values)) ∧
      (∀ i x, s.port = .writeByte i x :: moves → fitsBytes (i.toNat + 1) = false → step s = .refused (.capacity .bytes)) ∧
      ∀ n, s.port = .writeBlen n :: moves → fitsBytes n.toNat = false → step s = .refused (.capacity .bytes)) ∧
    ∀ i v n x, s.err ≠ .noFault →
      s.port = .writeValue i v :: moves ∨ s.port = .writeVlen n :: moves ∨ s.port = .writeByte i x :: moves ∨
        s.port = .writeBlen n :: moves →
      step s = .refused .hostWriteHalted

/-! ### Invariants -/

/-- Every step keeps the memories in canonical form (the model's representation, notes/assumptions/6.md). -/
def Obligations.StepsKeepTheMemoryForm : Prop :=
  ∀ s t : State, memoryForm s → step s = .next t → memoryForm t

/-- Every step keeps `W.cur < 2^W.filled` (R33, an invariant the spec marks as derived; the host's moves are steps of the model,
notes/assumptions/1.md). -/
def Obligations.StepsKeepTheWriterBound : Prop :=
  ∀ s t : State, writerOk s.writer → step s = .next t → writerOk t.writer

/-- Every step keeps the block register none or valid (R210). -/
def Obligations.StepsKeepTheBlockRegisterValid : Prop :=
  ∀ s t : State, blockRegisterOk s → step s = .next t → blockRegisterOk t

/-- Every step keeps every array and length within its capacity and the slots in use below `NSLOT` (R9, R32, R36, R42, R43, R47).
That counts stay within `2^58` words and below `2^64` values or bytes where a capacity is infinite is the model's choice
(notes/assumptions/5.md, DESIGN CHOICE). -/
def Obligations.StepsStayWithinCapacities : Prop :=
  ∀ s t : State, withinCapacities s → step s = .next t → withinCapacities t

/-- Every step keeps the fields of every slot in agreement, loaded slots included: header, directory, the chain of the payload's
blocks and the payload's size (R47, R112, R114, R284). -/
def Obligations.StepsKeepTheSlotsShaped : Prop :=
  ∀ s t : State, slotsShaped s → step s = .next t → slotsShaped t

/-- The reset state meets the invariants (R51). -/
def Obligations.ResetMeetsTheInvariants : Prop :=
  memoryForm State.reset ∧ writerOk State.reset.writer ∧ blockRegisterOk State.reset ∧ withinCapacities State.reset ∧
    slotsShaped State.reset

/-! ### Frames: what each command leaves unchanged -/

/-- A command that does not list the Writer, the Reader's array or the Reader's cursor among its writes leaves it unchanged; one
with no scalar result leaves `RES`, one with no boolean result leaves `T`; no command touches the port, and only a fault writes
`ERR` and `EINFO` (R101, R51, R38 to R41). -/
def Obligations.FrameOfTheRegisters : Prop :=
  ∀ (i : Instr) (s t : State), exec i s = .next t →
    (.writer ∉ writes i → t.writer = s.writer) ∧
    (.readerWords ∉ writes i → t.reader.words = s.reader.words) ∧
    (.readerPos ∉ writes i → t.reader.pos = s.reader.pos) ∧
    (.res ∉ writes i → t.res = s.res) ∧ (.t ∉ writes i → t.t = s.t) ∧ t.port = s.port ∧
    (t.err = s.err ∧ t.einfo = s.einfo ∨ t = faulted s t.err t.einfo)

/-- Every entry of `VBUF`, every byte of `BYTES` and their lengths are unchanged by a command that does not list them among its
writes (R42 to R45, R101). -/
def Obligations.FrameOfTheBuffers : Prop :=
  ∀ (i : Instr) (s t : State), exec i s = .next t →
    (.values ∉ writes i → t.vlen = s.vlen ∧ ∀ a, cellsRead t.vbuf a = cellsRead s.vbuf a) ∧
    (.bytes ∉ writes i → t.blen = s.blen ∧ ∀ a, cellsRead t.bytes a = cellsRead s.bytes a)

/-- The block register and every slot other than the destination are unchanged by a command that does not list them among its
writes (R46 to R48, R101). -/
def Obligations.FrameOfTheBlockAndSlots : Prop :=
  ∀ (i : Instr) (s t : State), exec i s = .next t →
    (.efb ∉ writes i → t.efb = s.efb) ∧
    ∀ k : BitVec 8, .slot k ∉ writes i → cellsRead t.slots k.toNat = cellsRead s.slots k.toNat
end

