-- ==== Sys2Proof/Laws/Cells.lean ====
section
/-! SUPPORT. Indexed cells: read after write, and that every operation keeps the canonical form. -/

namespace Sys2Proof.Machine

variable {α : Type}

@[simp] theorem cellsRead_nil (a : Nat) : cellsRead ([] : Cells α) a = none := rfl

@[simp] theorem cellsRead_write_same (m : Cells α) (a : Nat) (v : α) : cellsRead (cellsWrite m a v) a = some v := by
  induction m with
  | nil => simp [cellsWrite, cellsRead]
  | cons c m ih =>
    obtain ⟨k, x⟩ := c
    by_cases h1 : a < k
    · simp [cellsWrite, h1, cellsRead]
    · by_cases h2 : a = k
      · simp [cellsWrite, h2, cellsRead]
      · simp [cellsWrite, h1, h2, cellsRead, ih]

theorem cellsRead_write_other (m : Cells α) {a b : Nat} (v : α) (h : b ≠ a) :
    cellsRead (cellsWrite m a v) b = cellsRead m b := by
  induction m with
  | nil => simp [cellsWrite, cellsRead, h]
  | cons c m ih =>
    obtain ⟨k, x⟩ := c
    by_cases h1 : a < k
    · simp [cellsWrite, h1, cellsRead, h]
    · by_cases h2 : a = k
      · subst h2
        simp [cellsWrite, cellsRead, h]
      · simp [cellsWrite, h1, h2, cellsRead, ih]

theorem cellsWfFrom_mono (m : Cells α) {lo hi : Nat} (h : lo ≤ hi) (hw : cellsWfFrom hi m = true) :
    cellsWfFrom lo m = true := by
  cases m with
  | nil => rfl
  | cons c m =>
    obtain ⟨k, x⟩ := c
    simp only [cellsWfFrom, Bool.and_eq_true, decide_eq_true_eq] at *
    exact ⟨by omega, hw.2⟩

theorem cellsWfFrom_write (m : Cells α) (lo a : Nat) (v : α) (h : lo ≤ a) (hw : cellsWfFrom lo m = true) :
    cellsWfFrom lo (cellsWrite m a v) = true := by
  induction m generalizing lo with
  | nil => simp [cellsWrite, cellsWfFrom, h]
  | cons c m ih =>
    obtain ⟨k, x⟩ := c
    simp only [cellsWfFrom, Bool.and_eq_true, decide_eq_true_eq] at hw
    by_cases h1 : a < k
    · simp only [cellsWrite, h1, if_true, cellsWfFrom, Bool.and_eq_true, decide_eq_true_eq]
      exact ⟨h, h1, hw.2⟩
    · by_cases h2 : a = k
      · subst h2
        simp only [cellsWrite, h1, if_false, if_true, cellsWfFrom, Bool.and_eq_true, decide_eq_true_eq]
        exact ⟨h, hw.2⟩
      · simp only [cellsWrite, h1, h2, if_false, cellsWfFrom, Bool.and_eq_true, decide_eq_true_eq]
        exact ⟨hw.1, ih (k + 1) (by omega) hw.2⟩

/-- A write keeps the canonical form. -/
theorem cellsWf_write (m : Cells α) (a : Nat) (v : α) (hw : cellsWf m = true) : cellsWf (cellsWrite m a v) = true :=
  cellsWfFrom_write m 0 a v (Nat.zero_le a) hw

theorem cellsWfFrom_below (m : Cells α) (lo n : Nat) (hw : cellsWfFrom lo m = true) :
    cellsWfFrom lo (cellsBelow m n) = true := by
  induction m generalizing lo with
  | nil => rfl
  | cons c m ih =>
    obtain ⟨k, x⟩ := c
    simp only [cellsWfFrom, Bool.and_eq_true, decide_eq_true_eq] at hw
    by_cases h : k < n
    · have hb : cellsBelow ((k, x) :: m) n = (k, x) :: cellsBelow m n := by simp [cellsBelow, h]
      simp only [hb, cellsWfFrom, Bool.and_eq_true, decide_eq_true_eq]
      exact ⟨hw.1, ih (k + 1) hw.2⟩
    · have hb : cellsBelow ((k, x) :: m) n = cellsBelow m n := by simp [cellsBelow, h]
      rw [hb]
      exact cellsWfFrom_mono _ (by omega) (ih (k + 1) hw.2)

/-- Dropping the cells at and above a length keeps the canonical form. -/
theorem cellsWf_below (m : Cells α) (n : Nat) (hw : cellsWf m = true) : cellsWf (cellsBelow m n) = true :=
  cellsWfFrom_below m 0 n hw

theorem cellsWfFrom_from (a : Nat) (vs : List α) : cellsWfFrom a (cellsFrom a vs) = true := by
  induction vs generalizing a with
  | nil => rfl
  | cons v vs ih => simp [cellsFrom, cellsWfFrom, ih]

/-- A buffer stored whole is in canonical form. -/
@[simp] theorem cellsWf_from (a : Nat) (vs : List α) : cellsWf (cellsFrom a vs) = true :=
  cellsWfFrom_mono _ (Nat.zero_le a) (cellsWfFrom_from a vs)

/-- What a buffer stored whole reads as. -/
theorem cellsRead_from (a b : Nat) (vs : List α) :
    cellsRead (cellsFrom a vs) b = if a ≤ b then vs[b - a]? else none := by
  induction vs generalizing a with
  | nil => simp [cellsFrom]
  | cons v vs ih =>
    by_cases h : b = a
    · simp [cellsFrom, cellsRead, h]
    · simp only [cellsFrom, cellsRead, h, if_false, ih]
      by_cases h2 : a ≤ b
      · have h3 : a + 1 ≤ b := by omega
        have h4 : b - a = (b - (a + 1)) + 1 := by omega
        simp [h2, h3, h4]
      · have h3 : ¬ a + 1 ≤ b := by omega
        simp [h2, h3]

@[simp] theorem cellsRead_from_zero (b : Nat) (vs : List α) : cellsRead (cellsFrom 0 vs) b = vs[b]? := by
  simp [cellsRead_from]

/-- A buffer stored whole is read back whole. -/
@[simp] theorem cellsRun_from (a : Nat) (vs : List α) : cellsRun (cellsFrom a vs) a vs.length = some vs := by
  induction vs generalizing a with
  | nil => rfl
  | cons v vs ih => simp [cellsFrom, cellsRun, ih]

theorem cellsRead_of_wfFrom (m : Cells α) {lo a : Nat} (h : a < lo) (hw : cellsWfFrom lo m = true) :
    cellsRead m a = none := by
  induction m generalizing lo with
  | nil => rfl
  | cons c m ih =>
    obtain ⟨k, x⟩ := c
    simp only [cellsWfFrom, Bool.and_eq_true, decide_eq_true_eq] at hw
    have hk : a ≠ k := by omega
    simp [cellsRead, hk, ih (lo := k + 1) (by omega) hw.2]

/-- On canonical cells, a run read whole holds at each place what reading that place gives. -/
theorem cellsRun_spec (m : Cells α) (a n : Nat) (vs : List α) (hw : cellsWfFrom a m = true)
    (h : cellsRun m a n = some vs) : vs.length = n ∧ ∀ j, j < n → cellsRead m (a + j) = vs[j]? := by
  induction n generalizing m a vs with
  | zero =>
    have : vs = [] := by
      cases m <;> simpa [cellsRun] using h.symm
    subst this
    exact ⟨rfl, fun j hj => absurd hj (Nat.not_lt_zero j)⟩
  | succ n ih =>
    cases m with
    | nil => simp [cellsRun] at h
    | cons c m =>
      obtain ⟨k, x⟩ := c
      simp only [cellsWfFrom, Bool.and_eq_true, decide_eq_true_eq] at hw
      by_cases hk : k = a
      · subst hk
        simp only [cellsRun, if_true, Option.map_eq_some_iff] at h
        obtain ⟨ws, hrun, rfl⟩ := h
        obtain ⟨hlen, hread⟩ := ih m (k + 1) ws hw.2 hrun
        refine ⟨by simp [hlen], fun j hj => ?_⟩
        cases j with
        | zero => simp [cellsRead]
        | succ j =>
          have h1 := hread j (by omega)
          have h2 : k + (j + 1) = k + 1 + j := by omega
          have h3 : k + 1 + j ≠ k := by omega
          simp [cellsRead, h2, h3, h1]
      · simp [cellsRun, hk] at h

/-- The reset memory is in canonical form. -/
theorem memory_wf_reset : Memory.wf State.reset.bytes = true := rfl

/-- Every memory operation keeps the canonical form. -/
theorem memory_wf_write (m : Memory) (a : Nat) (x : Byte) (h : Memory.wf m = true) :
    Memory.wf (cellsWrite m a x) = true := cellsWf_write m a x h

theorem memory_wf_below (m : Memory) (n : Nat) (h : Memory.wf m = true) : Memory.wf (cellsBelow m n) = true :=
  cellsWf_below m n h

@[simp] theorem memory_wf_from (a : Nat) (img : List Byte) : Memory.wf (cellsFrom a img) = true := cellsWf_from a img

end Sys2Proof.Machine
end

