-- ==== Sys2Proof/Laws/State.lean ====
section
/-! SUPPORT. One lemma per field per update of State, true by rfl: no later proof unfolds a record update. -/

namespace Sys2Proof.Machine

@[simp] theorem State.setWriter_writer (s : State) (wr : Writer) : (s.setWriter wr).writer = wr := rfl
@[simp] theorem State.setWriter_reader (s : State) (wr : Writer) : (s.setWriter wr).reader = s.reader := rfl
@[simp] theorem State.setWriter_res (s : State) (wr : Writer) : (s.setWriter wr).res = s.res := rfl
@[simp] theorem State.setWriter_t (s : State) (wr : Writer) : (s.setWriter wr).t = s.t := rfl
@[simp] theorem State.setWriter_err (s : State) (wr : Writer) : (s.setWriter wr).err = s.err := rfl
@[simp] theorem State.setWriter_einfo (s : State) (wr : Writer) : (s.setWriter wr).einfo = s.einfo := rfl
@[simp] theorem State.setWriter_vlen (s : State) (wr : Writer) : (s.setWriter wr).vlen = s.vlen := rfl
@[simp] theorem State.setWriter_vbuf (s : State) (wr : Writer) : (s.setWriter wr).vbuf = s.vbuf := rfl
@[simp] theorem State.setWriter_blen (s : State) (wr : Writer) : (s.setWriter wr).blen = s.blen := rfl
@[simp] theorem State.setWriter_bytes (s : State) (wr : Writer) : (s.setWriter wr).bytes = s.bytes := rfl
@[simp] theorem State.setWriter_efb (s : State) (wr : Writer) : (s.setWriter wr).efb = s.efb := rfl
@[simp] theorem State.setWriter_slots (s : State) (wr : Writer) : (s.setWriter wr).slots = s.slots := rfl
@[simp] theorem State.setWriter_port (s : State) (wr : Writer) : (s.setWriter wr).port = s.port := rfl

@[simp] theorem State.setReader_writer (s : State) (rd : Reader) : (s.setReader rd).writer = s.writer := rfl
@[simp] theorem State.setReader_reader (s : State) (rd : Reader) : (s.setReader rd).reader = rd := rfl
@[simp] theorem State.setReader_res (s : State) (rd : Reader) : (s.setReader rd).res = s.res := rfl
@[simp] theorem State.setReader_t (s : State) (rd : Reader) : (s.setReader rd).t = s.t := rfl
@[simp] theorem State.setReader_err (s : State) (rd : Reader) : (s.setReader rd).err = s.err := rfl
@[simp] theorem State.setReader_einfo (s : State) (rd : Reader) : (s.setReader rd).einfo = s.einfo := rfl
@[simp] theorem State.setReader_vlen (s : State) (rd : Reader) : (s.setReader rd).vlen = s.vlen := rfl
@[simp] theorem State.setReader_vbuf (s : State) (rd : Reader) : (s.setReader rd).vbuf = s.vbuf := rfl
@[simp] theorem State.setReader_blen (s : State) (rd : Reader) : (s.setReader rd).blen = s.blen := rfl
@[simp] theorem State.setReader_bytes (s : State) (rd : Reader) : (s.setReader rd).bytes = s.bytes := rfl
@[simp] theorem State.setReader_efb (s : State) (rd : Reader) : (s.setReader rd).efb = s.efb := rfl
@[simp] theorem State.setReader_slots (s : State) (rd : Reader) : (s.setReader rd).slots = s.slots := rfl
@[simp] theorem State.setReader_port (s : State) (rd : Reader) : (s.setReader rd).port = s.port := rfl

@[simp] theorem State.setRes_writer (s : State) (n : Nat) : (s.setRes n).writer = s.writer := rfl
@[simp] theorem State.setRes_reader (s : State) (n : Nat) : (s.setRes n).reader = s.reader := rfl
@[simp] theorem State.setRes_res (s : State) (n : Nat) : (s.setRes n).res = BitVec.ofNat 64 n := rfl
@[simp] theorem State.setRes_t (s : State) (n : Nat) : (s.setRes n).t = s.t := rfl
@[simp] theorem State.setRes_err (s : State) (n : Nat) : (s.setRes n).err = s.err := rfl
@[simp] theorem State.setRes_einfo (s : State) (n : Nat) : (s.setRes n).einfo = s.einfo := rfl
@[simp] theorem State.setRes_vlen (s : State) (n : Nat) : (s.setRes n).vlen = s.vlen := rfl
@[simp] theorem State.setRes_vbuf (s : State) (n : Nat) : (s.setRes n).vbuf = s.vbuf := rfl
@[simp] theorem State.setRes_blen (s : State) (n : Nat) : (s.setRes n).blen = s.blen := rfl
@[simp] theorem State.setRes_bytes (s : State) (n : Nat) : (s.setRes n).bytes = s.bytes := rfl
@[simp] theorem State.setRes_efb (s : State) (n : Nat) : (s.setRes n).efb = s.efb := rfl
@[simp] theorem State.setRes_slots (s : State) (n : Nat) : (s.setRes n).slots = s.slots := rfl
@[simp] theorem State.setRes_port (s : State) (n : Nat) : (s.setRes n).port = s.port := rfl

@[simp] theorem State.setT_writer (s : State) (x : Bool) : (s.setT x).writer = s.writer := rfl
@[simp] theorem State.setT_reader (s : State) (x : Bool) : (s.setT x).reader = s.reader := rfl
@[simp] theorem State.setT_res (s : State) (x : Bool) : (s.setT x).res = s.res := rfl
@[simp] theorem State.setT_t (s : State) (x : Bool) : (s.setT x).t = x := rfl
@[simp] theorem State.setT_err (s : State) (x : Bool) : (s.setT x).err = s.err := rfl
@[simp] theorem State.setT_einfo (s : State) (x : Bool) : (s.setT x).einfo = s.einfo := rfl
@[simp] theorem State.setT_vlen (s : State) (x : Bool) : (s.setT x).vlen = s.vlen := rfl
@[simp] theorem State.setT_vbuf (s : State) (x : Bool) : (s.setT x).vbuf = s.vbuf := rfl
@[simp] theorem State.setT_blen (s : State) (x : Bool) : (s.setT x).blen = s.blen := rfl
@[simp] theorem State.setT_bytes (s : State) (x : Bool) : (s.setT x).bytes = s.bytes := rfl
@[simp] theorem State.setT_efb (s : State) (x : Bool) : (s.setT x).efb = s.efb := rfl
@[simp] theorem State.setT_slots (s : State) (x : Bool) : (s.setT x).slots = s.slots := rfl
@[simp] theorem State.setT_port (s : State) (x : Bool) : (s.setT x).port = s.port := rfl

@[simp] theorem State.setFault_writer (s : State) (kind : ErrKind) (info : Nat) : (s.setFault kind info).writer = s.writer := rfl
@[simp] theorem State.setFault_reader (s : State) (kind : ErrKind) (info : Nat) : (s.setFault kind info).reader = s.reader := rfl
@[simp] theorem State.setFault_res (s : State) (kind : ErrKind) (info : Nat) : (s.setFault kind info).res = s.res := rfl
@[simp] theorem State.setFault_t (s : State) (kind : ErrKind) (info : Nat) : (s.setFault kind info).t = s.t := rfl
@[simp] theorem State.setFault_err (s : State) (kind : ErrKind) (info : Nat) : (s.setFault kind info).err = kind := rfl
@[simp] theorem State.setFault_einfo (s : State) (kind : ErrKind) (info : Nat) : (s.setFault kind info).einfo = BitVec.ofNat 64 info := rfl
@[simp] theorem State.setFault_vlen (s : State) (kind : ErrKind) (info : Nat) : (s.setFault kind info).vlen = s.vlen := rfl
@[simp] theorem State.setFault_vbuf (s : State) (kind : ErrKind) (info : Nat) : (s.setFault kind info).vbuf = s.vbuf := rfl
@[simp] theorem State.setFault_blen (s : State) (kind : ErrKind) (info : Nat) : (s.setFault kind info).blen = s.blen := rfl
@[simp] theorem State.setFault_bytes (s : State) (kind : ErrKind) (info : Nat) : (s.setFault kind info).bytes = s.bytes := rfl
@[simp] theorem State.setFault_efb (s : State) (kind : ErrKind) (info : Nat) : (s.setFault kind info).efb = s.efb := rfl
@[simp] theorem State.setFault_slots (s : State) (kind : ErrKind) (info : Nat) : (s.setFault kind info).slots = s.slots := rfl
@[simp] theorem State.setFault_port (s : State) (kind : ErrKind) (info : Nat) : (s.setFault kind info).port = s.port := rfl

@[simp] theorem State.setEfb_writer (s : State) (blk : EFBlock) : (s.setEfb blk).writer = s.writer := rfl
@[simp] theorem State.setEfb_reader (s : State) (blk : EFBlock) : (s.setEfb blk).reader = s.reader := rfl
@[simp] theorem State.setEfb_res (s : State) (blk : EFBlock) : (s.setEfb blk).res = s.res := rfl
@[simp] theorem State.setEfb_t (s : State) (blk : EFBlock) : (s.setEfb blk).t = s.t := rfl
@[simp] theorem State.setEfb_err (s : State) (blk : EFBlock) : (s.setEfb blk).err = s.err := rfl
@[simp] theorem State.setEfb_einfo (s : State) (blk : EFBlock) : (s.setEfb blk).einfo = s.einfo := rfl
@[simp] theorem State.setEfb_vlen (s : State) (blk : EFBlock) : (s.setEfb blk).vlen = s.vlen := rfl
@[simp] theorem State.setEfb_vbuf (s : State) (blk : EFBlock) : (s.setEfb blk).vbuf = s.vbuf := rfl
@[simp] theorem State.setEfb_blen (s : State) (blk : EFBlock) : (s.setEfb blk).blen = s.blen := rfl
@[simp] theorem State.setEfb_bytes (s : State) (blk : EFBlock) : (s.setEfb blk).bytes = s.bytes := rfl
@[simp] theorem State.setEfb_efb (s : State) (blk : EFBlock) : (s.setEfb blk).efb = some blk := rfl
@[simp] theorem State.setEfb_slots (s : State) (blk : EFBlock) : (s.setEfb blk).slots = s.slots := rfl
@[simp] theorem State.setEfb_port (s : State) (blk : EFBlock) : (s.setEfb blk).port = s.port := rfl

@[simp] theorem State.setValues_writer (s : State) (vs : List Word) : (s.setValues vs).writer = s.writer := rfl
@[simp] theorem State.setValues_reader (s : State) (vs : List Word) : (s.setValues vs).reader = s.reader := rfl
@[simp] theorem State.setValues_res (s : State) (vs : List Word) : (s.setValues vs).res = s.res := rfl
@[simp] theorem State.setValues_t (s : State) (vs : List Word) : (s.setValues vs).t = s.t := rfl
@[simp] theorem State.setValues_err (s : State) (vs : List Word) : (s.setValues vs).err = s.err := rfl
@[simp] theorem State.setValues_einfo (s : State) (vs : List Word) : (s.setValues vs).einfo = s.einfo := rfl
@[simp] theorem State.setValues_vlen (s : State) (vs : List Word) : (s.setValues vs).vlen = BitVec.ofNat 64 vs.length := rfl
@[simp] theorem State.setValues_vbuf (s : State) (vs : List Word) : (s.setValues vs).vbuf = cellsFrom 0 vs := rfl
@[simp] theorem State.setValues_blen (s : State) (vs : List Word) : (s.setValues vs).blen = s.blen := rfl
@[simp] theorem State.setValues_bytes (s : State) (vs : List Word) : (s.setValues vs).bytes = s.bytes := rfl
@[simp] theorem State.setValues_efb (s : State) (vs : List Word) : (s.setValues vs).efb = s.efb := rfl
@[simp] theorem State.setValues_slots (s : State) (vs : List Word) : (s.setValues vs).slots = s.slots := rfl
@[simp] theorem State.setValues_port (s : State) (vs : List Word) : (s.setValues vs).port = s.port := rfl

@[simp] theorem State.setBytes_writer (s : State) (img : List Byte) : (s.setBytes img).writer = s.writer := rfl
@[simp] theorem State.setBytes_reader (s : State) (img : List Byte) : (s.setBytes img).reader = s.reader := rfl
@[simp] theorem State.setBytes_res (s : State) (img : List Byte) : (s.setBytes img).res = s.res := rfl
@[simp] theorem State.setBytes_t (s : State) (img : List Byte) : (s.setBytes img).t = s.t := rfl
@[simp] theorem State.setBytes_err (s : State) (img : List Byte) : (s.setBytes img).err = s.err := rfl
@[simp] theorem State.setBytes_einfo (s : State) (img : List Byte) : (s.setBytes img).einfo = s.einfo := rfl
@[simp] theorem State.setBytes_vlen (s : State) (img : List Byte) : (s.setBytes img).vlen = s.vlen := rfl
@[simp] theorem State.setBytes_vbuf (s : State) (img : List Byte) : (s.setBytes img).vbuf = s.vbuf := rfl
@[simp] theorem State.setBytes_blen (s : State) (img : List Byte) : (s.setBytes img).blen = BitVec.ofNat 64 img.length := rfl
@[simp] theorem State.setBytes_bytes (s : State) (img : List Byte) : (s.setBytes img).bytes = cellsFrom 0 img := rfl
@[simp] theorem State.setBytes_efb (s : State) (img : List Byte) : (s.setBytes img).efb = s.efb := rfl
@[simp] theorem State.setBytes_slots (s : State) (img : List Byte) : (s.setBytes img).slots = s.slots := rfl
@[simp] theorem State.setBytes_port (s : State) (img : List Byte) : (s.setBytes img).port = s.port := rfl

@[simp] theorem State.setSlot_writer (s : State) (k : BitVec 8) (q : Sequence) : (s.setSlot k q).writer = s.writer := rfl
@[simp] theorem State.setSlot_reader (s : State) (k : BitVec 8) (q : Sequence) : (s.setSlot k q).reader = s.reader := rfl
@[simp] theorem State.setSlot_res (s : State) (k : BitVec 8) (q : Sequence) : (s.setSlot k q).res = s.res := rfl
@[simp] theorem State.setSlot_t (s : State) (k : BitVec 8) (q : Sequence) : (s.setSlot k q).t = s.t := rfl
@[simp] theorem State.setSlot_err (s : State) (k : BitVec 8) (q : Sequence) : (s.setSlot k q).err = s.err := rfl
@[simp] theorem State.setSlot_einfo (s : State) (k : BitVec 8) (q : Sequence) : (s.setSlot k q).einfo = s.einfo := rfl
@[simp] theorem State.setSlot_vlen (s : State) (k : BitVec 8) (q : Sequence) : (s.setSlot k q).vlen = s.vlen := rfl
@[simp] theorem State.setSlot_vbuf (s : State) (k : BitVec 8) (q : Sequence) : (s.setSlot k q).vbuf = s.vbuf := rfl
@[simp] theorem State.setSlot_blen (s : State) (k : BitVec 8) (q : Sequence) : (s.setSlot k q).blen = s.blen := rfl
@[simp] theorem State.setSlot_bytes (s : State) (k : BitVec 8) (q : Sequence) : (s.setSlot k q).bytes = s.bytes := rfl
@[simp] theorem State.setSlot_efb (s : State) (k : BitVec 8) (q : Sequence) : (s.setSlot k q).efb = s.efb := rfl
@[simp] theorem State.setSlot_slots (s : State) (k : BitVec 8) (q : Sequence) : (s.setSlot k q).slots = cellsWrite s.slots k.toNat q := rfl
@[simp] theorem State.setSlot_port (s : State) (k : BitVec 8) (q : Sequence) : (s.setSlot k q).port = s.port := rfl

@[simp] theorem State.setPort_writer (s : State) (moves : List PortMove) : (s.setPort moves).writer = s.writer := rfl
@[simp] theorem State.setPort_reader (s : State) (moves : List PortMove) : (s.setPort moves).reader = s.reader := rfl
@[simp] theorem State.setPort_res (s : State) (moves : List PortMove) : (s.setPort moves).res = s.res := rfl
@[simp] theorem State.setPort_t (s : State) (moves : List PortMove) : (s.setPort moves).t = s.t := rfl
@[simp] theorem State.setPort_err (s : State) (moves : List PortMove) : (s.setPort moves).err = s.err := rfl
@[simp] theorem State.setPort_einfo (s : State) (moves : List PortMove) : (s.setPort moves).einfo = s.einfo := rfl
@[simp] theorem State.setPort_vlen (s : State) (moves : List PortMove) : (s.setPort moves).vlen = s.vlen := rfl
@[simp] theorem State.setPort_vbuf (s : State) (moves : List PortMove) : (s.setPort moves).vbuf = s.vbuf := rfl
@[simp] theorem State.setPort_blen (s : State) (moves : List PortMove) : (s.setPort moves).blen = s.blen := rfl
@[simp] theorem State.setPort_bytes (s : State) (moves : List PortMove) : (s.setPort moves).bytes = s.bytes := rfl
@[simp] theorem State.setPort_efb (s : State) (moves : List PortMove) : (s.setPort moves).efb = s.efb := rfl
@[simp] theorem State.setPort_slots (s : State) (moves : List PortMove) : (s.setPort moves).slots = s.slots := rfl
@[simp] theorem State.setPort_port (s : State) (moves : List PortMove) : (s.setPort moves).port = moves := rfl

@[simp] theorem State.setFound_writer (s : State) (found : Option Nat) : (s.setFound found).writer = s.writer := by
  cases found <;> rfl
@[simp] theorem State.setFound_reader (s : State) (found : Option Nat) : (s.setFound found).reader = s.reader := by
  cases found <;> rfl
@[simp] theorem State.setFound_err (s : State) (found : Option Nat) : (s.setFound found).err = s.err := by
  cases found <;> rfl
@[simp] theorem State.setFound_einfo (s : State) (found : Option Nat) : (s.setFound found).einfo = s.einfo := by
  cases found <;> rfl
@[simp] theorem State.setFound_vlen (s : State) (found : Option Nat) : (s.setFound found).vlen = s.vlen := by
  cases found <;> rfl
@[simp] theorem State.setFound_vbuf (s : State) (found : Option Nat) : (s.setFound found).vbuf = s.vbuf := by
  cases found <;> rfl
@[simp] theorem State.setFound_blen (s : State) (found : Option Nat) : (s.setFound found).blen = s.blen := by
  cases found <;> rfl
@[simp] theorem State.setFound_bytes (s : State) (found : Option Nat) : (s.setFound found).bytes = s.bytes := by
  cases found <;> rfl
@[simp] theorem State.setFound_efb (s : State) (found : Option Nat) : (s.setFound found).efb = s.efb := by
  cases found <;> rfl
@[simp] theorem State.setFound_slots (s : State) (found : Option Nat) : (s.setFound found).slots = s.slots := by
  cases found <;> rfl
@[simp] theorem State.setFound_port (s : State) (found : Option Nat) : (s.setFound found).port = s.port := by
  cases found <;> rfl

@[simp] theorem State.setFound_some (s : State) (p : Nat) : s.setFound (some p) = (s.setRes p).setT true := rfl
@[simp] theorem State.setFound_none (s : State) : s.setFound none = (s.setRes (2 ^ 64 - 1)).setT false := rfl

/-- Taking no move from the port and putting it back changes nothing. -/
@[simp] theorem State.setPort_self (s : State) : s.setPort s.port = s := rfl

@[simp] theorem resetCore_port (s : State) : (resetCore s).port = s.port := rfl

end Sys2Proof.Machine
end

