-- ==== Sys2Proof/Laws/Ops.lean ====
section
/-! SUPPORT. One lemma per shared operation: everything it can do when it answers a next state, and when it completes. -/

namespace Sys2Proof.Machine

/-! ### Forms -/

/-- The form check rejects exactly the terms that are not well formed. -/
theorem formReject_eq_none_iff (i : Instr) : formReject i = none ↔ i.wf = true := by
  cases i <;> simp [formReject, Instr.wf, widthOk, slotOk, sourceOk, and_assoc]

theorem formReject_of_wf {i : Instr} (h : i.wf = true) : formReject i = none := (formReject_eq_none_iff i).2 h

@[simp] theorem raise_eq_next (kind : ErrKind) (info : Nat) (s t : State) :
    raise kind info s = .next t ↔ s.setFault kind info = t := by
  simp [raise]

theorem checkForm_of_wf {i : Instr} (h : i.wf = true) (s : State) (go : Out) : checkForm i s go = go := by
  simp [checkForm, formReject_of_wf h]

theorem checkForm_next {i : Instr} {s t : State} {go : Out} (h : checkForm i s go = .next t) :
    (i.wf = true ∧ go = .next t) ∨ ∃ r, formReject i = some r ∧ t = s.setFault .illegal (rejectCause r) := by
  unfold checkForm at h
  split at h
  · rename_i r hr
    exact .inr ⟨r, hr, ((raise_eq_next ..).1 h).symm⟩
  · rename_i hr
    exact .inl ⟨(formReject_eq_none_iff i).1 hr, h⟩

/-! ### Capacities -/

@[simp] theorem require_true (c : Capacity) (go : Out) : require true c go = go := rfl

@[simp] theorem require_false (c : Capacity) (go : Out) : require false c go = .refused (.capacity c) := rfl

theorem require_of {fits : Bool} (h : fits = true) (c : Capacity) (go : Out) : require fits c go = go := by
  simp [h]

theorem require_next {fits : Bool} {c : Capacity} {go : Out} {t : State} (h : require fits c go = .next t) :
    fits = true ∧ go = .next t := by
  cases fits
  · simp at h
  · exact ⟨rfl, h⟩

theorem capFits_mono {cap : Option Nat} {m n : Nat} (h : m ≤ n) (hn : capFits cap n = true) : capFits cap m = true := by
  cases cap with
  | none => simp [capFits]
  | some c =>
    simp only [capFits, Bool.or_eq_true, decide_eq_true_eq] at *
    omega

theorem fitsWords_mono {m n : Nat} (h : m ≤ n) (hn : fitsWords n = true) : fitsWords m = true := by
  simp only [fitsWords, Bool.and_eq_true, decide_eq_true_eq] at *
  exact ⟨by omega, capFits_mono h hn.2⟩

theorem fitsValues_mono {m n : Nat} (h : m ≤ n) (hn : fitsValues n = true) : fitsValues m = true := by
  simp only [fitsValues, Bool.and_eq_true, decide_eq_true_eq] at *
  exact ⟨by omega, capFits_mono h hn.2⟩

theorem fitsBytes_mono {m n : Nat} (h : m ≤ n) (hn : fitsBytes n = true) : fitsBytes m = true := by
  simp only [fitsBytes, Bool.and_eq_true, decide_eq_true_eq] at *
  exact ⟨by omega, capFits_mono h hn.2⟩

/-! ### Operand forms -/

theorem needSlot_of {k : BitVec 8} {s : State} {q : Sequence} (h : cellsRead s.slots k.toNat = some q)
    (hq : isCanonical q = true) (use : Sequence → Out) : needSlot k s use = use q := by
  simp [needSlot, h, hq]

theorem needSlot_next {k : BitVec 8} {s t : State} {use : Sequence → Out} (h : needSlot k s use = .next t) :
    (cellsRead s.slots k.toNat = none ∧ t = s.setFault .illegal 5) ∨
      ∃ q, cellsRead s.slots k.toNat = some q ∧ isCanonical q = true ∧ use q = .next t := by
  unfold needSlot at h
  split at h
  · exact .inl ⟨‹_›, ((raise_eq_next ..).1 h).symm⟩
  · split at h
    · exact .inr ⟨_, ‹_›, ‹_›, h⟩
    · simp at h

theorem needBlock_of {s : State} {blk : EFBlock} (h : s.efb = some blk) (hb : isValidBlock blk = true)
    (use : EFBlock → Out) : needBlock s use = use blk := by
  simp [needBlock, h, hb]

theorem needBlock_next {s t : State} {use : EFBlock → Out} (h : needBlock s use = .next t) :
    (s.efb = none ∧ t = s.setFault .illegal 5) ∨
      ∃ blk, s.efb = some blk ∧ isValidBlock blk = true ∧ use blk = .next t := by
  unfold needBlock at h
  split at h
  · exact .inl ⟨‹_›, ((raise_eq_next ..).1 h).symm⟩
  · split at h
    · exact .inr ⟨_, ‹_›, ‹_›, h⟩
    · simp at h

theorem needRun_of {s : State} {vs : List Word} (h : cellsRun s.vbuf 0 s.vlen.toNat = some vs)
    (use : List Word → Out) : needRun s use = use vs := by
  simp [needRun, h]

theorem needRun_next {s t : State} {use : List Word → Out} (h : needRun s use = .next t) :
    ∃ vs, cellsRun s.vbuf 0 s.vlen.toNat = some vs ∧ use vs = .next t := by
  unfold needRun at h
  split at h
  · simp at h
  · exact ⟨_, ‹_›, h⟩

theorem needImage_of {s : State} {img : List Byte} (h : cellsRun s.bytes 0 s.blen.toNat = some img)
    (use : List Byte → Out) : needImage s use = use img := by
  simp only [needImage, h]

theorem needImage_next {s t : State} {use : List Byte → Out} (h : needImage s use = .next t) :
    ∃ img, cellsRun s.bytes 0 s.blen.toNat = some img ∧ use img = .next t := by
  unfold needImage at h
  split at h
  · simp at h
  · exact ⟨_, ‹_›, h⟩

theorem needSource_next {src : BitVec 2} {s t : State} {use : List Word → Out} (h : needSource src s use = .next t) :
    (src.toNat = 0 ∧ use s.writer.words = .next t) ∨
    (src.toNat ≠ 0 ∧ s.efb = none ∧ t = s.setFault .illegal 5) ∨
      ∃ blk, src.toNat ≠ 0 ∧ s.efb = some blk ∧ use (if src.toNat = 1 then blk.low else blk.high) = .next t := by
  unfold needSource at h
  split at h
  · exact .inl ⟨‹_›, h⟩
  · split at h
    · exact .inr (.inl ⟨‹_›, ‹_›, ((raise_eq_next ..).1 h).symm⟩)
    · exact .inr (.inr ⟨_, ‹_›, ‹_›, h⟩)

/-! ### Stores -/

theorem storeSequence_next {k : BitVec 8} {vs : List Word} {bsz : BitVec 32} {s t : State}
    (h : storeSequence k vs bsz s = .next t) :
    vs.length < 2 ^ 64 ∧ fitsBytes (seqBuild vs bsz).payload.length = true ∧
      blocksFit (seqBlocks vs bsz.toNat) = true ∧ t = s.setSlot k (seqBuild vs bsz) := by
  obtain ⟨h1, h⟩ := require_next h
  obtain ⟨h2, h⟩ := require_next h
  simp only [Bool.and_eq_true, decide_eq_true_eq] at h1
  simp only [Host.Outcome.next.injEq] at h
  exact ⟨h1.1, h1.2, h2, h.symm⟩

theorem storeSequence_of {vs : List Word} {bsz : BitVec 32} (hn : vs.length < 2 ^ 64)
    (hp : fitsBytes (seqBuild vs bsz).payload.length = true) (hb : blocksFit (seqBlocks vs bsz.toNat) = true)
    (k : BitVec 8) (s : State) : storeSequence k vs bsz s = .next (s.setSlot k (seqBuild vs bsz)) := by
  simp only [storeSequence, hp, hb, hn, decide_true, Bool.and_true, require_true]

theorem storeValues_next {vs : List Word} {s t : State} (h : storeValues vs s = .next t) :
    fitsValues vs.length = true ∧ t = s.setValues vs := by
  obtain ⟨h1, h⟩ := require_next h
  simp only [Host.Outcome.next.injEq] at h
  exact ⟨h1, h.symm⟩

theorem storeValues_of {vs : List Word} (h : fitsValues vs.length = true) (s : State) :
    storeValues vs s = .next (s.setValues vs) := require_of h _ _

theorem storeBlock_next {blk : EFBlock} {s t : State} (h : storeBlock blk s = .next t) :
    fitsWords blk.low.length = true ∧ fitsWords blk.high.length = true ∧ t = s.setEfb blk := by
  obtain ⟨h1, h⟩ := require_next h
  simp only [Bool.and_eq_true] at h1
  simp only [Host.Outcome.next.injEq] at h
  exact ⟨h1.1, h1.2, h.symm⟩

theorem storeBlock_of {blk : EFBlock} (h1 : fitsWords blk.low.length = true) (h2 : fitsWords blk.high.length = true)
    (s : State) : storeBlock blk s = .next (s.setEfb blk) := by
  simp [storeBlock, h1, h2]

end Sys2Proof.Machine
end

