-- ==== Sys2Proof/Laws/Encoding.lean ====
section
/-! SUPPORT. The fields of a command word (spec/30_encoding.md R100, R130): taking apart what `commandWord` put together, and
the other way round. -/

namespace Sys2Proof

/-- The bits of a command word: `op` below, then `a`, then `b`. -/
theorem commandWord_getLsbD (op : BitVec 8) (a b : Word) (i : Nat) :
    (commandWord op a b).getLsbD i =
      if i < 8 then op.getLsbD i else if i - 8 < 64 then a.getLsbD (i - 8) else b.getLsbD (i - 8 - 64) := by
  change (((b ++ a) ++ op : BitVec (64 + 64 + 8))).getLsbD i = _
  rw [BitVec.getLsbD_append, BitVec.getLsbD_append]

@[simp] theorem opField_commandWord (op : BitVec 8) (a b : Word) : opField (commandWord op a b) = op := by
  apply BitVec.eq_of_getLsbD_eq
  intro i hi
  simp only [opField, BitVec.getLsbD_extractLsb', commandWord_getLsbD, Nat.zero_add, hi, decide_true, Bool.true_and,
    if_true]

@[simp] theorem aField_commandWord (op : BitVec 8) (a b : Word) : aField (commandWord op a b) = a := by
  apply BitVec.eq_of_getLsbD_eq
  intro i hi
  have h1 : ¬ 8 + i < 8 := by omega
  have h2 : 8 + i - 8 = i := by omega
  simp only [aField, BitVec.getLsbD_extractLsb', commandWord_getLsbD, h1, h2, hi, decide_true, Bool.true_and, if_true,
    if_false]

@[simp] theorem bField_commandWord (op : BitVec 8) (a b : Word) : bField (commandWord op a b) = b := by
  apply BitVec.eq_of_getLsbD_eq
  intro i hi
  have h1 : ¬ 72 + i < 8 := by omega
  have h2 : ¬ 72 + i - 8 < 64 := by omega
  have h3 : 72 + i - 8 - 64 = i := by omega
  simp only [bField, BitVec.getLsbD_extractLsb', commandWord_getLsbD, h1, h2, h3, hi, decide_true, Bool.true_and,
    if_false]

/-- A command word is its three fields. -/
theorem commandWord_fields (c : CommandWord) : commandWord (opField c) (aField c) (bField c) = c := by
  apply BitVec.eq_of_getLsbD_eq
  intro i hi
  rw [commandWord_getLsbD]
  by_cases h1 : i < 8
  · simp [opField, h1]
  · by_cases h2 : i - 8 < 64
    · have h3 : 8 + (i - 8) = i := by omega
      simp only [aField, BitVec.getLsbD_extractLsb', h1, h2, h3, decide_true, Bool.true_and, if_true, if_false]
    · have h3 : 72 + (i - 8 - 64) = i := by omega
      have h4 : i - 8 - 64 < 64 := by omega
      simp only [bField, BitVec.getLsbD_extractLsb', h1, h2, h3, h4, decide_true, Bool.true_and, if_false]

theorem decode_commandWord (op : BitVec 8) (a b : Word) : decode (commandWord op a b) = decodeFields op a b := by
  simp [decode]

/-- A row whose reserved bits are 0 and whose operands are admitted decodes to its command. -/
theorem decodeRow_of {reserved : Bool} {i : Instr} (hz : reserved = true) (hw : i.wf = true) :
    decodeRow reserved i = .ok i := by
  simp [decodeRow, hz, Machine.formReject_of_wf hw]

/-- A row that decodes had its reserved bits 0 and admitted operands. -/
theorem decodeRow_ok {reserved : Bool} {i j : Instr} (h : decodeRow reserved i = .ok j) :
    reserved = true ∧ i = j ∧ j.wf = true := by
  unfold decodeRow at h
  split at h
  · split at h
    · simp at h
    · rename_i hn
      simp only [Except.ok.injEq] at h
      subst h
      exact ⟨‹_›, rfl, (Machine.formReject_eq_none_iff i).1 hn⟩
  · simp at h

@[simp] theorem zeroFrom_zero_iff (x : Word) : zeroFrom 0 x = true ↔ x = 0 := by
  simp [zeroFrom]

end Sys2Proof
end

