-- ==== Sys2Proof/Laws/Exec.lean ====
section
/-! SUPPORT. Once and for all: what a command, and a step, can do when it answers a next state. Every invariant and every frame
follows from `exec_next` and `step_next` without unfolding a meaning. -/

namespace Sys2Proof.Machine

/-- What each command does when it neither faults nor stops. -/
def Effect (s t : State) : Instr → Prop
  | .wclr => t = s.setWriter emptyWriter
  | .put val w =>
    (putAppends s.writer w.toNat = true → fitsWords (s.writer.words.length + 1) = true) ∧
      t = s.setWriter (writerPut s.writer val.toNat w.toNat)
  | .flush =>
    (s.writer.filled.toNat ≠ 0 → fitsWords (s.writer.words.length + 1) = true) ∧
      t = s.setWriter (writerFlush s.writer)
  | .rbind src =>
    (src.toNat = 0 ∧ t = s.setReader { words := s.writer.words, pos := 0 }) ∨
      ∃ blk, s.efb = some blk ∧ src.toNat ≠ 0 ∧
        t = s.setReader { words := if src.toNat = 1 then blk.low else blk.high, pos := 0 }
  | .get w =>
    s.reader.pos.toNat + w.toNat < 2 ^ 64 ∧
      t = (s.setRes (readBits s.reader.words s.reader.pos.toNat w.toNat)).setReader
        { words := s.reader.words, pos := BitVec.ofNat 64 (s.reader.pos.toNat + w.toNat) }
  | .scan off => t = s.setReader { words := s.reader.words, pos := off }
  | .flog2 x => ∃ k, floorLog2 x.toNat = some k ∧ t = s.setRes k
  | .cdiv n d => d.toNat ≠ 0 ∧ n.toNat + d.toNat - 1 < 2 ^ 64 ∧ t = s.setRes (ceilDiv n.toNat d.toNat)
  | .ctz x => ∃ k, ctz x = some k ∧ t = s.setRes k
  | .next1 pos => t = s.setFound (nextOne s.reader.words pos.toNat)
  | .efenc =>
    ∃ vs, cellsRun s.vbuf 0 s.vlen.toNat = some vs ∧ nonDecreasing vs = true ∧ s.vlen.toNat ≠ 0 ∧
      s.vlen.toNat < 2 ^ 32 ∧ fitsWords (efEncode vs).low.length = true ∧ fitsWords (efEncode vs).high.length = true ∧
      t = s.setEfb (efEncode vs)
  | .efdec =>
    ∃ blk, s.efb = some blk ∧ isValidBlock blk = true ∧ fitsValues (efDecode blk).length = true ∧
      t = s.setValues (efDecode blk)
  | .efat r =>
    ∃ blk v, s.efb = some blk ∧ isValidBlock blk = true ∧ r.toNat < blk.nElem.toNat ∧ efAt blk r.toNat = some v ∧
      t = s.setRes v.toNat
  | .efhas v => ∃ blk, s.efb = some blk ∧ isValidBlock blk = true ∧ t = s.setT (efContains blk v)
  | .sqbuild k bsz =>
    ∃ vs, cellsRun s.vbuf 0 s.vlen.toNat = some vs ∧ nonDecreasing vs = true ∧ bsz.toNat ≠ 0 ∧
      storeSequence k vs bsz s = .next t
  | .sqlen k =>
    ∃ q, cellsRead s.slots k.toNat = some q ∧ isCanonical q = true ∧ t = s.setRes q.nElem.toNat
  | .sqbsz k =>
    ∃ q, cellsRead s.slots k.toNat = some q ∧ isCanonical q = true ∧ t = s.setRes q.blockSize.toNat
  | .sqnblk k =>
    ∃ q, cellsRead s.slots k.toNat = some q ∧ isCanonical q = true ∧ t = s.setRes q.nBlocks.toNat
  | .sqdec k =>
    ∃ q, cellsRead s.slots k.toNat = some q ∧ isCanonical q = true ∧ storeValues (seqDecode q) s = .next t
  | .sqdecb k blk =>
    ∃ q, cellsRead s.slots k.toNat = some q ∧ isCanonical q = true ∧ blk.toNat < q.nBlocks.toNat ∧
      storeValues (efDecode (blockAt q blk.toNat)) s = .next t
  | .sqget k i =>
    ∃ q v, cellsRead s.slots k.toNat = some q ∧ isCanonical q = true ∧ i.toNat < q.nElem.toNat ∧
      seqGet q i.toNat = some v ∧ t = s.setRes v.toNat
  | .sqhas k v =>
    ∃ q, cellsRead s.slots k.toNat = some q ∧ isCanonical q = true ∧ t = s.setT (seqContains q v)
  | .sqldb k blk =>
    ∃ q, cellsRead s.slots k.toNat = some q ∧ isCanonical q = true ∧ blk.toNat < q.nBlocks.toNat ∧
      storeBlock (blockAt q blk.toNat) s = .next t
  | .sqser k =>
    ∃ q, cellsRead s.slots k.toNat = some q ∧ isCanonical q = true ∧ fitsBytes (serialize q).length = true ∧
      t = s.setBytes (serialize q)
  | .sqload k =>
    ∃ img q, cellsRun s.bytes 0 s.blen.toNat = some img ∧ loadImage img = .ok q ∧ t = s.setSlot k q
  | .sqand d l r =>
    ∃ p q, cellsRead s.slots l.toNat = some p ∧ isCanonical p = true ∧ cellsRead s.slots r.toNat = some q ∧
      isCanonical q = true ∧ storeSequence d (intersectValues (seqDecode p) (seqDecode q)) p.blockSize s = .next t
  | .sqor d l r =>
    ∃ p q, cellsRead s.slots l.toNat = some p ∧ isCanonical p = true ∧ cellsRead s.slots r.toNat = some q ∧
      isCanonical q = true ∧ storeSequence d (unionValues (seqDecode p) (seqDecode q)) p.blockSize s = .next t

/-- The state a fault leaves (R330). -/
def Faulted (s t : State) : Prop := ∃ kind info, kind ≠ .noFault ∧ t = s.setFault kind info

theorem faulted_of_raise {kind : ErrKind} {info : Nat} {s t : State} (hk : kind ≠ .noFault)
    (h : raise kind info s = .next t) : Faulted s t := ⟨kind, info, hk, ((raise_eq_next ..).1 h).symm⟩

theorem checkForm_cases {i : Instr} {s t : State} {go : Out} (h : checkForm i s go = .next t) :
    (i.wf = true ∧ go = .next t) ∨ Faulted s t := by
  obtain h | ⟨r, -, rfl⟩ := checkForm_next h
  · exact .inl h
  · exact .inr ⟨_, _, by simp, rfl⟩

theorem needSlot_cases {k : BitVec 8} {s t : State} {use : Sequence → Out} (h : needSlot k s use = .next t) :
    Faulted s t ∨ ∃ q, cellsRead s.slots k.toNat = some q ∧ isCanonical q = true ∧ use q = .next t := by
  obtain ⟨-, rfl⟩ | h := needSlot_next h
  · exact .inl ⟨_, _, by simp, rfl⟩
  · exact .inr h

theorem needBlock_cases {s t : State} {use : EFBlock → Out} (h : needBlock s use = .next t) :
    Faulted s t ∨ ∃ blk, s.efb = some blk ∧ isValidBlock blk = true ∧ use blk = .next t := by
  obtain ⟨-, rfl⟩ | h := needBlock_next h
  · exact .inl ⟨_, _, by simp, rfl⟩
  · exact .inr h

theorem execWclr_next {s t : State} (h : execWclr s = .next t) : Faulted s t ∨ Effect s t .wclr := by
  simp only [execWclr, Host.Outcome.next.injEq] at h
  exact .inr h.symm

theorem execPut_next {val : Word} {w : BitVec 7} {s t : State} (h : execPut val w s = .next t) :
    Faulted s t ∨ Effect s t (.put val w) := by
  obtain ⟨-, h⟩ | h := checkForm_cases h
  · obtain ⟨hf, h⟩ := require_next h
    simp only [Host.Outcome.next.injEq] at h
    refine .inr ⟨fun hp => ?_, h.symm⟩
    simpa [hp] using hf
  · exact .inl h

theorem execFlush_next {s t : State} (h : execFlush s = .next t) : Faulted s t ∨ Effect s t .flush := by
  obtain ⟨hf, h⟩ := require_next h
  simp only [Host.Outcome.next.injEq] at h
  refine .inr ⟨fun hp => ?_, h.symm⟩
  simp only [Bool.or_eq_true, decide_eq_true_eq] at hf
  exact hf.resolve_left hp

theorem execRbind_next {src : BitVec 2} {s t : State} (h : execRbind src s = .next t) :
    Faulted s t ∨ Effect s t (.rbind src) := by
  obtain ⟨-, h⟩ | h := checkForm_cases h
  · obtain ⟨h0, h⟩ | ⟨-, -, rfl⟩ | ⟨blk, h0, hb, h⟩ := needSource_next h
    · simp only [Host.Outcome.next.injEq] at h
      exact .inr (.inl ⟨h0, h.symm⟩)
    · exact .inl ⟨_, _, by simp, rfl⟩
    · simp only [Host.Outcome.next.injEq] at h
      exact .inr (.inr ⟨blk, hb, h0, h.symm⟩)
  · exact .inl h

theorem execGet_next {w : BitVec 7} {s t : State} (h : execGet w s = .next t) :
    Faulted s t ∨ Effect s t (.get w) := by
  obtain ⟨-, h⟩ | h := checkForm_cases h
  · split at h
    · exact .inl (faulted_of_raise (by simp) h)
    · rename_i hp
      simp only [Host.Outcome.next.injEq] at h
      exact .inr ⟨by omega, h.symm⟩
  · exact .inl h

theorem execScan_next {off : Word} {s t : State} (h : execScan off s = .next t) :
    Faulted s t ∨ Effect s t (.scan off) := by
  simp only [execScan, Host.Outcome.next.injEq] at h
  exact .inr h.symm

theorem execFlog2_next {x : Word} {s t : State} (h : execFlog2 x s = .next t) :
    Faulted s t ∨ Effect s t (.flog2 x) := by
  unfold execFlog2 at h
  split at h
  · exact .inl (faulted_of_raise (by simp) h)
  · simp only [Host.Outcome.next.injEq] at h
    exact .inr ⟨_, ‹_›, h.symm⟩

theorem execCdiv_next {n d : Word} {s t : State} (h : execCdiv n d s = .next t) :
    Faulted s t ∨ Effect s t (.cdiv n d) := by
  unfold execCdiv at h
  split at h
  · exact .inl (faulted_of_raise (by simp) h)
  · split at h
    · exact .inl (faulted_of_raise (by simp) h)
    · rename_i h1 h2
      simp only [Host.Outcome.next.injEq] at h
      exact .inr ⟨h1, Nat.lt_of_not_le h2, h.symm⟩

theorem execCtz_next {x : Word} {s t : State} (h : execCtz x s = .next t) : Faulted s t ∨ Effect s t (.ctz x) := by
  unfold execCtz at h
  split at h
  · exact .inl (faulted_of_raise (by simp) h)
  · simp only [Host.Outcome.next.injEq] at h
    exact .inr ⟨_, ‹_›, h.symm⟩

theorem execNext1_next {pos : Word} {s t : State} (h : execNext1 pos s = .next t) :
    Faulted s t ∨ Effect s t (.next1 pos) := by
  simp only [execNext1, Host.Outcome.next.injEq] at h
  exact .inr h.symm

theorem execEfenc_next {s t : State} (h : execEfenc s = .next t) : Faulted s t ∨ Effect s t .efenc := by
  unfold execEfenc at h
  split at h
  · exact .inl (faulted_of_raise (by simp) h)
  · split at h
    · exact .inl (faulted_of_raise (by simp) h)
    · rename_i h1 h2
      obtain ⟨vs, hr, h⟩ := needRun_next h
      split at h
      · obtain ⟨hl, hh, rfl⟩ := storeBlock_next h
        exact .inr ⟨vs, hr, ‹_›, h1, by omega, hl, hh, rfl⟩
      · exact .inl (faulted_of_raise (by simp) h)

theorem execEfdec_next {s t : State} (h : execEfdec s = .next t) : Faulted s t ∨ Effect s t .efdec := by
  obtain h | ⟨blk, hb, hv, h⟩ := needBlock_cases h
  · exact .inl h
  · obtain ⟨hf, rfl⟩ := storeValues_next h
    exact .inr ⟨blk, hb, hv, hf, rfl⟩

theorem execEfat_next {r : Word} {s t : State} (h : execEfat r s = .next t) : Faulted s t ∨ Effect s t (.efat r) := by
  obtain h | ⟨blk, hb, hv, h⟩ := needBlock_cases h
  · exact .inl h
  · split at h
    · exact .inl (faulted_of_raise (by simp) h)
    · rename_i hr
      split at h
      · simp only [Host.Outcome.next.injEq] at h
        exact .inr ⟨blk, _, hb, hv, by omega, ‹_›, h.symm⟩
      · simp at h

theorem execEfhas_next {v : Word} {s t : State} (h : execEfhas v s = .next t) :
    Faulted s t ∨ Effect s t (.efhas v) := by
  obtain h | ⟨blk, hb, hv, h⟩ := needBlock_cases h
  · exact .inl h
  · simp only [Host.Outcome.next.injEq] at h
    exact .inr ⟨blk, hb, hv, h.symm⟩

theorem execSqbuild_next {k : BitVec 8} {bsz : BitVec 32} {s t : State} (h : execSqbuild k bsz s = .next t) :
    Faulted s t ∨ Effect s t (.sqbuild k bsz) := by
  obtain ⟨-, h⟩ | h := checkForm_cases h
  · split at h
    · exact .inl (faulted_of_raise (by simp) h)
    · rename_i h1
      obtain ⟨vs, hr, h⟩ := needRun_next h
      split at h
      · exact .inr ⟨vs, hr, ‹_›, h1, h⟩
      · exact .inl (faulted_of_raise (by simp) h)
  · exact .inl h

theorem execSqlen_next {k : BitVec 8} {s t : State} (h : execSqlen k s = .next t) :
    Faulted s t ∨ Effect s t (.sqlen k) := by
  obtain ⟨-, h⟩ | h := checkForm_cases h
  · obtain h | ⟨q, hq, hc, h⟩ := needSlot_cases h
    · exact .inl h
    · simp only [Host.Outcome.next.injEq] at h
      exact .inr ⟨q, hq, hc, h.symm⟩
  · exact .inl h

theorem execSqbsz_next {k : BitVec 8} {s t : State} (h : execSqbsz k s = .next t) :
    Faulted s t ∨ Effect s t (.sqbsz k) := by
  obtain ⟨-, h⟩ | h := checkForm_cases h
  · obtain h | ⟨q, hq, hc, h⟩ := needSlot_cases h
    · exact .inl h
    · simp only [Host.Outcome.next.injEq] at h
      exact .inr ⟨q, hq, hc, h.symm⟩
  · exact .inl h

theorem execSqnblk_next {k : BitVec 8} {s t : State} (h : execSqnblk k s = .next t) :
    Faulted s t ∨ Effect s t (.sqnblk k) := by
  obtain ⟨-, h⟩ | h := checkForm_cases h
  · obtain h | ⟨q, hq, hc, h⟩ := needSlot_cases h
    · exact .inl h
    · simp only [Host.Outcome.next.injEq] at h
      exact .inr ⟨q, hq, hc, h.symm⟩
  · exact .inl h

theorem execSqdec_next {k : BitVec 8} {s t : State} (h : execSqdec k s = .next t) :
    Faulted s t ∨ Effect s t (.sqdec k) := by
  obtain ⟨-, h⟩ | h := checkForm_cases h
  · obtain h | ⟨q, hq, hc, h⟩ := needSlot_cases h
    · exact .inl h
    · exact .inr ⟨q, hq, hc, h⟩
  · exact .inl h

theorem execSqdecb_next {k : BitVec 8} {blk : Word} {s t : State} (h : execSqdecb k blk s = .next t) :
    Faulted s t ∨ Effect s t (.sqdecb k blk) := by
  obtain ⟨-, h⟩ | h := checkForm_cases h
  · obtain h | ⟨q, hq, hc, h⟩ := needSlot_cases h
    · exact .inl h
    · split at h
      · exact .inl (faulted_of_raise (by simp) h)
      · exact .inr ⟨q, hq, hc, by omega, h⟩
  · exact .inl h

theorem execSqget_next {k : BitVec 8} {n : Word} {s t : State} (h : execSqget k n s = .next t) :
    Faulted s t ∨ Effect s t (.sqget k n) := by
  obtain ⟨-, h⟩ | h := checkForm_cases h
  · obtain h | ⟨q, hq, hc, h⟩ := needSlot_cases h
    · exact .inl h
    · split at h
      · exact .inl (faulted_of_raise (by simp) h)
      · split at h
        · simp only [Host.Outcome.next.injEq] at h
          exact .inr ⟨q, _, hq, hc, by omega, ‹_›, h.symm⟩
        · simp at h
  · exact .inl h

theorem execSqhas_next {k : BitVec 8} {v : Word} {s t : State} (h : execSqhas k v s = .next t) :
    Faulted s t ∨ Effect s t (.sqhas k v) := by
  obtain ⟨-, h⟩ | h := checkForm_cases h
  · obtain h | ⟨q, hq, hc, h⟩ := needSlot_cases h
    · exact .inl h
    · simp only [Host.Outcome.next.injEq] at h
      exact .inr ⟨q, hq, hc, h.symm⟩
  · exact .inl h

theorem execSqldb_next {k : BitVec 8} {blk : Word} {s t : State} (h : execSqldb k blk s = .next t) :
    Faulted s t ∨ Effect s t (.sqldb k blk) := by
  obtain ⟨-, h⟩ | h := checkForm_cases h
  · obtain h | ⟨q, hq, hc, h⟩ := needSlot_cases h
    · exact .inl h
    · split at h
      · exact .inl (faulted_of_raise (by simp) h)
      · exact .inr ⟨q, hq, hc, by omega, h⟩
  · exact .inl h

theorem execSqser_next {k : BitVec 8} {s t : State} (h : execSqser k s = .next t) :
    Faulted s t ∨ Effect s t (.sqser k) := by
  obtain ⟨-, h⟩ | h := checkForm_cases h
  · obtain h | ⟨q, hq, hc, h⟩ := needSlot_cases h
    · exact .inl h
    · obtain ⟨hf, h⟩ := require_next h
      simp only [Host.Outcome.next.injEq] at h
      exact .inr ⟨q, hq, hc, hf, h.symm⟩
  · exact .inl h

theorem execSqload_next {k : BitVec 8} {s t : State} (h : execSqload k s = .next t) :
    Faulted s t ∨ Effect s t (.sqload k) := by
  obtain ⟨-, h⟩ | h := checkForm_cases h
  · obtain ⟨img, hi, h⟩ := needImage_next h
    split at h
    · exact .inl (faulted_of_raise (by simp) h)
    · simp only [Host.Outcome.next.injEq] at h
      exact .inr ⟨img, _, hi, ‹_›, h.symm⟩
  · exact .inl h

theorem execSqand_next {d l r : BitVec 8} {s t : State} (h : execSqand d l r s = .next t) :
    Faulted s t ∨ Effect s t (.sqand d l r) := by
  obtain ⟨-, h⟩ | h := checkForm_cases h
  · obtain h | ⟨p, hp, hpc, h⟩ := needSlot_cases h
    · exact .inl h
    · obtain h | ⟨q, hq, hqc, h⟩ := needSlot_cases h
      · exact .inl h
      · exact .inr ⟨p, q, hp, hpc, hq, hqc, h⟩
  · exact .inl h

theorem execSqor_next {d l r : BitVec 8} {s t : State} (h : execSqor d l r s = .next t) :
    Faulted s t ∨ Effect s t (.sqor d l r) := by
  obtain ⟨-, h⟩ | h := checkForm_cases h
  · obtain h | ⟨p, hp, hpc, h⟩ := needSlot_cases h
    · exact .inl h
    · obtain h | ⟨q, hq, hqc, h⟩ := needSlot_cases h
      · exact .inl h
      · exact .inr ⟨p, q, hp, hpc, hq, hqc, h⟩
  · exact .inl h

/-- A command that answers a next state has faulted or had its effect. -/
theorem exec_next {i : Instr} {s t : State} (h : exec i s = .next t) : Faulted s t ∨ Effect s t i := by
  cases i with
  | wclr => exact execWclr_next h
  | put val w => exact execPut_next h
  | flush => exact execFlush_next h
  | rbind src => exact execRbind_next h
  | get w => exact execGet_next h
  | scan off => exact execScan_next h
  | flog2 x => exact execFlog2_next h
  | cdiv n d => exact execCdiv_next h
  | ctz x => exact execCtz_next h
  | next1 pos => exact execNext1_next h
  | efenc => exact execEfenc_next h
  | efdec => exact execEfdec_next h
  | efat r => exact execEfat_next h
  | efhas v => exact execEfhas_next h
  | sqbuild k bsz => exact execSqbuild_next h
  | sqlen k => exact execSqlen_next h
  | sqbsz k => exact execSqbsz_next h
  | sqnblk k => exact execSqnblk_next h
  | sqdec k => exact execSqdec_next h
  | sqdecb k blk => exact execSqdecb_next h
  | sqget k n => exact execSqget_next h
  | sqhas k v => exact execSqhas_next h
  | sqldb k blk => exact execSqldb_next h
  | sqser k => exact execSqser_next h
  | sqload k => exact execSqload_next h
  | sqand d l r => exact execSqand_next h
  | sqor d l r => exact execSqor_next h

/-! ### The port -/

theorem hostWrite_next {s t : State} {go : Out} (h : hostWrite s go = .next t) : s.err = .noFault ∧ go = .next t := by
  unfold hostWrite at h
  split at h
  · simp at h
  · rename_i he
    exact ⟨Decidable.not_not.1 he, h⟩

theorem hostWrite_of {s : State} (h : s.err = .noFault) (go : Out) : hostWrite s go = go := by
  simp [hostWrite, h]

/-- Presenting a command: no effect on a halted core, else a fault or the decoded command. -/
theorem runCommand_next {c : CommandWord} {s t : State} (h : runCommand c s = .next t) :
    (s.err ≠ .noFault ∧ t = s) ∨
      (s.err = .noFault ∧ ((∃ r, decode c = .error r ∧ t = s.setFault .illegal (rejectCause r)) ∨
        ∃ i, decode c = .ok i ∧ exec i s = .next t)) := by
  unfold runCommand at h
  split at h
  · simp only [Host.Outcome.next.injEq] at h
    exact .inl ⟨‹_›, h.symm⟩
  · rename_i he
    refine .inr ⟨Decidable.not_not.1 he, ?_⟩
    split at h
    · exact .inl ⟨_, ‹_›, ((raise_eq_next ..).1 h).symm⟩
    · exact .inr ⟨_, ‹_›, h⟩

/-- A step does nothing, or performs the first move with the others left on the port. -/
theorem step_next {s t : State} (h : step s = .next t) :
    (s.port = [] ∧ t = s) ∨ ∃ m moves, s.port = m :: moves ∧ perform m (s.setPort moves) = .next t := by
  unfold step at h
  split at h
  · simp only [Host.Outcome.next.injEq] at h
    exact .inl ⟨‹_›, h.symm⟩
  · exact .inr ⟨_, _, ‹_›, h⟩

end Sys2Proof.Machine
end

