-- ==== Sys2Proof/Laws/PerInstr.lean ====
section
/-! SUPPORT. Statements made per instruction: the opcode byte of every command's word is its row's, and no two commands share
one (spec/30_encoding.md R101). -/

namespace Sys2Proof.Laws.OpcodeByte

/-- The word of a command has the command's opcode byte, and `a` and `b` hold its operands. -/
def Statement (i : Instr) : Prop :=
  opField (encode i) = opcode i ∧ aField (encode i) = operandA i ∧ bField (encode i) = operandB i

theorem all (i : Instr) : Statement i := by simp [Statement, encode]

theorem wclr : Statement (.wclr) := all _
theorem put (val : Word) (w : BitVec 7) : Statement (.put val w) := all _
theorem flush : Statement (.flush) := all _
theorem rbind (src : BitVec 2) : Statement (.rbind src) := all _
theorem get (w : BitVec 7) : Statement (.get w) := all _
theorem scan (off : Word) : Statement (.scan off) := all _
theorem flog2 (x : Word) : Statement (.flog2 x) := all _
theorem cdiv (n : Word) (d : Word) : Statement (.cdiv n d) := all _
theorem ctz (x : Word) : Statement (.ctz x) := all _
theorem next1 (pos : Word) : Statement (.next1 pos) := all _
theorem efenc : Statement (.efenc) := all _
theorem efdec : Statement (.efdec) := all _
theorem efat (r : Word) : Statement (.efat r) := all _
theorem efhas (v : Word) : Statement (.efhas v) := all _
theorem sqbuild (k : BitVec 8) (bsz : BitVec 32) : Statement (.sqbuild k bsz) := all _
theorem sqlen (k : BitVec 8) : Statement (.sqlen k) := all _
theorem sqbsz (k : BitVec 8) : Statement (.sqbsz k) := all _
theorem sqnblk (k : BitVec 8) : Statement (.sqnblk k) := all _
theorem sqdec (k : BitVec 8) : Statement (.sqdec k) := all _
theorem sqdecb (k : BitVec 8) (blk : Word) : Statement (.sqdecb k blk) := all _
theorem sqget (k : BitVec 8) (i : Word) : Statement (.sqget k i) := all _
theorem sqhas (k : BitVec 8) (v : Word) : Statement (.sqhas k v) := all _
theorem sqldb (k : BitVec 8) (blk : Word) : Statement (.sqldb k blk) := all _
theorem sqser (k : BitVec 8) : Statement (.sqser k) := all _
theorem sqload (k : BitVec 8) : Statement (.sqload k) := all _
theorem sqand (d : BitVec 8) (l : BitVec 8) (r : BitVec 8) : Statement (.sqand d l r) := all _
theorem sqor (d : BitVec 8) (l : BitVec 8) (r : BitVec 8) : Statement (.sqor d l r) := all _

end Sys2Proof.Laws.OpcodeByte
end

