-- ==== Sys2Proof/Tests/Slice0.lean ====
section
/-! SUPPORT. The model's own tests: words written out from spec/30_encoding.md, one-step vectors of spec/95_test_vectors.md, and for
each statement with hypotheses a concrete state and operands that meet them. Expected results come from the spec. -/

namespace Sys2Proof.Tests

open Sys2Proof.Machine Sys2Proof.Safety

set_option maxRecDepth 8000
set_option Elab.async false

/-! ### Helpers -/

/-- An answer is a next state with a property. -/
def gives (o : Out) (p : State → Bool) : Bool :=
  match o with
  | .next s => p s
  | .fault _ => false
  | .refused _ => false

/-- An answer is a fault of the hardware of this kind and sub-cause. -/
def faults (o : Out) (kind : ErrKind) (info : Word) : Bool := gives o fun s => decide (s.err = kind) && decide (s.einfo = info)

/-- Reset, with values in `VBUF`. -/
def values (vs : List Word) : State := { State.reset with vbuf := cellsFrom 0 vs, vlen := BitVec.ofNat 64 vs.length }

/-- Reset, with an image in `BYTES`. -/
def image (img : List Byte) : State := { State.reset with bytes := cellsFrom 0 img, blen := BitVec.ofNat 64 img.length }

/-- Reset, with the Writer bound to these words, partial word and fill. -/
def writing (ws : List Word) (cur : Word) (filled : BitVec 6) : State :=
  { State.reset with writer := { words := ws, cur := cur, filled := filled } }

/-- Reset, with the Reader on these words at this bit. -/
def reading (ws : List Word) (pos : Word) : State := { State.reset with reader := { words := ws, pos := pos } }

/-- The row of spec/42_efblock_encode.md R197 for `[5, 8, 20, 37]`. -/
def blockA : EFBlock :=
  { nElem := 4, l := 3, floor := 5, lowWords := 1, highWords := 1, highBitsLen := 9, low := [0x1D8], high := [0x8B] }

/-- Reset, with that block in `EFB`. -/
def withBlock : State := { State.reset with efb := some blockA }

/-- Vector V40's bytes: the image of `[5, 8, 20, 37, 40]` in blocks of 4. -/
def imageA : List Byte :=
  [0x50, 0x50, 0x45, 0x46, 1, 0, 0, 0, 5, 0, 0, 0, 0, 0, 0, 0, 4, 0, 0, 0, 0, 0, 0, 0, 2, 0, 0, 0, 0, 0, 0, 0]
    ++ [0x48, 0, 0, 0, 0, 0, 0, 0, 0x25, 0, 0, 0, 0, 0, 0, 0, 0x28, 0, 0, 0, 0, 0, 0, 0, 0, 0, 0, 0, 0, 0, 0, 0]
    ++ [0x38, 0, 0, 0, 0, 0, 0, 0, 4, 0, 0, 0, 3, 0, 0, 0, 5, 0, 0, 0, 0, 0, 0, 0, 1, 0, 0, 0, 0, 0, 0, 0]
    ++ [1, 0, 0, 0, 0, 0, 0, 0, 9, 0, 0, 0, 0, 0, 0, 0, 0xD8, 1, 0, 0, 0, 0, 0, 0, 0x8B, 0, 0, 0, 0, 0, 0, 0]
    ++ [1, 0, 0, 0, 0, 0, 0, 0, 0x28, 0, 0, 0, 0, 0, 0, 0, 0, 0, 0, 0, 0, 0, 0, 0, 1, 0, 0, 0, 0, 0, 0, 0]
    ++ [2, 0, 0, 0, 0, 0, 0, 0, 1, 0, 0, 0, 0, 0, 0, 0]

/-- V40's Sequence, field for field from R244's example and V40's rows 72 to 175. -/
def seqA : Sequence :=
  { nElem := 5, blockSize := 4, nBlocks := 2, blockLast := [37, 40], blockOffset := [0, 56], payload := imageA.drop 72 }

/-- Reset, with V40's Sequence in slot 0. -/
def withSlot : State := { State.reset with slots := [(0, seqA)] }

/-- Slots 0 and 1 as V120 has them. -/
def withTwo : State :=
  { State.reset with slots := [(0, seqBuild [1, 3, 4, 6, 10, 11, 12, 13] 2), (1, seqBuild [2, 4, 5, 9, 11, 15] 3)] }

/-- V110's slot: one bit too many in block 0's high word. -/
def badSeq : Sequence := { seqA with payload := seqA.payload.set 48 0x8F }

/-- Reset with the host's coming moves. -/
def ported (moves : List PortMove) : State := { State.reset with port := moves }

/-- A state halted by a fault. -/
def halted (moves : List PortMove) : State := { State.reset with err := .outOfRange, einfo := 1, res := 15, port := moves }

/-! ### Well-formed and ill-formed terms (R102) -/

theorem test_wf_width :
    Instr.wf (.put 0 64) = true ∧ Instr.wf (.put 0 65) = false ∧ Instr.wf (.get 64) = true ∧ Instr.wf (.get 127) = false := by
  decide

theorem test_wf_source : Instr.wf (.rbind 2) = true ∧ Instr.wf (.rbind 3) = false := by decide

theorem test_wf_slot : Instr.wf (.sqlen 2) = true ∧ Instr.wf (.sqand 2 0 1) = true ∧ Instr.wf (.sqbuild 0 0) = true := by decide

/-- A slot index not below `NSLOT` is refused in every form (V84 for `NSLOT = 4`). -/
theorem test_wf_slot_beyond (k : BitVec 8) (h : Config.nslot ≤ k.toNat) :
    [Instr.sqbuild k 1, .sqlen k, .sqbsz k, .sqnblk k, .sqdec k, .sqdecb k 0, .sqget k 0, .sqhas k 0, .sqldb k 0, .sqser k,
      .sqload k, .sqand k 0 0, .sqand 0 k 0, .sqand 0 0 k, .sqor k 0 0, .sqor 0 k 0, .sqor 0 0 k].all
      (fun i => !i.wf) = true := by
  have h' : slotOk k = false := by simp [slotOk, h]
  simp [Instr.wf, h']

/-! ### Words written out from R100, R101 and R130: 16 digits of `b`, 16 of `a`, 2 of `op` -/

theorem test_decode_bitstream :
    decode 0x0000000000000000000000000000000001 = .ok .wclr ∧
    decode 0x0000000000000040123456789ABCDEF002 = .ok (.put 0x123456789ABCDEF0 64) ∧
    decode 0x0000000000000000000000000000000003 = .ok .flush ∧
    decode 0x0000000000000000000000000000000108 = .ok (.rbind 1) ∧
    decode 0x0000000000000003000000000000000009 = .ok (.get 3) ∧
    decode 0x000000000000000000000000000000800A = .ok (.scan 128) := by
  decide

theorem test_decode_bitutil :
    decode 0x0000000000000000000000000000000810 = .ok (.flog2 8) ∧
    decode 0x0000000000000040000000000000000C11 = .ok (.cdiv 12 64) ∧
    decode 0x0000000000000000000000000000008812 = .ok (.ctz 0x88) ∧
    decode 0x0000000000000000000000000000000413 = .ok (.next1 4) := by
  decide

theorem test_decode_block :
    decode 0x0000000000000000000000000000000020 = .ok .efenc ∧
    decode 0x0000000000000000000000000000000021 = .ok .efdec ∧
    decode 0x0000000000000000000000000000000322 = .ok (.efat 3) ∧
    decode 0x0000000000000000000000000000001523 = .ok (.efhas 21) := by
  decide

theorem test_decode_sequence :
    decode 0x0000000000000003000000000000000130 = .ok (.sqbuild 1 3) ∧
    decode 0x0000000000000000000000000000000231 = .ok (.sqlen 2) ∧
    decode 0x0000000000000000000000000000000032 = .ok (.sqbsz 0) ∧
    decode 0x0000000000000000000000000000000033 = .ok (.sqnblk 0) ∧
    decode 0x0000000000000000000000000000000134 = .ok (.sqdec 1) ∧
    decode 0x0000000000000001000000000000000135 = .ok (.sqdecb 1 1) ∧
    decode 0x000000000000000B000000000000000036 = .ok (.sqget 0 11) ∧
    decode 0x0000000000000026000000000000000037 = .ok (.sqhas 0 38) ∧
    decode 0x0000000000000001000000000000000238 = .ok (.sqldb 2 1) := by
  decide

theorem test_decode_serial_and_sets :
    decode 0x0000000000000000000000000000000240 = .ok (.sqser 2) ∧
    decode 0x0000000000000000000000000000000141 = .ok (.sqload 1) ∧
    decode 0x0000000000000000000000000001000250 = .ok (.sqand 2 0 1) ∧
    decode 0x0000000000000000000000000001000051 = .ok (.sqor 0 0 1) := by
  decide

/-- Reserved opcodes at the ends of their ranges (R101), a reserved-zero bit before the width (V25), the width (V24), `src = 3`
(V27), a slot field's neighbour bit (V83). -/
theorem test_decode_rejects :
    [0x00, 0x04, 0x07, 0x0B, 0x0F, 0x14, 0x1F, 0x24, 0x2F, 0x39, 0x3F, 0x42, 0x4F, 0x52, 0xFF].all
      (fun op => decide (decode op = .error .reservedOpcode)) = true ∧
    decode 0x0000000000000080000000000000000002 = .error .reservedZero ∧
    decode 0x0000000000000041000000000000000002 = .error .width ∧
    decode 0x0000000000000000000000000000000308 = .error .selector ∧
    decode 0x0000000000000000000000000000010030 = .error .reservedZero ∧
    decode 0x0000000000000000000000000000000101 = .error .reservedZero := by
  decide

/-- The encoder writes the words of R130's examples and of program P2. -/
theorem test_encode :
    encode (.put 5 3) = 0x0000000000000003000000000000000502 ∧ encode (.sqand 2 0 1) = 0x0000000000000000000000000001000250 ∧
    encode (.sqdecb 1 1) = 0x0000000000000001000000000000000135 ∧
    encode (assembleSqbuild 1 none) = 0x0000000000000100000000000000000130 := by
  decide

theorem test_table_word : decodeTableWord 136 0x0000000000000003000000000000000502 = some (.put 5 3) ∧ decodeTableWord 136 0 = none := by
  decide

/-- A slot index not below `NSLOT` faults `Illegal(4)` (V84). -/
theorem test_slot_beyond_faults (k : BitVec 8) (s : State) (h : Config.nslot ≤ k.toNat) :
    exec (.sqlen k) s = .next (faulted s .illegal 4) := by
  simp [exec, execSqlen, checkForm, formReject, Nat.not_lt.2 h, rejectCause, raise, State.setFault, faulted]

/-! ### BitStream vectors (spec/95_test_vectors.md 2.1) -/

theorem test_wclr : gives (exec .wclr (writing [9] 5 3)) (fun s => decide (s.writer = { words := [], cur := 0, filled := 0 })) = true := by
  decide

/-- V11: the field splits over two words. -/
theorem test_put_split (hw : Config.wordCap = some 1) :
    gives (exec (.put 0x123456789ABCDEF0 64) (writing [] 0x7D 7))
      (fun s => decide (s.writer = { words := [0x1A2B3C4D5E6F787D], cur := 9, filled := 7 })) = true := by
  unfold exec execPut fitsWords
  rw [hw]
  decide +kernel

/-- V14 and V16: a straddling field, and a word that fills exactly. -/
theorem test_put_fills (hw : Config.wordCap = some 1) :
    gives (exec (.put 0xABC 12) (writing [] 1 60))
      (fun s => decide (s.writer = { words := [0xC000000000000001], cur := 0xAB, filled := 8 })) = true ∧
    gives (exec (.put 0 62) (writing [] 3 2)) (fun s => decide (s.writer = { words := [3], cur := 0, filled := 0 })) = true := by
  unfold exec execPut fitsWords
  rw [hw]
  decide +kernel

/-- V12 and V15: a partial word is appended, one of zero bits too. -/
theorem test_flush (hw : Config.wordCap = some 2) :
    gives (exec .flush (writing [1] 9 7)) (fun s => decide (s.writer = { words := [1, 9], cur := 0, filled := 0 })) = true ∧
    gives (exec .flush (writing [] 0 5)) (fun s => decide (s.writer = { words := [0], cur := 0, filled := 0 })) = true := by
  unfold exec execFlush fitsWords
  rw [hw]
  decide +kernel

/-- Rows 14 and 17 of P2, and V26. -/
theorem test_rbind :
    gives (exec (.rbind 2) withBlock) (fun s => decide (s.reader = { words := [0x8B], pos := 0 })) = true ∧
    gives (exec (.rbind 1) withBlock) (fun s => decide (s.reader = { words := [0x1D8], pos := 0 })) = true ∧
    faults (exec (.rbind 1) State.reset) .illegal 5 = true := by
  decide

/-- V18: the field joins two words. -/
theorem test_get_joins :
    gives (exec (.get 8) (reading [0x1A2B3C4D5E6F787D, 9] 60)) (fun s => decide (s.res = 0x91 ∧ s.reader.pos = 68)) = true := by
  decide

/-- V22 and V23: the cursor at the top of its register. -/
theorem test_get_edge :
    faults (exec (.get 16) (reading [] 0xFFFFFFFFFFFFFFF0)) .illegal 6 = true ∧
    gives (exec (.get 15) (reading [] 0xFFFFFFFFFFFFFFF0)) (fun s => decide (s.reader.pos = 0xFFFFFFFFFFFFFFFF)) = true := by
  decide

theorem test_scan : gives (exec (.scan 128) (reading [7] 3)) (fun s => decide (s.reader = { words := [7], pos := 128 })) = true := by
  decide

/-! ### Bit utility vectors (2.2) -/

/-- V30 and V31. -/
theorem test_flog2 :
    gives (exec (.flog2 9) State.reset) (fun s => decide (s.res = 3)) = true ∧
    gives (exec (.flog2 0x8000000000000000) State.reset) (fun s => decide (s.res = 63)) = true ∧
    faults (exec (.flog2 0) State.reset) .illegal 6 = true := by
  decide

/-- V32 to V34. -/
theorem test_cdiv :
    gives (exec (.cdiv 33 8) State.reset) (fun s => decide (s.res = 5)) = true ∧
    gives (exec (.cdiv 0xFFFFFFFFFFFFFFFF 1) State.reset) (fun s => decide (s.res = 0xFFFFFFFFFFFFFFFF)) = true ∧
    faults (exec (.cdiv 0xFFFFFFFFFFFFFFFF 2) State.reset) .illegal 6 = true ∧
    faults (exec (.cdiv 5 0) State.reset) .illegal 6 = true := by
  decide

/-- V35 and V36. -/
theorem test_ctz :
    gives (exec (.ctz 0x88) State.reset) (fun s => decide (s.res = 3)) = true ∧
    gives (exec (.ctz 0x8000000000000000) State.reset) (fun s => decide (s.res = 63)) = true ∧
    faults (exec (.ctz 0) State.reset) .illegal 6 = true := by
  decide

/-- V37 and V39. -/
theorem test_next1 :
    gives (exec (.next1 129) (reading [0, 0x8000000000000000, 5] 0)) (fun s => decide (s.res = 130 ∧ s.t = true)) = true ∧
    gives (exec (.next1 131) (reading [0, 0x8000000000000000, 5] 0))
      (fun s => decide (s.res = 0xFFFFFFFFFFFFFFFF ∧ s.t = false)) = true ∧
    gives (exec (.next1 0) State.reset) (fun s => decide (s.res = 0xFFFFFFFFFFFFFFFF ∧ s.t = false)) = true := by
  decide

/-! ### Block vectors (2.3, 2.4) -/

/-- V54 and V56: R197's rows for `[5, 8, 20, 37]` and `[0, 2^64 − 1]`. -/
theorem test_efenc (hw : Config.wordCap = some 2) :
    gives (exec .efenc (values [5, 8, 20, 37])) (fun s => decide (s.efb = some blockA)) = true ∧
    gives (exec .efenc (values [0, 0xFFFFFFFFFFFFFFFF]))
      (fun s => decide (s.efb = some
        { nElem := 2, l := 63, floor := 0, lowWords := 2, highWords := 1, highBitsLen := 4,
          low := [0x8000000000000000, 0x3FFFFFFFFFFFFFFF], high := [5] })) = true := by
  unfold exec execEfenc storeBlock fitsWords
  rw [hw]
  decide +kernel

/-- V57 and V58. -/
theorem test_efenc_faults :
    faults (exec .efenc State.reset) .invalidInput 1 = true ∧ faults (exec .efenc (values [5, 3])) .invalidInput 2 = true := by
  decide

/-- V70 and V79. -/
theorem test_efdec (hv : Config.vbufCap = some 4) :
    gives (exec .efdec withBlock) (fun s => decide (s.vlen = 4 ∧ s.vbuf = [(0, 5), (1, 8), (2, 20), (3, 37)])) = true ∧
    faults (exec .efdec State.reset) .illegal 5 = true := by
  unfold exec execEfdec storeValues fitsValues
  rw [hv]
  decide +kernel

/-- V71 and V72. -/
theorem test_efat :
    gives (exec (.efat 2) withBlock) (fun s => decide (s.res = 20)) = true ∧
    gives (exec (.efat 3) withBlock) (fun s => decide (s.res = 37)) = true ∧
    faults (exec (.efat 4) withBlock) .outOfRange 3 = true := by
  decide +kernel

/-- V73 and V74. -/
theorem test_efhas :
    gives (exec (.efhas 20) withBlock) (fun s => s.t) = true ∧
    ([4, 6, 21, 36, 38, 0xFFFFFFFFFFFFFFFF] : List Word).all (fun v => gives (exec (.efhas v) withBlock) fun s => !s.t) = true := by
  decide +kernel

/-! ### Sequence, image and set vectors (2.5, 2.6) -/

/-- R244's example with V40's bytes. -/
theorem test_sqbuild (hw : Config.wordCap = some 1) (hb : Config.byteCap = some 104) :
    gives (exec (.sqbuild 0 4) (values [5, 8, 20, 37, 40])) (fun s => decide (s.slots = [(0, seqA)])) = true := by
  unfold exec execSqbuild storeSequence blocksFit fitsBytes fitsWords
  rw [hw, hb]
  decide +kernel

/-- V81 and V82. -/
theorem test_sqbuild_faults :
    faults (exec (.sqbuild 0 0) State.reset) .invalidInput 4 = true ∧
    faults (exec (.sqbuild 0 2) (values [1, 2, 2, 1])) .invalidInput 2 = true := by
  decide

/-- V42 and V49. -/
theorem test_queries :
    gives (exec (.sqlen 0) withSlot) (fun s => decide (s.res = 5)) = true ∧
    gives (exec (.sqbsz 0) withSlot) (fun s => decide (s.res = 4)) = true ∧
    gives (exec (.sqnblk 0) withSlot) (fun s => decide (s.res = 2)) = true ∧
    faults (exec (.sqlen 1) withSlot) .illegal 5 = true := by
  decide +kernel

/-- V48. -/
theorem test_sqdec (hv : Config.vbufCap = some 5) :
    gives (exec (.sqdec 0) withSlot)
      (fun s => decide (s.vlen = 5 ∧ s.vbuf = [(0, 5), (1, 8), (2, 20), (3, 37), (4, 40)])) = true := by
  unfold exec execSqdec storeValues fitsValues
  rw [hv]
  decide +kernel

/-- V45. -/
theorem test_sqdecb (hv : Config.vbufCap = some 1) :
    gives (exec (.sqdecb 0 1) withSlot) (fun s => decide (s.vlen = 1 ∧ s.vbuf = [(0, 40)])) = true ∧
    faults (exec (.sqdecb 0 2) withSlot) .outOfRange 2 = true := by
  unfold exec execSqdecb storeValues fitsValues
  rw [hv]
  decide +kernel

/-- V43 and V44. -/
theorem test_sqget :
    gives (exec (.sqget 0 3) withSlot) (fun s => decide (s.res = 37)) = true ∧
    gives (exec (.sqget 0 4) withSlot) (fun s => decide (s.res = 40)) = true ∧
    faults (exec (.sqget 0 5) withSlot) .outOfRange 1 = true := by
  decide +kernel

/-- V46. -/
theorem test_sqhas :
    ([5, 20, 37, 40] : List Word).all (fun v => gives (exec (.sqhas 0 v) withSlot) fun s => s.t) = true ∧
    ([4, 21, 38, 41] : List Word).all (fun v => gives (exec (.sqhas 0 v) withSlot) fun s => !s.t) = true := by
  decide +kernel

/-- V47. -/
theorem test_sqldb (hw : Config.wordCap = some 1) :
    gives (exec (.sqldb 0 1) withSlot)
      (fun s => decide (s.efb = some
        { nElem := 1, l := 0, floor := 40, lowWords := 0, highWords := 1, highBitsLen := 2, low := [], high := [1] })) = true := by
  unfold exec execSqldb storeBlock fitsWords
  rw [hw]
  decide +kernel

/-- V40. -/
theorem test_sqser (hb : Config.byteCap = some 176) :
    gives (exec (.sqser 0) withSlot) (fun s => decide (s.blen = 176 ∧ s.bytes = cellsFrom 0 imageA)) = true := by
  unfold exec execSqser fitsBytes
  rw [hb]
  decide +kernel

/-- V40's rows 72 to 127 and 128 to 175: the bytes of both blocks. -/
theorem test_block_bytes :
    blockLaidOut (imageA.drop 72) 0 blockA ∧
    blockLaidOut (imageA.drop 72) 56
      { nElem := 1, l := 0, floor := 40, lowWords := 0, highWords := 1, highBitsLen := 2, low := [], high := [1] } := by
  unfold blockLaidOut
  decide +kernel

/-- V90 and V108: the image loads, and with other filler bytes too. -/
theorem test_sqload :
    gives (exec (.sqload 1) (image imageA)) (fun s => decide (s.slots = [(1, seqA)])) = true ∧
    gives (exec (.sqload 1) (image (imageA.set 77 0xFF))) (fun s => decide (s.err = .noFault)) = true := by
  decide +kernel

/-- V91 to V107: one mutation for each of the eleven checks. -/
theorem test_sqload_checks :
    ([(1, imageA.take 39), (2, imageA.set 0 0x51), (3, imageA.set 4 2), (4, imageA.set 16 0), (5, imageA.set 20 1),
      (6, imageA.set 8 9), (7, imageA.set 32 0x50), (8, imageA.take 60), (9, imageA.set 76 0x40),
      (10, imageA ++ [0, 0, 0, 0, 0, 0, 0, 0]), (11, imageA.set 40 0x29)] : List (Word × List Byte)).all
      (fun c => faults (exec (.sqload 1) (image c.2)) .malformed c.1) = true := by
  decide +kernel

/-- V120, with the result block of seed case 1. -/
theorem test_sqand (hw : Config.wordCap = some 1) (hb : Config.byteCap = some 56) :
    gives (exec (.sqand 2 0 1) withTwo)
      (fun s => (cellsRead s.slots 2).any fun q =>
        decide (q.nElem = 2 ∧ q.blockSize = 2 ∧ q.blockLast = [11] ∧ q.blockOffset = [0]) &&
          decide (blockAt q 0 =
            { nElem := 2, l := 2, floor := 4, lowWords := 1, highWords := 1, highBitsLen := 4, low := [0xC], high := [5] })) = true := by
  unfold exec execSqand storeSequence blocksFit fitsBytes fitsWords
  rw [hw, hb]
  decide +kernel

/-- Row 7 of P3: the destination is the left operand. -/
theorem test_sqor (hw : Config.wordCap = some 1) (hb : Config.byteCap = some 288) :
    gives (exec (.sqor 0 0 1) withTwo)
      (fun s => (cellsRead s.slots 0).any fun q =>
        decide (q.nElem = 12 ∧ q.blockSize = 2 ∧ q.blockLast = [2, 4, 6, 10, 12, 15] ∧
          q.blockOffset = [0, 48, 96, 144, 192, 240])) = true := by
  unfold exec execSqor storeSequence blocksFit fitsBytes fitsWords
  rw [hw, hb]
  decide +kernel

/-- V121 and V128: multiplicities. -/
theorem test_multisets :
    intersectValues [3, 3, 5, 5, 5, 9] [3, 5, 5, 7] = [3, 5, 5] ∧ unionValues [3, 3, 5, 5, 5, 9] [3, 5, 5, 7] = [3, 5, 7, 9] ∧
    unionValues [5, 5, 7] [5, 5, 7] = [5, 7] := by
  decide

/-- V110: a slot that is not canonical is refused. -/
theorem test_not_canonical :
    exec (.sqhas 0 5) { State.reset with slots := [(0, badSeq)] } = .refused .notCanonical := by
  rfl

/-! ### Steps -/

/-- Program P4: a fault halts the core; reset leaves the host's other moves. -/
theorem test_halted :
    gives (step (halted [.command 0x0000000000000000000000000000000031])) (fun s => decide (s = halted [])) = true ∧
    gives (step (halted [.reset, .command 1])) (fun s => decide (s = ported [.command 1])) = true := by
  decide +kernel

/-- The first command after reset, as the host's probe places it. -/
theorem test_first_step :
    gives (step (State.reset.withFetchWord 136 0x0000000000000003000000000000000502))
      (fun s => decide (s.writer = { words := [], cur := 5, filled := 3 } ∧ s.port = [])) = true ∧
    faults (step (State.reset.withFetchWord 136 0)) .illegal 1 = true := by
  decide +kernel

/-- A value the host never wrote holds none. -/
theorem test_unwritten :
    exec .efenc { State.reset with vlen := 1 } = .fault .unwrittenValue ∧
    exec (.sqload 0) { State.reset with blen := 1 } = .fault .unwrittenByte := by
  exact ⟨rfl, rfl⟩

/-! ### Witnesses: for each statement with hypotheses, states and operands that meet them, clause by clause

The capacities are constants without a body (notes/assumptions/4.md): a witness of a clause that names one takes a capacity that
R9 allows as its hypothesis, at the boundary, with the refusal one item beyond. -/

/-- Where `WORD_CAP` is `n`, `n` words fit and one more does not. -/
theorem witness_wordCap {n : Nat} (hw : Config.wordCap = some n) (hn : n ≤ 2 ^ 58) :
    fitsWords n = true ∧ fitsWords (n + 1) = false := by
  simp [fitsWords, capFits, hw]
  omega

/-- As `witness_wordCap`, for `VBUF_CAP`. -/
theorem witness_vbufCap {n : Nat} (hv : Config.vbufCap = some n) (hn : n < 2 ^ 64) :
    fitsValues n = true ∧ fitsValues (n + 1) = false := by
  simp [fitsValues, capFits, hv]
  omega

/-- As `witness_wordCap`, for `BYTE_CAP`. -/
theorem witness_byteCap {n : Nat} (hb : Config.byteCap = some n) (hn : n < 2 ^ 64) :
    fitsBytes n = true ∧ fitsBytes (n + 1) = false := by
  simp [fitsBytes, capFits, hb]
  omega

/-- A Writer of `n` zero words. -/
def longWords (n : Nat) : List Word := List.replicate n 0

theorem longWords_length (n : Nat) : (longWords n).length = n := List.length_replicate

theorem witness_DecodeOfEncodeIsTheCommand :
    Instr.wf (.put 0xFFFFFFFFFFFFFFFF 64) = true ∧ Instr.wf (.rbind 2) = true ∧ Instr.wf (.sqor 2 1 0) = true := by
  decide

theorem witness_EncodeOfDecodeIsTheWord : ∃ c i, decode c = .ok i :=
  ⟨0x0000000000000003000000000000000502, .put 5 3, by decide⟩

/-- Clauses: reserved opcode, reserved-zero bit, width just above 64, source 3, and a word that passes. -/
theorem witness_DecodeChecksRunInOrder :
    State.reset.err = .noFault ∧ rowMask (opField 0x52) = none ∧
    (rowMask (opField 0x0000000000000080000000000000000002)).isSome = true ∧
    (rowMask (opField 0x0000000000000080000000000000000002)).all
      (fun m => decide (0x0000000000000080000000000000000002 &&& m ≠ 0x02)) = true ∧
    badWidth 0x0000000000000041000000000000000002 ∧ ¬ badWidth 0x0000000000000040000000000000000002 ∧
    badSelector 0x0000000000000000000000000000000308 ∧ ¬ badSelector 0x0000000000000000000000000000000208 := by
  unfold badWidth badSelector
  decide

/-- The selector clause for a slot field: 255 is not below `NSLOT` where `NSLOT ≤ 255`. -/
theorem witness_DecodeChecksRunInOrder_slot (h : Config.nslot ≤ 255) : badSelector 0x000000000000000000000000000000FF31 :=
  .inr (.inl ⟨by decide, h⟩)

theorem witness_StepRunsTheDecodedCommand :
    (ported [.command 0x0000000000000003000000000000000502]).err = .noFault ∧
    (ported [.command 0x0000000000000003000000000000000502]).port = .command 0x0000000000000003000000000000000502 :: [] ∧
    decode 0x0000000000000003000000000000000502 = .ok (.put 5 3) := by
  decide

theorem witness_FaultIsFinalUntilReset :
    (halted [.command 1]).err ≠ .noFault ∧ (halted [.command 1]).port = .command 1 :: [] ∧
    gives (step (halted [.command 1])) (fun _ => true) = true ∧ gives (step (halted [.reset])) (fun _ => true) = true ∧
    gives (step (halted [])) (fun _ => true) = true := by
  decide +kernel

theorem witness_ResetEstablishesTheResetState : (halted [.reset, .command 1]).port = .reset :: [.command 1] := by decide

/-- Both clauses: a command that completes and one that faults. -/
theorem witness_FaultsArePrecise :
    gives (exec (.scan 3) (halted [])) (fun t => decide (t.err = (halted []).err)) = true ∧
    faults (exec (.flog2 0) State.reset) .illegal 6 = true := by
  decide +kernel

theorem witness_CommandsRaiseOnlyTheirFaults :
    Instr.wf (.flog2 0) = true ∧ State.reset.err = .noFault ∧
    gives (exec (.flog2 0) State.reset) (fun t => decide (t.err ≠ .noFault)) = true := by
  decide

/-- Clauses of `FLUSH`: no bits pending; one bit pending with room for a word, and without. -/
theorem witness_WriterClearsAndFlushes :
    (writing [] 0 0).writer.filled.toNat = 0 ∧ 0 < (writing [5] 1 1).writer.filled.toNat ∧
    (Config.wordCap = some 2 → fitsWords ((writing [5] 1 1).writer.words.length + 1) = true) ∧
    (Config.wordCap = some 1 → fitsWords ((writing [5] 1 1).writer.words.length + 1) = false) :=
  ⟨by decide, by decide, fun hw => (witness_wordCap hw (by decide)).1, fun hw => (witness_wordCap hw (by decide)).2⟩

/-- Clauses: width 65; width 0; a field that fills no word; 63 bits pending and a field of 64, with room for a word and without. -/
theorem witness_PutAppendsTheField :
    64 < (65 : BitVec 7).toNat ∧ (0 : BitVec 7).toNat = 0 ∧ (60 : BitVec 7).toNat ≤ 64 ∧ writerOk (writing [] 5 3).writer ∧
    ¬ 64 ≤ (writing [] 5 3).writer.filled.toNat + (60 : BitVec 7).toNat ∧
    (64 : BitVec 7).toNat ≤ 64 ∧ 1 ≤ (64 : BitVec 7).toNat ∧ writerOk (writing [] 5 63).writer ∧
    64 ≤ (writing [] 5 63).writer.filled.toNat + (64 : BitVec 7).toNat ∧
    (Config.wordCap = some 1 → fitsWords ((writing [] 5 63).writer.words.length + 1) = true) ∧
    (Config.wordCap = some 0 → fitsWords ((writing [] 5 63).writer.words.length + 1) = false) := by
  refine ⟨by decide, by decide, by decide, by unfold writerOk; decide, by decide, by decide, by decide,
    by unfold writerOk; decide, by decide, fun hw => (witness_wordCap hw (by decide)).1,
    fun hw => (witness_wordCap hw (by decide)).2⟩

/-- The refusals of `PUT` and `FLUSH` for every capacity: a word array as long as a register can count, where no word more fits
(notes/assumptions/5.md). -/
theorem witness_wordCapacity :
    fitsWords ((writing (longWords (2 ^ 58)) 1 63).writer.words.length + 1) = false ∧
    (1 : BitVec 7).toNat ≤ 64 ∧ 1 ≤ (1 : BitVec 7).toNat ∧
    64 ≤ (writing (longWords (2 ^ 58)) 1 63).writer.filled.toNat + (1 : BitVec 7).toNat := by
  have h (n : Nat) (c : Word) (f : BitVec 6) : (writing (longWords n) c f).writer.words.length = n := longWords_length n
  have h' (ws : List Word) (c : Word) (f : BitVec 6) : (writing ws c f).writer.filled = f := rfl
  rw [h, h']
  decide

/-- Clauses: width 65; the cursor just past its register; the cursor at its top. -/
theorem witness_GetReadsTheStream :
    64 < (65 : BitVec 7).toNat ∧
    ((16 : BitVec 7).toNat ≤ 64 ∧ 2 ^ 64 ≤ (reading [] 0xFFFFFFFFFFFFFFF0).reader.pos.toNat + (16 : BitVec 7).toNat) ∧
    (15 : BitVec 7).toNat ≤ 64 ∧ (reading [] 0xFFFFFFFFFFFFFFF0).reader.pos.toNat + (15 : BitVec 7).toNat < 2 ^ 64 := by
  decide

/-- V3: the cursor exactly at the end of two words. -/
theorem witness_ReadingPastTheEndGivesZero :
    (64 : BitVec 7).toNat ≤ 64 ∧ 64 * (reading [1, 9] 128).reader.words.length ≤ (reading [1, 9] 128).reader.pos.toNat ∧
    (reading [1, 9] 128).reader.pos.toNat + (64 : BitVec 7).toNat < 2 ^ 64 := by
  decide

theorem witness_ReaderIsRepositionedAndBound : withBlock.efb = some blockA ∧ State.reset.efb = none := by decide

/-- V1's fields, the last of width 64; and fields of no width, for every capacity. -/
theorem witness_FieldsRoundTrip :
    (∀ f ∈ ([(5, 3), (0xFFFF, 4), (0x123456789ABCDEF0, 64)] : List (Word × BitVec 7)), f.2.toNat ≤ 64) ∧
    State.reset.err = .noFault ∧ State.reset.writer = { words := [], cur := 0, filled := 0 } ∧
    totalWidth [(5, 3), (0xFFFF, 4), (0x123456789ABCDEF0, 64)] < 2 ^ 64 ∧
    ([(5, 3), (0xFFFF, 4), (0x123456789ABCDEF0, 64)] : List (Word × BitVec 7))[2]? = some (0x123456789ABCDEF0, 64) ∧
    fitsWords (ceilDiv (totalWidth [(5, 0), (0xFFFF, 0)]) 64) = true ∧
    (Config.wordCap = some 2 →
      fitsWords (ceilDiv (totalWidth [(5, 3), (0xFFFF, 4), (0x123456789ABCDEF0, 64)]) 64) = true) := by
  refine ⟨?_, by decide, by decide, by decide, by decide, by decide, fun hw => (witness_wordCap hw (by decide)).1⟩
  simp

/-- V4's fields, `k` the first index beyond them; and no fields, for every capacity. -/
theorem witness_UniformFieldsAreAddressable :
    1 ≤ (13 : BitVec 7).toNat ∧ (13 : BitVec 7).toNat ≤ 64 ∧ State.reset.err = .noFault ∧
    State.reset.writer = { words := [], cur := 0, filled := 0 } ∧ (5 + 1) * (13 : BitVec 7).toNat < 2 ^ 64 ∧
    fitsWords (ceilDiv (([] : List Word).length * (13 : BitVec 7).toNat) 64) = true ∧
    (Config.wordCap = some 2 →
      fitsWords (ceilDiv (([9, 10, 11, 12, 13] : List Word).length * (13 : BitVec 7).toNat) 64) = true) :=
  ⟨by decide, by decide, by decide, by decide, by decide, by decide, fun hw => (witness_wordCap hw (by decide)).1⟩

theorem witness_FloorLogGivesTheHighestBit : (0 : Word) = 0 ∧ (1 : Word) ≠ 0 := by decide

/-- Clauses: `d = 0`; V34's sum of exactly `2^64`; the largest sum that fits. -/
theorem witness_CeilingDivisionIsExact :
    (0 : Word) = 0 ∧ 2 ^ 64 ≤ (0xFFFFFFFFFFFFFFFF : Word).toNat + (2 : Word).toNat - 1 ∧ (1 : Word) ≠ 0 ∧
    (0xFFFFFFFFFFFFFFFF : Word).toNat + (1 : Word).toNat - 1 < 2 ^ 64 := by
  decide

theorem witness_TrailingZerosFindTheLeastBit : (0 : Word) = 0 ∧ (0x8000000000000000 : Word) ≠ 0 := by decide

theorem witness_NextOneFindsTheFirstBit : (reading [0, 0x8000000000000000, 5] 0).reader.words.length ≤ 2 ^ 58 := by decide

/-- Clauses: no value; too many; a falling run; a rising one, with room for its arrays and without. -/
theorem witness_EncodeCommandChecksThenEncodes :
    State.reset.vlen.toNat = 0 ∧ 2 ^ 32 ≤ ({ State.reset with vlen := 0x100000000 } : State).vlen.toNat ∧
    (holdsRun (values [5, 3]) [5, 3] ∧ 1 ≤ (values [5, 3]).vlen.toNat ∧ (values [5, 3]).vlen.toNat < 2 ^ 32 ∧
      nonDecreasing [5, 3] = false) ∧
    holdsRun (values [5, 8, 20, 37]) [5, 8, 20, 37] ∧ nonDecreasing [5, 8, 20, 37] = true := by
  unfold holdsRun
  decide +kernel

theorem witness_blockFits :
    (Config.wordCap = some 1 → blockFits (efEncode [5, 8, 20, 37])) ∧
    (Config.wordCap = some 0 → ¬ blockFits (efEncode [5, 8, 20, 37])) := by
  refine ⟨fun hw => ?_, fun hw => ?_⟩ <;> unfold blockFits fitsWords <;> rw [hw] <;> decide +kernel

/-- The runs of R196's corners: one value, a plateau, the whole 64-bit range. -/
theorem witness_blockRun :
    blockRun [7] ∧ blockRun [4, 4, 4, 4] ∧ blockRun [0, 0xFFFFFFFFFFFFFFFF] ∧ (1 : Nat) < ([4, 4, 4, 4] : List Word).length := by
  unfold blockRun
  decide

theorem witness_EncodedBlockMeetsTheFormat : blockRun [5, 8, 20, 37] := by
  unfold blockRun
  decide

theorem witness_BlockLawsHold : blockRun [0, 0xFFFFFFFFFFFFFFFF] := by
  unfold blockRun
  decide

/-- Hypotheses of `EFDEC`: no block; a block, with room for its values and without. -/
theorem witness_DecodeCommandRestoresTheRun :
    State.reset.efb = none ∧ holdsBlock withBlock [5, 8, 20, 37] ∧
    (Config.vbufCap = some 4 → fitsValues ([5, 8, 20, 37] : List Word).length = true) ∧
    (Config.vbufCap = some 3 → fitsValues ([5, 8, 20, 37] : List Word).length = false) := by
  refine ⟨by decide, ?_, fun hv => (witness_vbufCap hv (by decide)).1, fun hv => (witness_vbufCap hv (by decide)).2⟩
  unfold holdsBlock blockRun
  decide +kernel

theorem witness_RankLookupGivesTheValue :
    State.reset.efb = none ∧ holdsBlock withBlock [5, 8, 20, 37] ∧
    ([5, 8, 20, 37] : List Word).length ≤ (4 : Word).toNat ∧ ([5, 8, 20, 37] : List Word)[(3 : Word).toNat]? = some 37 := by
  unfold holdsBlock blockRun
  decide +kernel

theorem witness_BlockMembershipIsExact : State.reset.efb = none ∧ holdsBlock withBlock [5, 8, 20, 37] := by
  unfold holdsBlock blockRun
  decide +kernel

/-- Clauses: block size 0; a falling run; a rising run. -/
theorem witness_BuildCommandChecksThenBuilds :
    slotOk 2 = true ∧ (4 : BitVec 32) ≠ 0 ∧
    (holdsRun (values [1, 2, 2, 1]) [1, 2, 2, 1] ∧ nonDecreasing [1, 2, 2, 1] = false) ∧
    holdsRun (values [5, 8, 20, 37, 40]) [5, 8, 20, 37, 40] ∧ nonDecreasing [5, 8, 20, 37, 40] = true := by
  unfold holdsRun
  decide +kernel

/-- No values fit every capacity; V40's payload of 104 bytes fits where `BYTE_CAP` is 104, and not where it is 103. -/
theorem witness_sequenceFits :
    sequenceFits [] 4 ∧
    (Config.wordCap = some 1 → Config.byteCap = some 104 → sequenceFits [5, 8, 20, 37, 40] 4) ∧
    (Config.byteCap = some 103 → ¬ sequenceFits [5, 8, 20, 37, 40] 4) ∧
    (Config.wordCap = some 0 → ¬ sequenceFits [5, 8, 20, 37, 40] 4) := by
  refine ⟨by unfold sequenceFits; decide +kernel, fun hw hb => ?_, fun hb => ?_, fun hw => ?_⟩
  · unfold sequenceFits blocksFit fitsBytes fitsWords
    rw [hw, hb]
    decide +kernel
  · have h : fitsBytes (seqBuild [5, 8, 20, 37, 40] 4).payload.length = false := by
      unfold fitsBytes
      rw [hb]
      decide +kernel
    exact fun hf => Bool.noConfusion (h.symm.trans hf.2.1)
  · have h : blocksFit (seqBlocks [5, 8, 20, 37, 40] (4 : BitVec 32).toNat) = false := by
      unfold blocksFit fitsWords
      rw [hw]
      decide +kernel
    exact fun hf => Bool.noConfusion (h.symm.trans hf.2.2)

/-- The empty Sequence, one block partly filled, two blocks. -/
theorem witness_buildable : buildable [] 256 ∧ buildable [7] 256 ∧ buildable [5, 8, 20, 37, 40] 4 := by
  unfold buildable
  decide +kernel

theorem witness_BuiltSequenceMeetsTheInvariants :
    buildable [] 256 ∧ (seqBuild [] 256).nBlocks.toNat = 0 ∧ buildable [5, 8, 20, 37, 40] 4 ∧
    0 + 1 < (seqBuild [5, 8, 20, 37, 40] 4).nBlocks.toNat := by
  unfold buildable
  decide +kernel

theorem witness_ContainerLawsHold : buildable [5, 8, 20, 37, 40] 4 := witness_buildable.2.2

/-- Slot 0 holds a Sequence, slot 1 nothing. -/
theorem witness_slots :
    slotOk 0 = true ∧ slotOk 1 = true ∧ holdsSequence withSlot 0 [5, 8, 20, 37, 40] 4 ∧ emptySlot withSlot 1 := by
  unfold holdsSequence buildable emptySlot
  decide +kernel

theorem witness_ScalarQueriesGiveTheHeader :
    slotOk 0 = true ∧ holdsSequence withSlot 0 [5, 8, 20, 37, 40] 4 ∧ emptySlot withSlot 1 := witness_slots.2

/-- Clauses: the first block past the end, and the last block, with room for its arrays and without. -/
theorem witness_LoadBlockGivesTheBlock :
    holdsSequence withSlot 0 [5, 8, 20, 37, 40] 4 ∧
    ceilDiv ([5, 8, 20, 37, 40] : List Word).length (4 : BitVec 32).toNat ≤ (2 : Word).toNat ∧
    (1 : Word).toNat < ceilDiv ([5, 8, 20, 37, 40] : List Word).length (4 : BitVec 32).toNat ∧
    (Config.wordCap = some 1 → blockFits (efEncode (blockOf [5, 8, 20, 37, 40] 4 1))) ∧
    (Config.wordCap = some 0 → ¬ blockFits (efEncode (blockOf [5, 8, 20, 37, 40] 4 1))) := by
  refine ⟨witness_slots.2.2.1, by decide, by decide, fun hw => ?_, fun hw => ?_⟩ <;> unfold blockFits fitsWords <;>
    rw [hw] <;> decide +kernel

/-- A slot in use and an empty one; room for no values at every capacity; room for five values and not for them. -/
theorem witness_DecodeSequenceRestoresTheValues :
    holdsSequence withSlot 0 [5, 8, 20, 37, 40] 4 ∧ emptySlot withSlot 1 ∧ buildable [] 4 ∧
    fitsValues ([] : List Word).length = true ∧
    (Config.vbufCap = some 5 → fitsValues ([5, 8, 20, 37, 40] : List Word).length = true) ∧
    (Config.vbufCap = some 4 → fitsValues ([5, 8, 20, 37, 40] : List Word).length = false) :=
  ⟨witness_slots.2.2.1, witness_slots.2.2.2, by unfold buildable; decide +kernel, by decide,
    fun hv => (witness_vbufCap hv (by decide)).1, fun hv => (witness_vbufCap hv (by decide)).2⟩

theorem witness_DecodeBlockRestoresItsValues :
    holdsSequence withSlot 0 [5, 8, 20, 37, 40] 4 ∧
    ceilDiv ([5, 8, 20, 37, 40] : List Word).length (4 : BitVec 32).toNat ≤ (2 : Word).toNat ∧
    (1 : Word).toNat < ceilDiv ([5, 8, 20, 37, 40] : List Word).length (4 : BitVec 32).toNat ∧
    (Config.vbufCap = some 1 → fitsValues (blockOf [5, 8, 20, 37, 40] 4 1).length = true) ∧
    (Config.vbufCap = some 0 → fitsValues (blockOf [5, 8, 20, 37, 40] 4 1).length = false) :=
  ⟨witness_slots.2.2.1, by decide, by decide, fun hv => (witness_vbufCap hv (by decide)).1,
    fun hv => (witness_vbufCap hv (by decide)).2⟩

/-- Clauses: the last index and the first beyond. -/
theorem witness_IndexLookupGivesTheValue :
    holdsSequence withSlot 0 [5, 8, 20, 37, 40] 4 ∧ emptySlot withSlot 1 ∧
    ([5, 8, 20, 37, 40] : List Word).length ≤ (5 : Word).toNat ∧ ([5, 8, 20, 37, 40] : List Word)[(4 : Word).toNat]? = some 40 :=
  ⟨witness_slots.2.2.1, witness_slots.2.2.2, by decide⟩

theorem witness_SequenceMembershipIsExact :
    holdsSequence withSlot 0 [5, 8, 20, 37, 40] 4 ∧ emptySlot withSlot 1 := witness_slots.2.2

theorem witness_SeekFindsTheFirstBlock : nonDecreasing seqA.blockLast = true ∧ seqA.blockLast.length = seqA.nBlocks.toNat := by
  decide

/-- A slot in use and an empty one; room for the 176 bytes and not for them. -/
theorem witness_SaveWritesTheImage :
    holdsSequence withSlot 0 [5, 8, 20, 37, 40] 4 ∧ emptySlot withSlot 1 ∧
    serialize (seqBuild [5, 8, 20, 37, 40] 4) = imageA ∧ (Config.byteCap = some 176 → fitsBytes imageA.length = true) ∧
    (Config.byteCap = some 175 → fitsBytes imageA.length = false) :=
  ⟨witness_slots.2.2.1, witness_slots.2.2.2, by decide +kernel, fun hb => (witness_byteCap hb (by decide)).1,
    fun hb => (witness_byteCap hb (by decide)).2⟩

theorem witness_LoadRestoresASavedImage :
    slotOk 1 = true ∧ buildable [5, 8, 20, 37, 40] 4 ∧ holdsImage (image imageA) (serialize (seqBuild [5, 8, 20, 37, 40] 4)) := by
  unfold buildable holdsImage
  decide +kernel

theorem witness_SaveAndLoadAreInverse :
    slotOk 0 = true ∧ slotOk 1 = true ∧ withSlot.err = .noFault ∧ holdsSequence withSlot 0 [5, 8, 20, 37, 40] 4 ∧
    (loadImage imageA).toOption = some seqA ∧
    (Config.byteCap = some 176 → fitsBytes (serialize (seqBuild [5, 8, 20, 37, 40] 4)).length = true) := by
  refine ⟨by decide, by decide, by decide, witness_slots.2.2.1, by decide +kernel, fun hb => ?_⟩
  rw [witness_SaveWritesTheImage.2.2.1]
  exact witness_SaveWritesTheImage.2.2.2.1 hb

/-- An 8-byte scalar inside V40's image. -/
theorem witness_ScalarsAreLittleEndian : 72 + 8 ≤ imageA.length ∧ memRead imageA 72 8 = 0x300000004 ∧ 255 < 2 ^ (8 * 1) := by
  decide

/-- The image of V40 reaches the last case; `test_sqload_checks` reaches each of the others. -/
theorem witness_LoadRunsTheElevenChecks :
    slotOk 1 = true ∧ holdsImage (image imageA) imageA ∧
    chainOffset (imageA.drop 72) (imageOffset imageA 2) 2 = (imageA.drop 72).length := by
  unfold holdsImage
  decide +kernel

/-- V120's slots, and an empty third one; room for the result's 56 bytes and not for them; no values fit every capacity. -/
theorem witness_IntersectionIsTheMultisetIntersection :
    slotOk 2 = true ∧ holdsSequence withTwo 0 [1, 3, 4, 6, 10, 11, 12, 13] 2 ∧ holdsSequence withTwo 1 [2, 4, 5, 9, 11, 15] 3 ∧
    emptySlot withTwo 2 ∧ sequenceFits (intersectValues [] []) 2 ∧
    (Config.wordCap = some 1 → Config.byteCap = some 56 →
      sequenceFits (intersectValues [1, 3, 4, 6, 10, 11, 12, 13] [2, 4, 5, 9, 11, 15]) 2) ∧
    (Config.byteCap = some 55 → ¬ sequenceFits (intersectValues [1, 3, 4, 6, 10, 11, 12, 13] [2, 4, 5, 9, 11, 15]) 2) := by
  refine ⟨by decide, ?_, ?_, ?_, ?_, fun hw hb => ?_, fun hb => ?_⟩
  · unfold holdsSequence buildable
    decide +kernel
  · unfold holdsSequence buildable
    decide +kernel
  · unfold emptySlot
    decide
  · unfold sequenceFits
    decide +kernel
  · unfold sequenceFits blocksFit fitsBytes fitsWords
    rw [hw, hb]
    decide +kernel
  · have h : fitsBytes (seqBuild (intersectValues [1, 3, 4, 6, 10, 11, 12, 13] [2, 4, 5, 9, 11, 15]) 2).payload.length = false := by
      unfold fitsBytes
      rw [hb]
      decide +kernel
    exact fun hf => Bool.noConfusion (h.symm.trans hf.2.1)

/-- V120's slots, and an empty third one; room for the result's 288 bytes and not for them; no values fit every capacity. -/
theorem witness_UnionIsTheSetUnion :
    slotOk 2 = true ∧ holdsSequence withTwo 0 [1, 3, 4, 6, 10, 11, 12, 13] 2 ∧ holdsSequence withTwo 1 [2, 4, 5, 9, 11, 15] 3 ∧
    emptySlot withTwo 2 ∧ sequenceFits (unionValues [] []) 2 ∧
    (Config.wordCap = some 1 → Config.byteCap = some 288 →
      sequenceFits (unionValues [1, 3, 4, 6, 10, 11, 12, 13] [2, 4, 5, 9, 11, 15]) 2) ∧
    (Config.byteCap = some 287 → ¬ sequenceFits (unionValues [1, 3, 4, 6, 10, 11, 12, 13] [2, 4, 5, 9, 11, 15]) 2) := by
  refine ⟨by decide, ?_, ?_, ?_, ?_, fun hw hb => ?_, fun hb => ?_⟩
  · unfold holdsSequence buildable
    decide +kernel
  · unfold holdsSequence buildable
    decide +kernel
  · unfold emptySlot
    decide
  · unfold sequenceFits
    decide +kernel
  · unfold sequenceFits blocksFit fitsBytes fitsWords
    rw [hw, hb]
    decide +kernel
  · have h : fitsBytes (seqBuild (unionValues [1, 3, 4, 6, 10, 11, 12, 13] [2, 4, 5, 9, 11, 15]) 2).payload.length = false := by
      unfold fitsBytes
      rw [hb]
      decide +kernel
    exact fun hf => Bool.noConfusion (h.symm.trans hf.2.1)

theorem witness_BlockScheduleRefinesIntersection : buildable [3, 3, 5, 5, 5, 9] 4 ∧ buildable [3, 5, 5, 7] 4 := by
  unfold buildable
  decide +kernel

/-- Both clauses: the first operand is not canonical; the second is not, after a canonical first. -/
theorem witness_NonCanonicalSlotsAreRefused :
    Instr.wf (.sqand 2 0 1) = true ∧ (slotReads (.sqhas 1 5)).head? = some 1 ∧ slotReads (.sqand 2 0 1) = [0, 1] ∧
    isCanonical badSeq = false ∧ isCanonical seqA = true ∧
    cellsRead ({ State.reset with slots := [(0, seqA), (1, badSeq)] } : State).slots (1 : BitVec 8).toNat = some badSeq ∧
    cellsRead ({ State.reset with slots := [(0, seqA), (1, badSeq)] } : State).slots (0 : BitVec 8).toNat = some seqA := by
  decide +kernel

/-- A block with a wrong low width; a value and a byte below the length that nothing wrote. -/
theorem witness_UnspecifiedInputsStop :
    isValidBlock { blockA with l := 2 } = false ∧ 1 < (2 : Word).toNat ∧ cellsRead [(0, (5 : Word))] 1 = none ∧
    slotOk 0 = true ∧ (4 : BitVec 32) ≠ 0 ∧ cellsRead ([] : Memory) 0 = none := by
  decide +kernel

/-- A buffer of values, an image, a slot in use and an empty one. -/
theorem witness_HostReadsBuffersAndMetadata :
    holdsRun (values [5, 8]) [5, 8] ∧ cellsWf (values [5, 8]).vbuf = true ∧ holdsImage (image imageA) imageA ∧
    cellsWf (image imageA).bytes = true ∧ holdsSequence withSlot 0 [5, 8, 20, 37, 40] 4 ∧ emptySlot withSlot 1 := by
  refine ⟨?_, ?_, ?_, ?_, witness_slots.2.2⟩ <;> first | unfold holdsRun | unfold holdsImage | skip
  all_goals decide +kernel

/-- Clauses: the four writes, the lengths 0 and 1 among them; a write beyond a capacity; a write to a halted core. -/
theorem witness_HostWritesTheBuffers :
    (ported [.writeValue 0 7]).port = .writeValue 0 7 :: [] ∧ (ported [.writeVlen 1]).port = .writeVlen 1 :: [] ∧
    (ported [.writeByte 39 7]).port = .writeByte 39 7 :: [] ∧ (ported [.writeBlen 0]).port = .writeBlen 0 :: [] ∧
    (ported []).err = .noFault ∧ fitsValues (0 : Word).toNat = true ∧ fitsBytes (0 : Word).toNat = true ∧
    (Config.vbufCap = some 1 → fitsValues ((0 : Word).toNat + 1) = true ∧ fitsValues (1 : Word).toNat = true) ∧
    (Config.byteCap = some 40 → fitsBytes ((39 : Word).toNat + 1) = true) ∧
    (Config.vbufCap = some 0 → fitsValues ((0 : Word).toNat + 1) = false ∧ fitsValues (1 : Word).toNat = false) ∧
    (Config.byteCap = some 39 → fitsBytes ((39 : Word).toNat + 1) = false ∧ fitsBytes (40 : Word).toNat = false) ∧
    (halted [.writeVlen 1]).err ≠ .noFault ∧ (halted [.writeVlen 1]).port = .writeVlen 1 :: [] := by
  refine ⟨by decide, by decide, by decide, by decide, by decide, by decide, by decide, fun hv => ?_, fun hb => ?_, fun hv => ?_,
    fun hb => ?_, by decide, by decide⟩
  · exact ⟨(witness_vbufCap hv (by decide)).1, (witness_vbufCap hv (by decide)).1⟩
  · exact (witness_byteCap hb (by decide)).1
  · exact ⟨(witness_vbufCap hv (by decide)).2, (witness_vbufCap hv (by decide)).2⟩
  · exact ⟨(witness_byteCap hb (by decide)).2, (witness_byteCap hb (by decide)).2⟩

/-- A state that meets every invariant and answers a next state that is not itself. -/
theorem witness_StepsKeepTheInvariants :
    memoryForm (ported [.command 0x0000000000000003000000000000000502]) ∧
    writerOk (ported [.command 0x0000000000000003000000000000000502]).writer ∧
    blockRegisterOk (ported [.command 0x0000000000000003000000000000000502]) ∧
    withinCapacities (ported [.command 0x0000000000000003000000000000000502]) ∧
    slotsShaped (ported [.command 0x0000000000000003000000000000000502]) ∧
    gives (step (ported [.command 0x0000000000000003000000000000000502])) (fun t => decide (t.writer.cur = 5)) = true := by
  refine ⟨⟨rfl, rfl, rfl⟩, by unfold writerOk; decide, fun b h => by simp [ported, State.reset] at h,
    ⟨by decide, by decide, fun b h => by simp [ported, State.reset] at h, by decide, by decide, fun k q h => ?_⟩,
    fun k q h => ?_, by decide +kernel⟩ <;>
  simp [ported, State.reset] at h

/-- The block register and a slot of a state in use meet their invariants. -/
theorem witness_StepsKeepTheBlockRegisterValid : isValidBlock blockA = true ∧ withBlock.efb = some blockA := by decide +kernel

theorem witness_StepsKeepTheSlotsShaped : slotShape seqA := by
  refine ⟨by decide, by decide, by decide, by decide, by decide, fun b hb => ?_, by decide⟩
  have h : b = 0 ∨ b = 1 := by
    have : seqA.nBlocks.toNat = 2 := rfl
    omega
  obtain rfl | rfl := h <;> decide +kernel

/-- A command of each shape answers a next state: register only, storing, faulting. -/
theorem witness_Frames :
    gives (exec (.scan 3) State.reset) (fun _ => true) = true ∧ gives (exec (.sqhas 0 5) withSlot) (fun _ => true) = true ∧
    gives (exec (.sqbuild 1 4) State.reset) (fun s => decide (s.slots.length = 1)) = true ∧
    gives (exec (.sqload 1) (image imageA)) (fun _ => true) = true ∧
    gives (exec (.sqget 0 5) withSlot) (fun _ => true) = true := by
  decide +kernel

/-- A run that succeeds, and one whose first command faults, with a reset after it: no good run (R24, R338). -/
theorem witness_goodRun :
    goodRun (ported [.command 0x0000000000000003000000000000000502]) ∧
    ¬ goodRun (ported [.command 0x0000000000000000000000000000000010, .reset]) := by
  refine ⟨⟨rfl, _, rfl, rfl, rfl⟩, ?_⟩
  rintro ⟨-, t, ht, he, -⟩
  have h : gives (step (ported [.command 0x0000000000000000000000000000000010, .reset]))
      (fun t => decide (t.err = .noFault)) = false := by decide +kernel
  rw [ht] at h
  simp only [gives, decide_eq_false_iff_not] at h
  exact h he

/-- A run ends at its first fault, and the commands after it have no effect (R24, R331). -/
theorem witness_execAll_fault :
    gives (execAll [.flog2 0, .scan 9] State.reset) (fun t => decide (t.err = .illegal ∧ t.reader.pos = 0)) = true := by
  decide +kernel

end Sys2Proof.Tests
end

namespace Sys2Proof.Machine

/-! ### Little-endian scalars (R16, R74) -/

/-- The recursion of `leValue` unrolled: byte `k` weighs `2^(8k)`. -/
theorem leValue_eq_sum (xs : List Byte) :
    leValue xs = ((List.range xs.length).map fun k => (xs.getD k 0).toNat * 2 ^ (8 * k)).sum := by
  induction xs with
  | nil => rfl
  | cons x xs ih =>
    have weight : ∀ k, 2 ^ (8 * (k + 1)) = 256 * 2 ^ (8 * k) := fun k => by rw [Nat.mul_succ, Nat.pow_add, mul_comm]
    rw [leValue, ih, List.length_cons, List.range_succ_eq_map, List.map_cons, List.map_map, List.sum_cons,
      ← List.sum_map_mul_left]
    simp [Function.comp_def, weight, mul_left_comm]

theorem memRead_eq_sum {bs : List Byte} {addr n : Nat} (h : addr + n ≤ bs.length) :
    memRead bs addr n = ((List.range n).map fun k => (bs.getD (addr + k) 0).toNat * 2 ^ (8 * k)).sum := by
  have hlen : ((bs.drop addr).take n).length = n := by
    rw [List.length_take, List.length_drop]
    omega
  rw [memRead, leValue_eq_sum, hlen]
  congr 1
  refine List.map_congr_left fun k hk => ?_
  simp [List.getD_eq_getElem?_getD, List.mem_range.1 hk]

@[simp] theorem length_leBytes (n v : Nat) : (leBytes n v).length = n := by
  induction n generalizing v with
  | zero => rfl
  | succ n ih => simp [leBytes, ih]

/-- Byte `k` is the value's base-256 digit `k`. -/
theorem toNat_getD_leBytes {n k : Nat} (h : k < n) (v : Nat) :
    ((leBytes n v).getD k 0).toNat = v / 2 ^ (8 * k) % 256 := by
  induction n generalizing v k with
  | zero => omega
  | succ n ih =>
    cases k with
    | zero => simp [leBytes]
    | succ k =>
      rw [leBytes, List.getD_cons_succ, ih (by omega), Nat.div_div_eq_div_mul, Nat.mul_succ, Nat.pow_add, Nat.mul_comm]

theorem leValue_leBytes (n v : Nat) : leValue (leBytes n v) = v % 2 ^ (8 * n) := by
  induction n generalizing v with
  | zero => simp [leBytes, leValue, Nat.mod_one]
  | succ n ih =>
    rw [leBytes, leValue, ih, BitVec.toNat_ofNat, Nat.mul_succ, Nat.add_comm (8 * n), Nat.pow_add, Nat.mod_mul]

theorem memRead_leBytes {n v : Nat} (h : v < 2 ^ (8 * n)) : memRead (leBytes n v) 0 n = v := by
  rw [memRead, List.drop_zero, List.take_of_length_le (length_leBytes n v).le, leValue_leBytes, Nat.mod_eq_of_lt h]

/-- Settles O40: reading by the sum of the bytes, storing by induction on the width. -/
theorem scalarsAreLittleEndian : Obligations.ScalarsAreLittleEndian := fun n =>
  ⟨fun _ _ h => memRead_eq_sum h, fun v =>
    ⟨length_leBytes n v, fun _ hk => toNat_getD_leBytes hk v, memRead_leBytes⟩⟩

/-! ### Lengths -/

/-- A run read whole has the length asked for, whatever the cells' form. -/
theorem length_of_cellsRun {α : Type} {m : Cells α} {a n : Nat} {vs : List α} (h : cellsRun m a n = some vs) :
    vs.length = n := by
  induction n generalizing m a vs with
  | zero => cases m <;> simp_all [cellsRun]
  | succ n ih =>
    cases m with
    | nil => simp [cellsRun] at h
    | cons c m =>
      obtain ⟨-, ws, hrun, rfl⟩ : c.1 = a ∧ ∃ ws, cellsRun m (a + 1) n = some ws ∧ c.2 :: ws = vs := by
        simpa [cellsRun] using h
      simp [ih hrun]

/-- What passes a check of R284 goes on to the next. -/
theorem ok_of_check {c : Prop} [Decidable c] {n : Nat} {go : Except Nat Sequence} {q : Sequence}
    (h : (if c then .error n else go) = .ok q) : go = .ok q := by
  split at h
  · cases h
  · exact h

/-- A loaded Sequence's payload is the end of its image (R283). -/
theorem payload_of_loadImage {img : List Byte} {q : Sequence} (h : loadImage img = .ok q) :
    q.payload = img.drop (memRead img 32 8) := by
  unfold loadImage at h
  iterate 8 replace h := ok_of_check h
  dsimp only at h
  split at h
  · cases h
  · replace h := ok_of_check h
    split at h
    · cases h
      rfl
    · cases h

/-- `PUT` keeps the words, or appends one (R141). -/
theorem length_words_writerPut (wr : Writer) (val w : Nat) :
    (writerPut wr val w).words.length = if putAppends wr w then wr.words.length + 1 else wr.words.length := by
  unfold writerPut putAppends
  split
  · simp [*]
  · split <;> simp [*]

/-- `FLUSH` keeps the words, or appends one (R143). -/
theorem length_words_writerFlush (wr : Writer) :
    (writerFlush wr).words.length = if wr.filled.toNat = 0 then wr.words.length else wr.words.length + 1 := by
  unfold writerFlush
  by_cases h : wr.filled.toNat = 0
  · simp [h]
  · simp [h, Nat.pos_of_ne_zero h]

/-! ### Well-formedness of what ran -/

/-- A command that had its effect passed the form check (R102 steps 3 and 4). -/
theorem wf_of_exec_next {i : Instr} {s t : State} (h : exec i s = .next t) : Faulted s t ∨ i.wf = true := by
  cases i with
  | wclr | flush | scan | flog2 | cdiv | ctz | next1 | efenc | efdec | efat | efhas => exact .inr rfl
  | put | rbind | get | sqbuild | sqlen | sqbsz | sqnblk | sqdec | sqdecb | sqget | sqhas | sqldb | sqser | sqload
  | sqand | sqor => exact (checkForm_cases h).symm.imp_right And.left

/-- A buffer or length write of the host that answers a next state passed its capacity test (R337). -/
theorem hostWrite_require_next {s t u : State} {fits : Bool} {c : Capacity}
    (h : hostWrite s (require fits c (.next u)) = .next t) : fits = true ∧ u = t := by
  obtain ⟨-, h⟩ := hostWrite_next h
  obtain ⟨hfits, h⟩ := require_next h
  exact ⟨hfits, Host.Outcome.next.inj h⟩

end Sys2Proof.Machine

namespace Sys2Proof.Safety

open Sys2Proof.Machine

section

variable {s t : State}

/-! ### The capacity invariant, one rule per state update (R9) -/

theorem withinCapacities_setRes (hs : withinCapacities s) (n : Nat) : withinCapacities (s.setRes n) := hs

theorem withinCapacities_setT (hs : withinCapacities s) (x : Bool) : withinCapacities (s.setT x) := hs

theorem withinCapacities_setFault (hs : withinCapacities s) (kind : ErrKind) (info : Nat) :
    withinCapacities (s.setFault kind info) := hs

theorem withinCapacities_setPort (hs : withinCapacities s) (moves : List PortMove) :
    withinCapacities (s.setPort moves) := hs

theorem withinCapacities_setFound (hs : withinCapacities s) (found : Option Nat) :
    withinCapacities (s.setFound found) := by
  cases found <;> exact hs

theorem withinCapacities_setWriter (hs : withinCapacities s) {wr : Writer} (hw : fitsWords wr.words.length = true) :
    withinCapacities (s.setWriter wr) := ⟨hw, hs.2⟩

theorem withinCapacities_setReader (hs : withinCapacities s) {rd : Reader} (hr : fitsWords rd.words.length = true) :
    withinCapacities (s.setReader rd) := ⟨hs.1, hr, hs.2.2⟩

theorem withinCapacities_setEfb (hs : withinCapacities s) {blk : EFBlock} (hb : blockFits blk) :
    withinCapacities (s.setEfb blk) := by
  obtain ⟨hwriter, hreader, -, hrest⟩ := hs
  refine ⟨hwriter, hreader, fun b h => ?_, hrest⟩
  cases h
  exact hb

theorem withinCapacities_setVbuf (hs : withinCapacities s) {n : Word} (hn : fitsValues n.toNat = true)
    (vbuf : Cells Word) : withinCapacities { s with vlen := n, vbuf := vbuf } := by
  obtain ⟨hwriter, hreader, hefb, -, hrest⟩ := hs
  exact ⟨hwriter, hreader, hefb, hn, hrest⟩

theorem withinCapacities_setByteBuffer (hs : withinCapacities s) {n : Word} (hn : fitsBytes n.toNat = true)
    (bytes : Memory) : withinCapacities { s with blen := n, bytes := bytes } := by
  obtain ⟨hwriter, hreader, hefb, hvlen, -, hslots⟩ := hs
  exact ⟨hwriter, hreader, hefb, hvlen, hn, hslots⟩

theorem withinCapacities_setValues (hs : withinCapacities s) {vs : List Word} (hv : fitsValues vs.length = true) :
    withinCapacities (s.setValues vs) :=
  withinCapacities_setVbuf hs (fitsValues_mono (Nat.mod_le ..) hv) _

theorem withinCapacities_setBytes (hs : withinCapacities s) {img : List Byte} (hi : fitsBytes img.length = true) :
    withinCapacities (s.setBytes img) :=
  withinCapacities_setByteBuffer hs (fitsBytes_mono (Nat.mod_le ..) hi) _

theorem withinCapacities_setSlot (hs : withinCapacities s) {k : BitVec 8} {q : Sequence} (hk : slotOk k = true)
    (hq : fitsBytes q.payload.length = true) : withinCapacities (s.setSlot k q) := by
  obtain ⟨hwriter, hreader, hefb, hvlen, hblen, hslots⟩ := hs
  refine ⟨hwriter, hreader, hefb, hvlen, hblen, fun j p h => ?_⟩
  rw [State.setSlot_slots] at h
  by_cases hj : j = k.toNat
  · subst hj
    rw [cellsRead_write_same, Option.some.injEq] at h
    exact h ▸ ⟨of_decide_eq_true hk, hq⟩
  · exact hslots j p (cellsRead_write_other s.slots q hj ▸ h)

theorem withinCapacities_resetCore (s : State) : withinCapacities (resetCore s) :=
  ⟨rfl, rfl, fun _ h => absurd h (Option.some_ne_none _).symm, rfl, rfl,
    fun _ _ h => absurd h (Option.some_ne_none _).symm⟩

/-! ### The stores -/

theorem withinCapacities_storeValues (hs : withinCapacities s) {vs : List Word} (h : storeValues vs s = .next t) :
    withinCapacities t := by
  obtain ⟨hv, rfl⟩ := storeValues_next h
  exact withinCapacities_setValues hs hv

theorem withinCapacities_storeBlock (hs : withinCapacities s) {blk : EFBlock} (h : storeBlock blk s = .next t) :
    withinCapacities t := by
  obtain ⟨hlow, hhigh, rfl⟩ := storeBlock_next h
  exact withinCapacities_setEfb hs ⟨hlow, hhigh⟩

theorem withinCapacities_storeSequence (hs : withinCapacities s) {k : BitVec 8} {vs : List Word} {bsz : BitVec 32}
    (hk : slotOk k = true) (h : storeSequence k vs bsz s = .next t) : withinCapacities t := by
  obtain ⟨-, hq, -, rfl⟩ := storeSequence_next h
  exact withinCapacities_setSlot hs hk hq

/-! ### The Writer, the Reader and a loaded image -/

theorem fitsWords_writer (hs : withinCapacities s) : fitsWords s.writer.words.length = true := hs.1

theorem fitsWords_reader (hs : withinCapacities s) : fitsWords s.reader.words.length = true := hs.2.1

theorem fitsWords_writerPut (hs : withinCapacities s) {val w : Nat}
    (hf : putAppends s.writer w = true → fitsWords (s.writer.words.length + 1) = true) :
    fitsWords (writerPut s.writer val w).words.length = true := by
  rw [length_words_writerPut]
  split
  · exact hf ‹_›
  · exact fitsWords_writer hs

theorem fitsWords_writerFlush (hs : withinCapacities s)
    (hf : s.writer.filled.toNat ≠ 0 → fitsWords (s.writer.words.length + 1) = true) :
    fitsWords (writerFlush s.writer).words.length = true := by
  rw [length_words_writerFlush]
  split
  · exact fitsWords_writer hs
  · exact hf ‹_›

/-- The snapshot `RBIND` takes of the block register fits, since the block does (R146). -/
theorem fitsWords_blockSource (hs : withinCapacities s) {blk : EFBlock} (hb : s.efb = some blk) (src : BitVec 2) :
    fitsWords (if src.toNat = 1 then blk.low else blk.high).length = true := by
  obtain ⟨-, -, hefb, -⟩ := hs
  obtain ⟨hlow, hhigh⟩ := hefb blk hb
  split
  · exact hlow
  · exact hhigh

/-- `SQLOAD` needs no capacity test of its own: the payload is a part of `BYTES` (notes/assumptions/5.md). -/
theorem fitsBytes_loadedPayload (hs : withinCapacities s) {img : List Byte} {q : Sequence}
    (hi : cellsRun s.bytes 0 s.blen.toNat = some img) (hq : loadImage img = .ok q) :
    fitsBytes q.payload.length = true := by
  obtain ⟨-, -, -, -, hblen, -⟩ := hs
  refine fitsBytes_mono ?_ hblen
  rw [payload_of_loadImage hq, List.length_drop, length_of_cellsRun hi]
  exact Nat.sub_le ..

/-! ### Commands, the host's moves, steps -/

theorem effect_withinCapacities {i : Instr} (hs : withinCapacities s) (hw : i.wf = true) (h : Effect s t i) :
    withinCapacities t := by
  cases i with
  | wclr => exact h ▸ withinCapacities_setWriter hs rfl
  | put val w =>
    obtain ⟨hf, rfl⟩ := h
    exact withinCapacities_setWriter hs (fitsWords_writerPut hs hf)
  | flush =>
    obtain ⟨hf, rfl⟩ := h
    exact withinCapacities_setWriter hs (fitsWords_writerFlush hs hf)
  | rbind src =>
    obtain ⟨-, rfl⟩ | ⟨blk, hb, -, rfl⟩ := h
    · exact withinCapacities_setReader hs (fitsWords_writer hs)
    · exact withinCapacities_setReader hs (fitsWords_blockSource hs hb src)
  | get w =>
    obtain ⟨-, rfl⟩ := h
    exact withinCapacities_setReader (withinCapacities_setRes hs _) (fitsWords_reader hs)
  | scan off => exact h ▸ withinCapacities_setReader hs (fitsWords_reader hs)
  | flog2 x | ctz x =>
    obtain ⟨k, -, rfl⟩ := h
    exact withinCapacities_setRes hs k
  | cdiv n d =>
    obtain ⟨-, -, rfl⟩ := h
    exact withinCapacities_setRes hs _
  | next1 pos => exact h ▸ withinCapacities_setFound hs _
  | efenc =>
    obtain ⟨vs, -, -, -, -, hlow, hhigh, rfl⟩ := h
    exact withinCapacities_setEfb hs ⟨hlow, hhigh⟩
  | efdec =>
    obtain ⟨blk, -, -, hv, rfl⟩ := h
    exact withinCapacities_setValues hs hv
  | efat r =>
    obtain ⟨blk, v, -, -, -, -, rfl⟩ := h
    exact withinCapacities_setRes hs _
  | efhas v =>
    obtain ⟨blk, -, -, rfl⟩ := h
    exact withinCapacities_setT hs _
  | sqlen k | sqbsz k | sqnblk k =>
    obtain ⟨q, -, -, rfl⟩ := h
    exact withinCapacities_setRes hs _
  | sqget k n =>
    obtain ⟨q, v, -, -, -, -, rfl⟩ := h
    exact withinCapacities_setRes hs _
  | sqhas k v =>
    obtain ⟨q, -, -, rfl⟩ := h
    exact withinCapacities_setT hs _
  | sqdec k =>
    obtain ⟨q, -, -, hstore⟩ := h
    exact withinCapacities_storeValues hs hstore
  | sqdecb k blk =>
    obtain ⟨q, -, -, -, hstore⟩ := h
    exact withinCapacities_storeValues hs hstore
  | sqldb k blk =>
    obtain ⟨q, -, -, -, hstore⟩ := h
    exact withinCapacities_storeBlock hs hstore
  | sqser k =>
    obtain ⟨q, -, -, hi, rfl⟩ := h
    exact withinCapacities_setBytes hs hi
  | sqload k =>
    obtain ⟨img, q, hi, hq, rfl⟩ := h
    exact withinCapacities_setSlot hs hw (fitsBytes_loadedPayload hs hi hq)
  | sqbuild k bsz =>
    obtain ⟨vs, -, -, -, hstore⟩ := h
    exact withinCapacities_storeSequence hs hw hstore
  | sqand d l r | sqor d l r =>
    obtain ⟨p, q, -, -, -, -, hstore⟩ := h
    obtain ⟨⟨hd, -⟩, -⟩ : (slotOk d = true ∧ slotOk l = true) ∧ slotOk r = true := by simpa [Instr.wf] using hw
    exact withinCapacities_storeSequence hs hd hstore

theorem exec_withinCapacities {i : Instr} (hs : withinCapacities s) (h : exec i s = .next t) : withinCapacities t := by
  obtain ⟨kind, info, -, rfl⟩ | hw := wf_of_exec_next h
  · exact withinCapacities_setFault hs kind info
  · obtain ⟨kind, info, -, rfl⟩ | heffect := exec_next h
    · exact withinCapacities_setFault hs kind info
    · exact effect_withinCapacities hs hw heffect

theorem runCommand_withinCapacities {c : CommandWord} (hs : withinCapacities s) (h : runCommand c s = .next t) :
    withinCapacities t := by
  obtain ⟨-, rfl⟩ | ⟨-, ⟨r, -, rfl⟩ | ⟨i, -, hi⟩⟩ := runCommand_next h
  · exact hs
  · exact withinCapacities_setFault hs _ _
  · exact exec_withinCapacities hs hi

theorem perform_withinCapacities {m : PortMove} (hs : withinCapacities s) (h : perform m s = .next t) :
    withinCapacities t := by
  cases m with
  | command c => exact runCommand_withinCapacities hs h
  | writeValue i v =>
    obtain ⟨-, rfl⟩ := hostWrite_require_next h
    exact hs
  | writeVlen n =>
    obtain ⟨hn, rfl⟩ := hostWrite_require_next h
    exact withinCapacities_setVbuf hs hn _
  | writeByte i x =>
    obtain ⟨-, rfl⟩ := hostWrite_require_next h
    exact hs
  | writeBlen n =>
    obtain ⟨hn, rfl⟩ := hostWrite_require_next h
    exact withinCapacities_setByteBuffer hs hn _
  | reset =>
    cases h
    exact withinCapacities_resetCore s

end

/-- Settles O55, by the cases of a step and the capacity test each lengthening command makes. -/
theorem stepsStayWithinCapacities : Obligations.StepsStayWithinCapacities := by
  intro s t hs h
  obtain ⟨-, rfl⟩ | ⟨m, moves, -, hm⟩ := step_next h
  · exact hs
  · exact perform_withinCapacities (withinCapacities_setPort hs moves) hm

end Sys2Proof.Safety

namespace Sys2Proof.Safety

open Sys2Proof.Machine

section

variable {s t : State}

/-! ### What a command may write (R101, column "Writes") -/

/-- The updates open to a command that lists the registers `rs` among its writes; a fault's are open to every command (R330). -/
inductive WritesOnly (rs : List Reg) (s : State) : State → Prop
  | fault (kind : ErrKind) (info : Nat) : WritesOnly rs s (s.setFault kind info)
  | writer (wr : Writer) (h : .writer ∈ rs) : WritesOnly rs s (s.setWriter wr)
  | readerPos (pos : Word) (h : .readerPos ∈ rs) : WritesOnly rs s (s.setReader { s.reader with pos := pos })
  | reader (rd : Reader) (hw : .readerWords ∈ rs) (hp : .readerPos ∈ rs) : WritesOnly rs s (s.setReader rd)
  | res (n : Nat) (h : .res ∈ rs) : WritesOnly rs s (s.setRes n)
  | read (n : Nat) (pos : Word) (hr : .res ∈ rs) (hp : .readerPos ∈ rs) :
      WritesOnly rs s ((s.setRes n).setReader { s.reader with pos := pos })
  | flag (x : Bool) (h : .t ∈ rs) : WritesOnly rs s (s.setT x)
  | found (found : Option Nat) (hr : .res ∈ rs) (ht : .t ∈ rs) : WritesOnly rs s (s.setFound found)
  | efb (blk : EFBlock) (h : .efb ∈ rs) : WritesOnly rs s (s.setEfb blk)
  | values (vs : List Word) (h : .values ∈ rs) : WritesOnly rs s (s.setValues vs)
  | bytes (img : List Byte) (h : .bytes ∈ rs) : WritesOnly rs s (s.setBytes img)
  | slot (k : BitVec 8) (q : Sequence) (h : .slot k ∈ rs) : WritesOnly rs s (s.setSlot k q)

/-- A command's effect is confined to the registers its row lists. -/
theorem effect_writesOnly {i : Instr} (h : Effect s t i) : WritesOnly (writes i) s t := by
  cases i with
  | wclr => exact h ▸ .writer _ (by simp [writes])
  | put val w =>
    obtain ⟨-, rfl⟩ := h
    exact .writer _ (by simp [writes])
  | flush =>
    obtain ⟨-, rfl⟩ := h
    exact .writer _ (by simp [writes])
  | rbind src =>
    obtain ⟨-, rfl⟩ | ⟨blk, -, -, rfl⟩ := h <;> exact .reader _ (by simp [writes]) (by simp [writes])
  | get w =>
    obtain ⟨-, rfl⟩ := h
    exact .read _ _ (by simp [writes]) (by simp [writes])
  | scan off => exact h ▸ .readerPos _ (by simp [writes])
  | flog2 x | ctz x =>
    obtain ⟨k, -, rfl⟩ := h
    exact .res _ (by simp [writes])
  | cdiv n d =>
    obtain ⟨-, -, rfl⟩ := h
    exact .res _ (by simp [writes])
  | next1 pos => exact h ▸ .found _ (by simp [writes]) (by simp [writes])
  | efenc =>
    obtain ⟨vs, -, -, -, -, -, -, rfl⟩ := h
    exact .efb _ (by simp [writes])
  | efdec =>
    obtain ⟨blk, -, -, -, rfl⟩ := h
    exact .values _ (by simp [writes])
  | efat r =>
    obtain ⟨blk, v, -, -, -, -, rfl⟩ := h
    exact .res _ (by simp [writes])
  | efhas v =>
    obtain ⟨blk, -, -, rfl⟩ := h
    exact .flag _ (by simp [writes])
  | sqlen k | sqbsz k | sqnblk k =>
    obtain ⟨q, -, -, rfl⟩ := h
    exact .res _ (by simp [writes])
  | sqget k n =>
    obtain ⟨q, v, -, -, -, -, rfl⟩ := h
    exact .res _ (by simp [writes])
  | sqhas k v =>
    obtain ⟨q, -, -, rfl⟩ := h
    exact .flag _ (by simp [writes])
  | sqdec k =>
    obtain ⟨q, -, -, hstore⟩ := h
    obtain ⟨-, rfl⟩ := storeValues_next hstore
    exact .values _ (by simp [writes])
  | sqdecb k blk =>
    obtain ⟨q, -, -, -, hstore⟩ := h
    obtain ⟨-, rfl⟩ := storeValues_next hstore
    exact .values _ (by simp [writes])
  | sqldb k blk =>
    obtain ⟨q, -, -, -, hstore⟩ := h
    obtain ⟨-, -, rfl⟩ := storeBlock_next hstore
    exact .efb _ (by simp [writes])
  | sqser k =>
    obtain ⟨q, -, -, -, rfl⟩ := h
    exact .bytes _ (by simp [writes])
  | sqload k =>
    obtain ⟨img, q, -, -, rfl⟩ := h
    exact .slot _ _ (by simp [writes])
  | sqbuild k bsz =>
    obtain ⟨vs, -, -, -, hstore⟩ := h
    obtain ⟨-, -, -, rfl⟩ := storeSequence_next hstore
    exact .slot _ _ (by simp [writes])
  | sqand d l r | sqor d l r =>
    obtain ⟨p, q, -, -, -, -, hstore⟩ := h
    obtain ⟨-, -, -, rfl⟩ := storeSequence_next hstore
    exact .slot _ _ (by simp [writes])

theorem exec_writesOnly {i : Instr} (h : exec i s = .next t) : WritesOnly (writes i) s t := by
  obtain ⟨kind, info, -, rfl⟩ | heffect := exec_next h
  · exact .fault kind info
  · exact effect_writesOnly heffect

namespace WritesOnly

variable {rs : List Reg} (h : WritesOnly rs s t)

include h

theorem writer_eq (hn : .writer ∉ rs) : t.writer = s.writer := by
  cases h with
  | writer wr hw => exact absurd hw hn
  | found found => exact State.setFound_writer s found
  | _ => rfl

theorem values_eq (hn : .values ∉ rs) : t.vlen = s.vlen ∧ t.vbuf = s.vbuf := by
  cases h with
  | values vs hv => exact absurd hv hn
  | found found => exact ⟨State.setFound_vlen s found, State.setFound_vbuf s found⟩
  | _ => exact ⟨rfl, rfl⟩

theorem bytes_eq (hn : .bytes ∉ rs) : t.blen = s.blen ∧ t.bytes = s.bytes := by
  cases h with
  | bytes img hb => exact absurd hb hn
  | found found => exact ⟨State.setFound_blen s found, State.setFound_bytes s found⟩
  | _ => exact ⟨rfl, rfl⟩

theorem efb_eq (hn : .efb ∉ rs) : t.efb = s.efb := by
  cases h with
  | efb blk hb => exact absurd hb hn
  | found found => exact State.setFound_efb s found
  | _ => rfl

theorem slots_eq (hn : ∀ k, .slot k ∉ rs) : t.slots = s.slots := by
  cases h with
  | slot k q hk => exact absurd hk (hn k)
  | found found => exact State.setFound_slots s found
  | _ => rfl

/-- Writing a slot leaves the other slots alone (R48). -/
theorem slot_eq {k : BitVec 8} (hn : .slot k ∉ rs) : cellsRead t.slots k.toNat = cellsRead s.slots k.toNat := by
  cases h with
  | slot d q hd =>
    have hkd : k.toNat ≠ d.toNat := fun he => hn (BitVec.eq_of_toNat_eq he ▸ hd)
    exact cellsRead_write_other s.slots q hkd
  | found found => rw [State.setFound_slots]
  | _ => rfl

end WritesOnly

end

/-- Settles O59: a command is confined to the updates of the registers it lists. -/
theorem frameOfTheBuffers : Obligations.FrameOfTheBuffers := by
  intro i s t h
  refine ⟨fun hn => ?_, fun hn => ?_⟩
  · obtain ⟨hlen, hbuf⟩ := (exec_writesOnly h).values_eq hn
    exact ⟨hlen, fun a => by rw [hbuf]⟩
  · obtain ⟨hlen, hbytes⟩ := (exec_writesOnly h).bytes_eq hn
    exact ⟨hlen, fun a => by rw [hbytes]⟩

/-- Settles O60: a command is confined to the updates of the registers it lists. -/
theorem frameOfTheBlockAndSlots : Obligations.FrameOfTheBlockAndSlots := fun _ _ _ h =>
  ⟨(exec_writesOnly h).efb_eq, fun _ => (exec_writesOnly h).slot_eq⟩

theorem writerOk_emptyWriter : writerOk emptyWriter := by
  unfold writerOk
  decide

theorem slotsShaped_resetCore (s : State) : slotsShaped (resetCore s) := fun _ _ h =>
  absurd h (Option.some_ne_none _).symm

/-- Settles O57: at reset every array is empty and neither the block register nor a slot is in use. -/
theorem resetMeetsTheInvariants : Obligations.ResetMeetsTheInvariants :=
  ⟨⟨rfl, rfl, rfl⟩, writerOk_emptyWriter, fun _ h => absurd h (Option.some_ne_none _).symm,
    withinCapacities_resetCore State.reset, slotsShaped_resetCore State.reset⟩

end Sys2Proof.Safety

namespace Sys2Proof.Machine

/-! ### What a step can do to the Writer, the Reader, the block register and the slots -/

/-- A step leaves the Writer, the Reader, the block register and the slots alone (no move, a command dropped or rejected at decode,
a host write), or it runs a command, or it resets (R331, R337, R350). -/
theorem step_registers {s t : State} (h : step s = .next t) :
    (t.writer = s.writer ∧ t.reader = s.reader ∧ t.efb = s.efb ∧ t.slots = s.slots) ∨
    (∃ moves i, exec i (s.setPort moves) = .next t) ∨ ∃ moves, t = resetCore (s.setPort moves) := by
  obtain ⟨-, rfl⟩ | ⟨m, moves, -, hm⟩ := step_next h
  · exact .inl ⟨rfl, rfl, rfl, rfl⟩
  cases m with
  | command c =>
    obtain ⟨-, rfl⟩ | ⟨-, ⟨r, -, rfl⟩ | ⟨i, -, hi⟩⟩ := runCommand_next hm
    · exact .inl ⟨rfl, rfl, rfl, rfl⟩
    · exact .inl ⟨rfl, rfl, rfl, rfl⟩
    · exact .inr (.inl ⟨moves, i, hi⟩)
  | writeValue i v | writeVlen n | writeByte i x | writeBlen n =>
    obtain ⟨-, rfl⟩ := hostWrite_require_next hm
    exact .inl ⟨rfl, rfl, rfl, rfl⟩
  | reset => exact .inr (.inr ⟨moves, (Host.Outcome.next.inj hm).symm⟩)

end Sys2Proof.Machine

namespace Sys2Proof.Safety

open Sys2Proof.Machine

/-! ### The Writer (R141, R143) -/

section

variable {wr : Writer} {val w : Nat}

/-- The bits `PUT` merges lie below the new fill position, since those of the partial word lie below the old one (R33). -/
theorem merged_lt (hok : writerOk wr) :
    wr.cur.toNat ||| ((val &&& mask w) <<< wr.filled.toNat) < 2 ^ (wr.filled.toNat + w) := by
  refine Nat.or_lt_two_pow (hok.trans_le (Nat.pow_le_pow_right (by omega) (by omega))) ?_
  rw [Nat.shiftLeft_eq, Nat.add_comm, Nat.pow_add]
  exact Nat.mul_lt_mul_of_pos_right (Nat.and_lt_two_pow _ (Nat.sub_lt (by positivity) (by omega))) (by positivity)

/-- `PUT` keeps the bound on the partial word, both where it fills a word and where it does not (R33, R141). -/
theorem writerOk_writerPut (hok : writerOk wr) (hw : w ≤ 64) : writerOk (writerPut wr val w) := by
  have hmerged := merged_lt (val := val) (w := w) hok
  have hfilled := wr.filled.isLt
  unfold writerPut
  split
  · exact hok
  · dsimp only
    split
    · have hnew : (BitVec.ofNat 6 (wr.filled.toNat + w - 64)).toNat = wr.filled.toNat + w - 64 :=
        Nat.mod_eq_of_lt (by omega)
      unfold writerOk
      rw [hnew, Nat.shiftRight_eq_div_pow]
      refine (Nat.mod_le ..).trans_lt (Nat.div_lt_of_lt_mul ?_)
      rwa [← Nat.pow_add, show 64 + (wr.filled.toNat + w - 64) = wr.filled.toNat + w by omega]
    · have hnew : (BitVec.ofNat 6 (wr.filled.toNat + w)).toNat = wr.filled.toNat + w := Nat.mod_eq_of_lt (by omega)
      unfold writerOk
      rw [hnew]
      exact (Nat.mod_le ..).trans_lt hmerged

theorem writerOk_writerFlush (hok : writerOk wr) : writerOk (writerFlush wr) := by
  unfold writerFlush
  split
  · exact writerOk_emptyWriter
  · exact hok

/-- `PUT` moves the next bit position on by its width (R35, R141). -/
theorem writerBits_writerPut (hw : w ≤ 64) : writerBits (writerPut wr val w) = writerBits wr + w := by
  have hfilled := wr.filled.isLt
  unfold writerPut
  split
  · simp [*]
  · dsimp only
    split <;> simp only [writerBits, List.length_append, List.length_singleton, BitVec.toNat_ofNat] <;> omega

/-- `FLUSH` leaves as many words as the bits written need (R143). -/
theorem length_words_writerFlush_eq_ceilDiv :
    (writerFlush wr).words.length = ceilDiv (writerBits wr) 64 := by
  have hfilled := wr.filled.isLt
  rw [length_words_writerFlush, writerBits, ceilDiv]
  split <;> omega

end

/-- The commands that write the Writer keep its bound; the others leave it alone. -/
theorem exec_writerOk {i : Instr} {s t : State} (hs : writerOk s.writer) (h : exec i s = .next t) :
    writerOk t.writer := by
  obtain ⟨kind, info, -, rfl⟩ | hwf := wf_of_exec_next h
  · exact hs
  obtain ⟨kind, info, -, rfl⟩ | heffect := exec_next h
  · exact hs
  by_cases hwrites : .writer ∈ writes i
  · cases i with
    | wclr =>
      obtain rfl : t = s.setWriter emptyWriter := heffect
      exact writerOk_emptyWriter
    | put val w =>
      obtain ⟨-, rfl⟩ := heffect
      exact writerOk_writerPut hs (of_decide_eq_true hwf)
    | flush =>
      obtain ⟨-, rfl⟩ := heffect
      exact writerOk_writerFlush hs
    | _ => simp [writes] at hwrites
  · rwa [(exec_writesOnly h).writer_eq hwrites]

/-- Settles O53: of the moves of a step only `WCLR`, `PUT`, `FLUSH` and reset write the Writer, and each keeps the bound. -/
theorem stepsKeepTheWriterBound : Obligations.StepsKeepTheWriterBound := by
  intro s t hs h
  obtain ⟨hwriter, -⟩ | ⟨moves, i, hi⟩ | ⟨moves, rfl⟩ := step_registers h
  · rwa [hwriter]
  · exact exec_writerOk (s := s.setPort moves) hs hi
  · exact writerOk_emptyWriter

end Sys2Proof.Safety

namespace Sys2Proof.Machine

/-! ### Reads inside a byte array (R16, R75) -/

theorem leValue_lt (xs : List Byte) : leValue xs < 2 ^ (8 * xs.length) := by
  induction xs with
  | nil => simp [leValue]
  | cons x xs ih =>
    have hx := x.isLt
    rw [leValue, List.length_cons, Nat.mul_succ, Nat.pow_add]
    omega

theorem memRead_lt (bs : List Byte) (addr n : Nat) : memRead bs addr n < 2 ^ (8 * n) :=
  (leValue_lt _).trans_le (Nat.pow_le_pow_right Nat.two_pos (Nat.mul_le_mul_left 8 (List.length_take_le ..)))

theorem memRead_append_left {xs : List Byte} {addr n : Nat} (h : addr + n ≤ xs.length) (ys : List Byte) :
    memRead (xs ++ ys) addr n = memRead xs addr n := by
  have hn : n ≤ (xs.drop addr).length := by
    rw [List.length_drop]
    omega
  rw [memRead, List.drop_append_of_le_length (by omega), List.take_append_of_le_length hn, memRead]

theorem memRead_append_right (xs ys : List Byte) (addr n : Nat) :
    memRead (xs ++ ys) (xs.length + addr) n = memRead ys addr n := by
  rw [memRead, List.drop_append, memRead, List.drop_of_length_le (by omega)]
  simp

/-- A scalar is read back from where it was stored, whatever follows it. -/
theorem memRead_of_prefix {xs bs : List Byte} {addr n v : Nat} (h : xs ++ leBytes n v <+: bs) (ha : xs.length = addr)
    (hv : v < 2 ^ (8 * n)) : memRead bs addr n = v := by
  obtain ⟨ys, rfl⟩ := h
  have hskip := memRead_append_right xs (leBytes n v ++ ys) 0 n
  rw [Nat.add_zero, ha] at hskip
  rw [List.append_assoc, hskip, memRead_append_left (by simp), memRead_leBytes hv]

@[simp] theorem length_readWords (bs : List Byte) (o n : Nat) : (readWords bs o n).length = n := by
  induction n generalizing o with
  | zero => rfl
  | succ n ih => simp [readWords, ih]

/-! ### A block's bytes (R105, R111, R242) -/

theorem length_wordsBytes (ws : List Word) : (wordsBytes ws).length = 8 * ws.length := by
  simp [wordsBytes, List.length_flatMap, Nat.mul_comm]

theorem length_blockBytes (blk : EFBlock) : (blockBytes blk).length = 40 + 8 * (blk.low.length + blk.high.length) := by
  simp only [blockBytes, List.length_append, length_leBytes, length_wordsBytes, List.length_cons, List.length_nil]
  omega

section

variable (blk : EFBlock)

theorem memRead_blockBytes_nElem : memRead (blockBytes blk) 0 4 = blk.nElem.toNat :=
  memRead_of_prefix (xs := []) (by simp [blockBytes]) rfl blk.nElem.isLt

theorem memRead_blockBytes_l : memRead (blockBytes blk) 4 1 = blk.l.toNat :=
  memRead_of_prefix (xs := leBytes 4 blk.nElem.toNat) (by simp [blockBytes]) rfl blk.l.isLt

theorem memRead_blockBytes_lowWords : memRead (blockBytes blk) 16 8 = blk.lowWords.toNat :=
  memRead_of_prefix
    (xs := leBytes 4 blk.nElem.toNat ++ leBytes 1 blk.l.toNat ++ [0, 0, 0] ++ leBytes 8 blk.floor.toNat)
    (by simp [blockBytes]) rfl blk.lowWords.isLt

theorem memRead_blockBytes_highWords : memRead (blockBytes blk) 24 8 = blk.highWords.toNat :=
  memRead_of_prefix
    (xs := leBytes 4 blk.nElem.toNat ++ leBytes 1 blk.l.toNat ++ [0, 0, 0] ++ leBytes 8 blk.floor.toNat
      ++ leBytes 8 blk.lowWords.toNat)
    (by simp [blockBytes]) rfl blk.highWords.isLt

theorem memRead_blockBytes_highBitsLen : memRead (blockBytes blk) 32 8 = blk.highBitsLen.toNat :=
  memRead_of_prefix
    (xs := leBytes 4 blk.nElem.toNat ++ leBytes 1 blk.l.toNat ++ [0, 0, 0] ++ leBytes 8 blk.floor.toNat
      ++ leBytes 8 blk.lowWords.toNat ++ leBytes 8 blk.highWords.toNat)
    (by simp [blockBytes]) rfl blk.highBitsLen.isLt

end

/-! ### Ceiling division (R171) -/

theorem lt_ceilDiv_iff {n d b : Nat} (hd : 0 < d) : b < ceilDiv n d ↔ b * d < n := by
  rw [ceilDiv, Nat.lt_iff_add_one_le, Nat.le_div_iff_mul_le hd, Nat.succ_mul]
  omega

theorem ceilDiv_le_iff {n d b : Nat} (hd : 0 < d) : ceilDiv n d ≤ b ↔ n ≤ b * d := by
  rw [← not_lt, lt_ceilDiv_iff hd, not_lt]

/-- Without a zero divisor a ceiling quotient is at most the dividend. -/
theorem ceilDiv_le_self {n d : Nat} (hd : 0 < d) : ceilDiv n d ≤ n :=
  (ceilDiv_le_iff hd).2 (Nat.le_mul_of_pos_right n hd)

/-! ### The encoder's numbers (R191 to R194) -/

theorem efRange_le (vs : List Word) : efRange vs ≤ 2 ^ 64 := by
  have hlast := (vs.getLastD 0).isLt
  unfold efRange
  omega

/-- `l` is the floor of the base-2 logarithm also where the quotient is 0, since `Nat.log2 0 = 0` (R192). -/
theorem efLowBits_eq_log2 (vs : List Word) : efLowBits vs = Nat.log2 (efRange vs / vs.length) := by
  unfold efLowBits floorLog2
  split
  · simp [*]
  · rfl

/-- A range of `2^64` takes two values or more, so no quotient needs more than 63 low bits (R192). -/
theorem efLowBits_le (vs : List Word) : efLowBits vs ≤ 63 := by
  rw [efLowBits_eq_log2]
  have hquotient : efRange vs / vs.length < 2 ^ 64 := by
    match vs with
    | [] => simp
    | [v] => simp [efRange]
    | v :: w :: ws =>
      refine Nat.div_lt_of_lt_mul ((efRange_le _).trans_lt ?_)
      simp only [List.length_cons]
      omega
  by_cases hzero : efRange vs / vs.length = 0
  · simp [hzero]
  · have := (Nat.log2_lt hzero).2 hquotient
    omega

/-- `l` is large enough that the range is below `2n·2^l` (R192). -/
theorem efRange_lt {vs : List Word} (hn : 1 ≤ vs.length) : efRange vs < 2 * vs.length * 2 ^ efLowBits vs := by
  have hlog : efRange vs / vs.length < 2 ^ (efLowBits vs + 1) := by
    rw [efLowBits_eq_log2]
    exact Nat.lt_log2_self
  have := (Nat.div_lt_iff_lt_mul hn).1 hlog
  rwa [Nat.pow_succ, show 2 ^ efLowBits vs * 2 * vs.length = 2 * vs.length * 2 ^ efLowBits vs by ring] at this

/-- The unary half takes at most three bits a value (R194). -/
theorem efHighBitsLen_le {vs : List Word} (hn : 1 ≤ vs.length) :
    efHighBitsLen vs (efLowBits vs) ≤ 3 * vs.length := by
  have := (ceilDiv_le_iff (Nat.two_pow_pos (efLowBits vs))).2 (efRange_lt hn).le
  unfold efHighBitsLen
  omega

/-! ### The encoder's arrays -/

theorem writerBits_foldl_writerPut {l : Nat} (hl : l ≤ 64) (val : Word → Nat) (vs : List Word) (wr : Writer) :
    Safety.writerBits (vs.foldl (fun wr v => writerPut wr (val v) l) wr) = Safety.writerBits wr + vs.length * l := by
  induction vs generalizing wr with
  | nil => simp
  | cons v vs ih =>
    rw [List.foldl_cons, ih, Safety.writerBits_writerPut hl, List.length_cons, Nat.succ_mul]
    omega

theorem length_efLow {l : Nat} (hl : l ≤ 64) (vs : List Word) (floor : Nat) :
    (efLow vs floor l).length = ceilDiv (vs.length * l) 64 := by
  rw [efLow, Safety.length_words_writerFlush_eq_ceilDiv, writerBits_foldl_writerPut hl]
  simp [Safety.writerBits, emptyWriter]

@[simp] theorem length_setHighBits (floor l : Nat) (vs : List Word) (i : Nat) (ws : List Word) :
    (setHighBits floor l vs i ws).length = ws.length := by
  induction vs generalizing i ws with
  | nil => rfl
  | cons v vs ih => simp [setHighBits, ih, setBit]

section

variable (vs : List Word)

theorem length_low_efEncode : (efEncode vs).low.length = ceilDiv (vs.length * efLowBits vs) 64 :=
  length_efLow ((efLowBits_le vs).trans (by decide)) vs _

theorem length_high_efEncode : (efEncode vs).high.length = ceilDiv (efHighBitsLen vs (efLowBits vs)) 64 := by
  simp [efEncode]

theorem l_efEncode : (efEncode vs).l.toNat = efLowBits vs :=
  Nat.mod_eq_of_lt ((efLowBits_le vs).trans_lt (by decide))

variable {vs}

theorem nElem_efEncode (hmax : vs.length < 2 ^ 32) : (efEncode vs).nElem.toNat = vs.length := Nat.mod_eq_of_lt hmax

theorem lowWords_efEncode (hmax : vs.length < 2 ^ 32) :
    (efEncode vs).lowWords.toNat = ceilDiv (vs.length * efLowBits vs) 64 := by
  have hlow : (efEncode vs).low.length < 2 ^ 64 := by
    rw [length_low_efEncode]
    have hproduct : vs.length * efLowBits vs ≤ 2 ^ 32 * 63 := Nat.mul_le_mul hmax.le (efLowBits_le vs)
    exact (ceilDiv_le_self (by decide)).trans_lt (hproduct.trans_lt (by decide))
  exact (Nat.mod_eq_of_lt hlow).trans (length_low_efEncode vs)

theorem highBitsLen_efEncode (hmin : 1 ≤ vs.length) (hmax : vs.length < 2 ^ 32) :
    (efEncode vs).highBitsLen.toNat = efHighBitsLen vs (efLowBits vs) := by
  have := efHighBitsLen_le hmin
  exact Nat.mod_eq_of_lt (by omega)

theorem highWords_efEncode (hmin : 1 ≤ vs.length) (hmax : vs.length < 2 ^ 32) :
    (efEncode vs).highWords.toNat = ceilDiv (efHighBitsLen vs (efLowBits vs)) 64 := by
  have := efHighBitsLen_le hmin
  have := ceilDiv_le_self (n := efHighBitsLen vs (efLowBits vs)) (d := 64) (by decide)
  exact Nat.mod_eq_of_lt (by omega)

end

/-! ### Runs (R241) -/

theorem runsOf_eq_map_blockOf (size k : Nat) (vs : List Word) :
    runsOf size k vs = (List.range k).map (Safety.blockOf vs size) := by
  induction k generalizing vs with
  | zero => rfl
  | succ k ih =>
    rw [runsOf, ih, List.range_succ_eq_map, List.map_cons, List.map_map]
    refine congrArg₂ _ (by simp [Safety.blockOf]) (List.map_congr_left fun b _ => ?_)
    simp [Safety.blockOf, Nat.succ_mul, Nat.add_comm]

@[simp] theorem length_runsOf (size k : Nat) (vs : List Word) : (runsOf size k vs).length = k := by
  simp [runsOf_eq_map_blockOf]

theorem flatten_runsOf_sublist (size k : Nat) (vs : List Word) : (runsOf size k vs).flatten.Sublist vs := by
  induction k generalizing vs with
  | zero => exact List.nil_sublist vs
  | succ k ih =>
    rw [runsOf, List.flatten_cons]
    simpa using (List.Sublist.refl (vs.take size)).append (ih (vs.drop size))

/-- The last values of non-empty runs stand among the values in order (R113). -/
theorem map_getLastD_sublist_flatten {runs : List (List Word)} (h : ∀ run ∈ runs, run ≠ []) :
    (runs.map fun run => run.getLastD 0).Sublist runs.flatten := by
  induction runs with
  | nil => exact List.nil_sublist _
  | cons run runs ih =>
    rw [List.forall_mem_cons] at h
    rw [List.map_cons, List.flatten_cons, ← List.singleton_append]
    refine List.Sublist.append ?_ (ih h.2)
    rw [List.getLastD_eq_getLast?, List.getLast?_eq_some_getLast h.1]
    exact List.singleton_sublist.2 (List.getLast_mem h.1)

/-- Block `b` of the values holds as many as check 9 of R284 expects, at least one and at most the block size. -/
theorem length_blockOf {vs : List Word} {size b : Nat} (hsize : 1 ≤ size) (hb : b < ceilDiv vs.length size) :
    (Safety.blockOf vs size b).length = Safety.chainCount size vs.length (ceilDiv vs.length size) b ∧
      1 ≤ (Safety.blockOf vs size b).length ∧ (Safety.blockOf vs size b).length ≤ size := by
  have hstart := (lt_ceilDiv_iff hsize).1 hb
  have hnext := lt_ceilDiv_iff (n := vs.length) (b := b + 1) hsize
  simp only [Safety.blockOf, List.length_take, List.length_drop, Safety.chainCount]
  split
  · rename_i hlt
    rw [hnext, Nat.succ_mul] at hlt
    omega
  · rename_i hge
    have hlast : ceilDiv vs.length size - 1 = b := by omega
    rw [hnext, Nat.succ_mul] at hge
    rw [hlast, Nat.mul_comm size b]
    omega

/-! ### Rising values -/

/-- Non-decreasing neighbours make a non-decreasing list. -/
theorem nonDecreasing_iff_pairwise (vs : List Word) :
    nonDecreasing vs = true ↔ vs.Pairwise fun v w => v.toNat ≤ w.toNat := by
  induction vs with
  | nil => simp [nonDecreasing]
  | cons v vs ih =>
    cases vs with
    | nil => simp [nonDecreasing]
    | cons w vs =>
      rw [nonDecreasing, Bool.and_eq_true, decide_eq_true_eq, ih, List.pairwise_cons (a := v)]
      refine and_congr_left fun hrest => ⟨fun hvw x hx => ?_, fun h => h w List.mem_cons_self⟩
      obtain rfl | hx := List.mem_cons.1 hx
      · exact hvw
      · exact hvw.trans (List.rel_of_pairwise_cons hrest hx)

theorem nonDecreasing_of_sublist {us vs : List Word} (hsub : us.Sublist vs) (h : nonDecreasing vs = true) :
    nonDecreasing us = true := by
  rw [nonDecreasing_iff_pairwise] at *
  exact h.sublist hsub

theorem intersectAt_sublist {x : Word} {xs : List Word} {rest : List Word → List Word}
    (h : ∀ ys, (rest ys).Sublist xs) (ys : List Word) : (intersectAt x rest ys).Sublist (x :: xs) := by
  induction ys with
  | nil => exact List.nil_sublist _
  | cons y ys ih =>
    unfold intersectAt
    split
    · exact (h _).trans (List.sublist_cons_self x xs)
    · split
      · exact ih
      · exact (h ys).cons_cons x

/-- An intersection takes its values from the left operand, in order (R303). -/
theorem intersectValues_sublist (xs ys : List Word) : (intersectValues xs ys).Sublist xs := by
  induction xs generalizing ys with
  | nil => exact List.nil_sublist _
  | cons x xs ih => exact intersectAt_sublist ih ys

/-- What is emitted after `u` lies above `u` and rises (R306). -/
theorem pairwise_emitRising (u : Word) (vs : List Word) :
    (u :: emitRising (some u) vs).Pairwise fun v w => v.toNat < w.toNat := by
  induction vs generalizing u with
  | nil => simp [emitRising]
  | cons v vs ih =>
    unfold emitRising
    split
    · rename_i huv
      refine List.pairwise_cons.2 ⟨fun x hx => ?_, ih v⟩
      obtain rfl | hx := List.mem_cons.1 hx
      · exact huv
      · exact huv.trans (List.rel_of_pairwise_cons (ih v) hx)
    · exact ih u

/-- A union rises strictly, whatever its operands hold (R306). -/
theorem pairwise_unionValues (xs ys : List Word) : (unionValues xs ys).Pairwise fun v w => v.toNat < w.toNat := by
  unfold unionValues
  cases mergeValues xs ys with
  | nil => exact .nil
  | cons v vs => exact pairwise_emitRising v vs

theorem nonDecreasing_unionValues (xs ys : List Word) : nonDecreasing (unionValues xs ys) = true :=
  (nonDecreasing_iff_pairwise _).2 ((pairwise_unionValues xs ys).imp Nat.le_of_lt)

end Sys2Proof.Machine

namespace Sys2Proof.Safety

open Sys2Proof.Machine

/-! ### The block chain (R284 check 9) -/

@[simp] theorem chainOffset_zero (payload : List Byte) (offset : Nat → Nat) : chainOffset payload offset 0 = 0 := rfl

/-- What check 9 of R284 asks of the one block at payload offset `off`, which must hold `count` values. -/
def blockFitsAt (payload : List Byte) (off count : Nat) : Prop :=
  off + 40 ≤ payload.length ∧ memRead payload off 4 = count ∧ memRead payload (off + 4) 1 ≤ 63 ∧
  memRead payload (off + 16) 8 =
    (if 0 < memRead payload (off + 4) 1 then ceilDiv (memRead payload off 4 * memRead payload (off + 4) 1) 64 else 0) ∧
  memRead payload (off + 32) 8 ≤ 64 * memRead payload (off + 24) 8 ∧ blockEnd payload off ≤ payload.length

theorem blockChain_iff {payload : List Byte} {offset : Nat → Nat} {bsz total n : Nat} :
    blockChain payload offset bsz total n ↔
      ∀ b, b < n → offset b = chainOffset payload offset b ∧
        blockFitsAt payload (offset b) (chainCount bsz total n b) := Iff.rfl

/-- The loader's test of one directory entry `o` and its block. -/
theorem entryTest_iff {payload : List Byte} {o : Word} {off count : Nat} :
    (decide (o.toNat = off) && decide (off + 40 ≤ payload.length) && blockMetaOk payload off count
        && decide (off + blockSizeAt payload off ≤ payload.length)) = true ↔
      o.toNat = off ∧ blockFitsAt payload off count := by
  have hend : off + blockSizeAt payload off = blockEnd payload off := (Nat.add_assoc ..).symm
  simp only [hend, blockMetaOk, lowWordsFor, blockFitsAt, Bool.and_eq_true, decide_eq_true_eq, gt_iff_lt, and_assoc]

/-- The loader's loop passes a block exactly if its entry and the block stand the check. -/
theorem chainEnd_cons_eq_some_iff {payload : List Byte} {bsz total n b off e : Nat} {o : Word} {os : List Word} :
    chainEnd payload bsz total n (o :: os) b off = some e ↔
      (o.toNat = off ∧ blockFitsAt payload off (chainCount bsz total n b)) ∧
        chainEnd payload bsz total n os (b + 1) (blockEnd payload off) = some e := by
  have hend : off + blockSizeAt payload off = blockEnd payload off := (Nat.add_assoc ..).symm
  rw [chainEnd, ← chainCount, ← entryTest_iff, ← hend]
  exact Option.ite_none_right_eq_some

/-- The loader's loop from block `b` on, in the terms of the chain: `offset` lists the directory's entries. -/
theorem chainEnd_eq_some_iff {payload : List Byte} {bsz total n e : Nat} {offset : Nat → Nat} {os : List Word} {b : Nat}
    (hos : ∀ j, j < os.length → (os.getD j 0).toNat = offset (b + j)) :
    chainEnd payload bsz total n os b (chainOffset payload offset b) = some e ↔
      (∀ j, j < os.length → offset (b + j) = chainOffset payload offset (b + j) ∧
        blockFitsAt payload (offset (b + j)) (chainCount bsz total n (b + j))) ∧
      chainOffset payload offset (b + os.length) = e := by
  induction os generalizing b with
  | nil => simp [chainEnd]
  | cons o os ih =>
    have hhead : o.toNat = offset b := hos 0 (Nat.succ_pos _)
    have htail : ∀ j, j < os.length → (os.getD j 0).toNat = offset (b + 1 + j) := fun j hj => by
      rw [Nat.add_assoc, Nat.add_comm 1]
      exact hos (j + 1) (Nat.succ_lt_succ hj)
    have hrest := ih htail
    rw [chainEnd_cons_eq_some_iff, hhead, List.length_cons, Nat.forall_lt_succ_left]
    simp only [Nat.add_right_comm b 1] at hrest
    simp only [← Nat.add_assoc, Nat.add_zero]
    by_cases hb : offset b = chainOffset payload offset b
    · have hnext : blockEnd payload (chainOffset payload offset b) = chainOffset payload offset (b + 1) := by
        rw [← hb, chainOffset]
      rw [hnext, hrest, ← hb, and_assoc, and_assoc, and_assoc]
    · simp [hb]

/-- A directory agrees with its payload exactly if the loader's loop passes it and ends where the payload does. -/
theorem chainEnd_slotOffset_iff {q : Sequence} {bsz total n : Nat} (hlen : q.blockOffset.length = n) :
    chainEnd q.payload bsz total n q.blockOffset 0 0 = some q.payload.length ↔
      blockChain q.payload (slotOffset q) bsz total n ∧
        chainOffset q.payload (slotOffset q) n = q.payload.length := by
  have h := chainEnd_eq_some_iff (payload := q.payload) (bsz := bsz) (total := total) (n := n) (e := q.payload.length)
    (offset := slotOffset q) (os := q.blockOffset) (b := 0) (fun j _ => by rw [Nat.zero_add, slotOffset])
  simpa only [Nat.zero_add, hlen, ← blockChain_iff, chainOffset_zero] using h

/-- A slot's shape, with the chain in the loader's form. -/
theorem slotShape_iff {q : Sequence} :
    slotShape q ↔
      1 ≤ q.blockSize.toNat ∧ q.nBlocks.toNat = ceilDiv q.nElem.toNat q.blockSize.toNat ∧
      q.blockLast.length = q.nBlocks.toNat ∧ q.blockOffset.length = q.nBlocks.toNat ∧
      nonDecreasing q.blockLast = true ∧
      chainEnd q.payload q.blockSize.toNat q.nElem.toNat q.nBlocks.toNat q.blockOffset 0 0 = some q.payload.length := by
  unfold slotShape
  exact and_congr_right fun _ => and_congr_right fun _ => and_congr_right fun _ => and_congr_right fun hlen =>
    and_congr_right fun _ => (chainEnd_slotOffset_iff hlen).symm

/-! ### A loaded Sequence (R283, R284) -/

/-- What passes a check of R284 did not fail it. -/
theorem check_of_ok {c : Prop} [Decidable c] {n : Nat} {go : Except Nat Sequence} {q : Sequence}
    (h : (if c then .error n else go) = .ok q) : ¬ c ∧ go = .ok q := by
  split at h
  · cases h
  · exact ⟨‹_›, h⟩

/-- The checks that decide a slot's shape are checks 4, 6, 9, 10 and 11 of R284. -/
theorem slotShape_of_loadImage {img : List Byte} {q : Sequence} (h : loadImage img = .ok q) : slotShape q := by
  unfold loadImage at h
  dsimp only at h
  iterate 3 replace h := ok_of_check h
  obtain ⟨hbsz, h⟩ := check_of_ok h
  replace h := ok_of_check h
  obtain ⟨hblocks, h⟩ := check_of_ok h
  iterate 2 replace h := ok_of_check h
  split at h
  · cases h
  rename_i off hchain
  obtain ⟨hend, h⟩ := check_of_ok h
  split at h
  · rename_i hrise
    cases h
    have htotal : (BitVec.ofNat 64 (memRead img 8 8)).toNat = memRead img 8 8 := Nat.mod_eq_of_lt (memRead_lt ..)
    have hsize : (BitVec.ofNat 32 (memRead img 16 4)).toNat = memRead img 16 4 := Nat.mod_eq_of_lt (memRead_lt ..)
    have hcount : (BitVec.ofNat 64 (memRead img 24 8)).toNat = memRead img 24 8 := Nat.mod_eq_of_lt (memRead_lt ..)
    rw [slotShape_iff]
    simp only [htotal, hsize, hcount, length_readWords, true_and]
    exact ⟨Nat.le_of_not_lt hbsz, Decidable.not_not.1 hblocks, hrise, Decidable.not_not.1 hend ▸ hchain⟩
  · cases h

/-! ### A built Sequence (R241) -/

section

variable {vs : List Word}

theorem length_blockBytes_efEncode (hmin : 1 ≤ vs.length) (hmax : vs.length < 2 ^ 32) :
    (blockBytes (efEncode vs)).length =
      40 + 8 * ((efEncode vs).lowWords.toNat + (efEncode vs).highWords.toNat) := by
  rw [length_blockBytes, length_low_efEncode, length_high_efEncode, lowWords_efEncode hmax,
    highWords_efEncode hmin hmax]

/-- A field of a block is read from the payload as from the block's own bytes. -/
theorem memRead_payload {pre piece post : List Byte} {addr n : Nat} (h : addr + n ≤ piece.length) :
    memRead (pre ++ (piece ++ post)) (pre.length + addr) n = memRead piece addr n := by
  rw [memRead_append_right, memRead_append_left h]

/-- An encoded block ends where its bytes do (R111). -/
theorem blockEnd_efEncode (hmin : 1 ≤ vs.length) (hmax : vs.length < 2 ^ 32) (pre post : List Byte) :
    blockEnd (pre ++ (blockBytes (efEncode vs) ++ post)) pre.length =
      (pre ++ blockBytes (efEncode vs)).length := by
  have hlen := length_blockBytes_efEncode hmin hmax
  rw [blockEnd, memRead_payload (by omega), memRead_payload (by omega), memRead_blockBytes_lowWords,
    memRead_blockBytes_highWords, List.length_append, hlen, Nat.add_assoc]

/-- An encoded block stands check 9 of R284 wherever it lies in a payload. -/
theorem blockFitsAt_efEncode (hmin : 1 ≤ vs.length) (hmax : vs.length < 2 ^ 32) (pre post : List Byte) :
    blockFitsAt (pre ++ (blockBytes (efEncode vs) ++ post)) pre.length vs.length := by
  have hlen := length_blockBytes_efEncode hmin hmax
  have hend := blockEnd_efEncode hmin hmax pre post
  have hnElem := memRead_payload (pre := pre) (piece := blockBytes (efEncode vs)) (post := post) (addr := 0) (n := 4)
    (by omega)
  rw [Nat.add_zero, memRead_blockBytes_nElem, nElem_efEncode hmax] at hnElem
  have hl : memRead (pre ++ (blockBytes (efEncode vs) ++ post)) (pre.length + 4) 1 = efLowBits vs := by
    rw [memRead_payload (by omega), memRead_blockBytes_l, l_efEncode]
  rw [blockFitsAt, hnElem, hl, memRead_payload (by omega), memRead_payload (by omega), memRead_payload (by omega),
    memRead_blockBytes_lowWords, memRead_blockBytes_highWords, memRead_blockBytes_highBitsLen, lowWords_efEncode hmax,
    highWords_efEncode hmin hmax, highBitsLen_efEncode hmin hmax, hend]
  simp only [List.length_append]
  refine ⟨by omega, trivial, efLowBits_le vs, ?_, ?_, by omega⟩
  · split
    · rfl
    · rename_i hzero
      rw [Nat.eq_zero_of_not_pos hzero, Nat.mul_zero, ceilDiv]
  · rw [Nat.mul_comm]
    exact (ceilDiv_le_iff (by decide)).1 le_rfl

end

/-- The bytes of the blocks of these runs, in order. -/
def runsBytes (runs : List (List Word)) : List (List Byte) := runs.map fun run => blockBytes (efEncode run)

/-- The directory `seq_build` writes passes the loader's loop, from any block on (R241, R284). -/
theorem chainEnd_offsetsFrom {bsz total n : Nat} {runs : List (List Word)} {pre : List Byte} {b : Nat}
    (hcount : ∀ j (h : j < runs.length), runs[j].length = chainCount bsz total n (b + j))
    (hruns : ∀ run ∈ runs, 1 ≤ run.length ∧ run.length < 2 ^ 32)
    (hlen : (pre ++ (runsBytes runs).flatten).length < 2 ^ 64) :
    chainEnd (pre ++ (runsBytes runs).flatten) bsz total n (offsetsFrom pre.length (runsBytes runs)) b pre.length =
      some (pre ++ (runsBytes runs).flatten).length := by
  induction runs generalizing pre b with
  | nil => simp [runsBytes, offsetsFrom, chainEnd]
  | cons run runs ih =>
    obtain ⟨⟨hmin, hmax⟩, hrest⟩ := List.forall_mem_cons.1 hruns
    have hbytes : runsBytes (run :: runs) = blockBytes (efEncode run) :: runsBytes runs := rfl
    rw [hbytes, List.flatten_cons] at hlen ⊢
    have hstart : (BitVec.ofNat 64 pre.length).toNat = pre.length := by
      rw [List.length_append] at hlen
      exact Nat.mod_eq_of_lt (by omega)
    rw [offsetsFrom, chainEnd_cons_eq_some_iff, blockEnd_efEncode hmin hmax, ← List.length_append, ← List.append_assoc]
    refine ⟨⟨hstart, ?_⟩, ih (fun j hj => ?_) hrest (by rwa [List.append_assoc])⟩
    · rw [← Nat.add_zero b, ← hcount 0 (Nat.succ_pos _), List.append_assoc]
      exact blockFitsAt_efEncode hmin hmax ..
    · rw [Nat.add_assoc, Nat.add_comm 1, ← hcount (j + 1) (Nat.succ_lt_succ hj), List.getElem_cons_succ]

@[simp] theorem length_offsetsFrom (o : Nat) (pieces : List (List Byte)) :
    (offsetsFrom o pieces).length = pieces.length := by
  induction pieces generalizing o with
  | nil => rfl
  | cons piece pieces ih => simp [offsetsFrom, ih]

section

variable {vs : List Word} {bsz : BitVec 32} (h : buildable vs bsz)

include h

theorem nElem_seqBuild : (seqBuild vs bsz).nElem.toNat = vs.length := by
  obtain ⟨-, -, hlen, -⟩ := h
  exact Nat.mod_eq_of_lt hlen

theorem nBlocks_seqBuild : (seqBuild vs bsz).nBlocks.toNat = ceilDiv vs.length bsz.toNat := by
  obtain ⟨-, hbsz, hlen, -⟩ := h
  simp only [seqBuild, length_runsOf]
  exact Nat.mod_eq_of_lt ((ceilDiv_le_self hbsz).trans_lt hlen)

/-- The runs of a build are blocks `ef_encode` takes. -/
theorem length_of_mem_runsOf {run : List Word} (hrun : run ∈ runsOf bsz.toNat (ceilDiv vs.length bsz.toNat) vs) :
    1 ≤ run.length ∧ run.length < 2 ^ 32 := by
  obtain ⟨-, hbsz, -⟩ := h
  rw [runsOf_eq_map_blockOf] at hrun
  obtain ⟨b, hb, rfl⟩ := List.mem_map.1 hrun
  obtain ⟨-, hmin, hmax⟩ := length_blockOf hbsz (List.mem_range.1 hb)
  exact ⟨hmin, hmax.trans_lt bsz.isLt⟩

theorem nonDecreasing_blockLast_seqBuild : nonDecreasing (seqBuild vs bsz).blockLast = true := by
  have hnonempty : ∀ run ∈ runsOf bsz.toNat (ceilDiv vs.length bsz.toNat) vs, run ≠ [] := fun run hrun =>
    List.ne_nil_of_length_pos (length_of_mem_runsOf h hrun).1
  obtain ⟨hrise, -⟩ := h
  exact nonDecreasing_of_sublist ((map_getLastD_sublist_flatten hnonempty).trans (flatten_runsOf_sublist ..)) hrise

theorem chainEnd_seqBuild :
    chainEnd (seqBuild vs bsz).payload bsz.toNat vs.length (ceilDiv vs.length bsz.toNat) (seqBuild vs bsz).blockOffset
      0 0 = some (seqBuild vs bsz).payload.length := by
  have hruns := fun run => length_of_mem_runsOf (run := run) h
  obtain ⟨-, hbsz, -, hpayload⟩ := h
  refine chainEnd_offsetsFrom (pre := []) (fun j hj => ?_) hruns hpayload
  rw [length_runsOf] at hj
  simp only [runsOf_eq_map_blockOf, List.getElem_map, List.getElem_range, Nat.zero_add]
  exact (length_blockOf hbsz hj).1

/-- What `seq_build` gives has the shape that `SQLOAD` checks (R241, R284). -/
theorem slotShape_seqBuild : slotShape (seqBuild vs bsz) := by
  have hbsz : 1 ≤ (seqBuild vs bsz).blockSize.toNat := h.2.1
  rw [slotShape_iff, nElem_seqBuild h, nBlocks_seqBuild h]
  exact ⟨hbsz, rfl, by simp [seqBuild], by simp [seqBuild], nonDecreasing_blockLast_seqBuild h, chainEnd_seqBuild h⟩

/-- Every block takes 40 bytes of metadata at least, so a payload a u64 measures has few enough blocks for a u64 header (R105). -/
theorem headerOffset_seqBuild_lt : 40 + 16 * ceilDiv vs.length bsz.toNat < 2 ^ 64 := by
  obtain ⟨-, -, -, hpayload⟩ := h
  have hpieces : ∀ piece ∈ runsBytes (runsOf bsz.toNat (ceilDiv vs.length bsz.toNat) vs), 40 ≤ piece.length := by
    intro piece hpiece
    obtain ⟨run, -, rfl⟩ := List.mem_map.1 hpiece
    exact (length_blockBytes _).ge.trans' (Nat.le_add_right ..)
  have hsum := List.card_nsmul_le_sum
    ((runsBytes (runsOf bsz.toNat (ceilDiv vs.length bsz.toNat) vs)).map List.length) 40
    (List.forall_mem_map.2 hpieces)
  rw [← List.length_flatten, List.length_map, runsBytes, List.length_map, length_runsOf, smul_eq_mul] at hsum
  have hlt : ceilDiv vs.length bsz.toNat * 40 < 2 ^ 64 := hsum.trans_lt hpayload
  omega

end

/-- A canonical Sequence is the one built from its decode (R243). -/
theorem isCanonical_iff {q : Sequence} :
    isCanonical q = true ↔ buildable (seqDecode q) q.blockSize ∧ seqBuild (seqDecode q) q.blockSize = q := by
  simp only [isCanonical, Bool.and_eq_true, decide_eq_true_eq, buildable]
  constructor
  · rintro ⟨⟨⟨⟨hbsz, hlen⟩, hpayload⟩, hrise⟩, hbuild⟩
    exact ⟨⟨hrise, hbsz, hlen, hbuild.symm ▸ hpayload⟩, hbuild⟩
  · rintro ⟨⟨hrise, hbsz, hlen, hpayload⟩, hbuild⟩
    exact ⟨⟨⟨⟨hbsz, hlen⟩, hbuild ▸ hpayload⟩, hrise⟩, hbuild⟩

/-! ### The slots -/

section

variable {s t : State}

theorem slotsShaped_setSlot (hs : slotsShaped s) (k : BitVec 8) {q : Sequence} (hq : slotShape q) :
    slotsShaped (s.setSlot k q) := by
  intro j p h
  rw [State.setSlot_slots] at h
  by_cases hj : j = k.toNat
  · subst hj
    rw [cellsRead_write_same, Option.some.injEq] at h
    exact h ▸ hq
  · exact hs j p (cellsRead_write_other s.slots q hj ▸ h)

theorem slotsShaped_of_slots_eq (hs : slotsShaped s) (h : t.slots = s.slots) : slotsShaped t := by
  rwa [slotsShaped, h]

theorem slotsShaped_storeSequence (hs : slotsShaped s) {k : BitVec 8} {vs : List Word} {bsz : BitVec 32}
    (hrise : nonDecreasing vs = true) (hbsz : 1 ≤ bsz.toNat) (h : storeSequence k vs bsz s = .next t) :
    slotsShaped t := by
  obtain ⟨hlen, hpayload, -, rfl⟩ := storeSequence_next h
  simp only [fitsBytes, Bool.and_eq_true, decide_eq_true_eq] at hpayload
  exact slotsShaped_setSlot hs k (slotShape_seqBuild ⟨hrise, hbsz, hlen, hpayload.1⟩)

/-- `SQBUILD`, `SQAND` and `SQOR` write what `seq_build` gives, `SQLOAD` what passed its checks; no other command writes a slot. -/
theorem effect_slotsShaped {i : Instr} (hs : slotsShaped s) (h : Effect s t i) : slotsShaped t := by
  cases i with
  | sqbuild k bsz =>
    obtain ⟨vs, -, hrise, hbsz, hstore⟩ := h
    exact slotsShaped_storeSequence hs hrise (Nat.pos_of_ne_zero hbsz) hstore
  | sqload k =>
    obtain ⟨img, q, -, hload, rfl⟩ := h
    exact slotsShaped_setSlot hs k (slotShape_of_loadImage hload)
  | sqand d l r =>
    obtain ⟨p, q, -, hp, -, -, hstore⟩ := h
    obtain ⟨⟨hrise, hbsz, -⟩, -⟩ := isCanonical_iff.1 hp
    exact slotsShaped_storeSequence hs (nonDecreasing_of_sublist (intersectValues_sublist ..) hrise) hbsz hstore
  | sqor d l r =>
    obtain ⟨p, q, -, hp, -, -, hstore⟩ := h
    obtain ⟨⟨-, hbsz, -⟩, -⟩ := isCanonical_iff.1 hp
    exact slotsShaped_storeSequence hs (nonDecreasing_unionValues ..) hbsz hstore
  | _ => exact slotsShaped_of_slots_eq hs ((effect_writesOnly h).slots_eq (by simp [writes]))

theorem exec_slotsShaped {i : Instr} (hs : slotsShaped s) (h : exec i s = .next t) : slotsShaped t := by
  obtain ⟨kind, info, -, rfl⟩ | heffect := exec_next h
  · exact hs
  · exact effect_slotsShaped hs heffect

end

/-- Settles O56: what is stored in a slot was built from non-decreasing values or loaded through the checks of R284. -/
theorem stepsKeepTheSlotsShaped : Obligations.StepsKeepTheSlotsShaped := by
  intro s t hs h
  obtain ⟨-, -, -, hslots⟩ | ⟨moves, i, hi⟩ | ⟨moves, rfl⟩ := step_registers h
  · exact slotsShaped_of_slots_eq hs hslots
  · exact exec_slotsShaped (s := s.setPort moves) hs hi
  · exact slotsShaped_resetCore _

/-! ### What the host reads (R337) -/

/-- Below its length a buffer that holds a run reads as the run, and above it as nothing. -/
theorem cellsRead_below_eq_getElem? {α : Type} {m : Cells α} {n : Nat} {vs : List α} (hwf : cellsWf m = true)
    (h : cellsRun m 0 n = some vs) (i : Nat) : (if i < n then cellsRead m i else none) = vs[i]? := by
  obtain ⟨hlen, hread⟩ := cellsRun_spec m 0 n vs hwf h
  split
  · rw [← hread i ‹_›, Nat.zero_add]
  · rw [List.getElem?_eq_none (by omega)]

theorem hostMetadata_of_slot {s : State} {k : Nat} {q : Sequence} (h : cellsRead s.slots k = some q) :
    hostMetadata s k = some (metadataOf q) := by
  rw [hostMetadata, h, Option.map_some]

/-- Settles O50: the reads of a run's cells, and the header fields of a slot and of a built Sequence. -/
theorem hostReadsBuffersAndMetadata : Obligations.HostReadsBuffersAndMetadata := by
  refine fun s => ⟨fun vs h hwf => cellsRead_below_eq_getElem? hwf h,
    fun img h hwf => cellsRead_below_eq_getElem? hwf h, fun k => ⟨fun h => ?_, fun q hq => ?_, fun vs bsz h => ?_⟩⟩
  · rw [hostMetadata, h, Option.map_none]
  · exact ⟨_, hostMetadata_of_slot hq, rfl, rfl, rfl, rfl, rfl, rfl, Nat.mod_eq_of_lt⟩
  · obtain ⟨hq, hbuild⟩ := h
    have hblocks := nBlocks_seqBuild hbuild
    refine ⟨_, hostMetadata_of_slot hq, rfl, rfl, nElem_seqBuild hbuild, rfl, rfl, hblocks, ?_⟩
    rw [metadataOf, hblocks]
    exact Nat.mod_eq_of_lt (headerOffset_seqBuild_lt hbuild)

end Sys2Proof.Safety

namespace Sys2Proof.Machine

section

variable {s : State} {c : CommandWord}

/-! ### What a presented word runs (R83, R102) -/

theorem step_of_command {moves : List PortMove} (h : s.port = .command c :: moves) :
    step s = runCommand c (s.setPort moves) := by
  simp only [step, h, perform]

theorem runCommand_of_decode_ok {i : Instr} (hrun : s.err = .noFault) (h : decode c = .ok i) :
    runCommand c s = exec i s := by
  simp [runCommand, hrun, h]

theorem runCommand_of_decode_error {r : Reject} (hrun : s.err = .noFault) (h : decode c = .error r) :
    runCommand c s = .next (s.setFault .illegal (rejectCause r)) := by
  simp [runCommand, hrun, h, raise]

end

end Sys2Proof.Machine

namespace Sys2Proof.Safety

open Sys2Proof.Machine

/-- Settles O6: the step presents the word, and the two outcomes of decoding it decide what a running core does. -/
theorem stepRunsTheDecodedCommand : Obligations.StepRunsTheDecodedCommand := by
  intro s c moves hport
  have hstep : step s = runCommand c (s.setPort moves) := step_of_command hport
  refine ⟨hstep, fun hrun => ?_⟩
  have hreject (r : Reject) (h : decode c = .error r) :
      step s = .next ((s.setPort moves).setFault .illegal (rejectCause r)) :=
    hstep.trans (runCommand_of_decode_error hrun h)
  exact ⟨fun i h => hstep.trans (runCommand_of_decode_ok hrun h), hreject .reservedOpcode, hreject .reservedZero,
    hreject .width, hreject .selector⟩

/-! ### The memories' canonical form (R70 to R72) -/

section

variable {s t : State}

/-- The one slot a command may write is written in place, and a buffer it writes is stored whole; each of these writes keeps the
canonical form (R48, R212, R281). -/
theorem memoryForm_of_writesOnly {rs : List Reg} (hs : memoryForm s) (h : WritesOnly rs s t) : memoryForm t := by
  obtain ⟨hbytes, hvbuf, hslots⟩ := hs
  cases h with
  | values vs => exact ⟨hbytes, cellsWf_from 0 vs, hslots⟩
  | bytes img => exact ⟨memory_wf_from 0 img, hvbuf, hslots⟩
  | slot k q => exact ⟨hbytes, hvbuf, cellsWf_write s.slots k.toNat q hslots⟩
  | found found => cases found <;> exact ⟨hbytes, hvbuf, hslots⟩
  | _ => exact ⟨hbytes, hvbuf, hslots⟩

theorem runCommand_memoryForm {c : CommandWord} (hs : memoryForm s) (h : runCommand c s = .next t) : memoryForm t := by
  obtain ⟨-, rfl⟩ | ⟨-, ⟨r, -, rfl⟩ | ⟨i, -, hi⟩⟩ := runCommand_next h
  · exact hs
  · exact hs
  · exact memoryForm_of_writesOnly hs (exec_writesOnly hi)

/-- A host write puts one cell in place, a length write drops the cells from that length on, reset empties the memories. -/
theorem perform_memoryForm {m : PortMove} (hs : memoryForm s) (h : perform m s = .next t) : memoryForm t := by
  have ⟨hbytes, hvbuf, hslots⟩ := hs
  cases m with
  | command c => exact runCommand_memoryForm hs h
  | writeValue i v =>
    obtain ⟨-, rfl⟩ := hostWrite_require_next h
    exact ⟨hbytes, cellsWf_write s.vbuf i.toNat v hvbuf, hslots⟩
  | writeVlen n =>
    obtain ⟨-, rfl⟩ := hostWrite_require_next h
    exact ⟨hbytes, cellsWf_below s.vbuf n.toNat hvbuf, hslots⟩
  | writeByte i x =>
    obtain ⟨-, rfl⟩ := hostWrite_require_next h
    exact ⟨memory_wf_write s.bytes i.toNat x hbytes, hvbuf, hslots⟩
  | writeBlen n =>
    obtain ⟨-, rfl⟩ := hostWrite_require_next h
    exact ⟨memory_wf_below s.bytes n.toNat hbytes, hvbuf, hslots⟩
  | reset =>
    cases h
    exact ⟨rfl, rfl, rfl⟩

end

/-- Settles O52, by the cases of a step: every write of a command or of the host keeps the cells' indices rising. -/
theorem stepsKeepTheMemoryForm : Obligations.StepsKeepTheMemoryForm := by
  intro s t hs h
  obtain ⟨-, rfl⟩ | ⟨m, moves, -, hm⟩ := step_next h
  · exact hs
  · exact perform_memoryForm (s := s.setPort moves) hs hm

end Sys2Proof.Safety

namespace Sys2Proof

/-! ### The operand fields of a row (R100, R101, R131) -/

/-- The bits of an operand below position `n`, the others 0. -/
def lowBits (n : Nat) (x : Word) : Word := (x.extractLsb' 0 n).setWidth 64

theorem zeroFrom_iff {n : Nat} {x : Word} : zeroFrom n x = true ↔ x.toNat < 2 ^ n := by
  rw [zeroFrom, decide_eq_true_eq, ← BitVec.toNat_inj, BitVec.toNat_ushiftRight, Nat.shiftRight_eq_div_pow]
  exact Nat.div_eq_zero_iff_lt (Nat.two_pow_pos n)

@[simp] theorem zeroFrom_of_zero (n : Nat) : zeroFrom n 0#64 = true := zeroFrom_iff.2 (Nat.two_pow_pos n)

@[simp] theorem zeroFrom_width (x : Word) : zeroFrom 64 x = true := zeroFrom_iff.2 x.isLt

@[simp] theorem zeroFrom_setWidth {n : Nat} (x : BitVec n) : zeroFrom n (x.setWidth 64) = true := by
  rw [zeroFrom_iff, BitVec.toNat_setWidth]
  exact (Nat.mod_le ..).trans_lt x.isLt

/-- A reserved-zero range as a mask. -/
theorem and_mask_eq_zero_iff {n : Nat} {x : Word} : x &&& (BitVec.allOnes 64 <<< n) = 0 ↔ zeroFrom n x = true := by
  have hle : x.toNat / 2 ^ n * 2 ^ n < 2 ^ 64 := (Nat.div_mul_le_self ..).trans_lt x.isLt
  rw [← BitVec.shiftLeft_ushiftRight, ← BitVec.toNat_inj, BitVec.toNat_shiftLeft, BitVec.toNat_ushiftRight,
    Nat.shiftRight_eq_div_pow, Nat.shiftLeft_eq, Nat.mod_eq_of_lt hle, zeroFrom_iff,
    ← Nat.div_eq_zero_iff_lt (Nat.two_pow_pos n)]
  exact Nat.mul_eq_zero.trans (or_iff_left (Nat.two_pow_pos n).ne')

/-- An operand whose reserved-zero bits are 0 is its low bits. -/
theorem lowBits_eq_self {n : Nat} {x : Word} (h : zeroFrom n x = true) : lowBits n x = x := by
  have hx := Nat.mod_eq_of_lt (zeroFrom_iff.1 h)
  refine BitVec.eq_of_toNat_eq ?_
  rw [lowBits, BitVec.toNat_setWidth, BitVec.extractLsb'_toNat, Nat.shiftRight_zero, hx, Nat.mod_eq_of_lt x.isLt]

/-- A field widened to an operand is read back from it. -/
theorem extract_setWidth {n : Nat} (h : n ≤ 64) (x : BitVec n) : (x.setWidth 64).extractLsb' 0 n = x := by
  refine BitVec.eq_of_toNat_eq ?_
  rw [BitVec.extractLsb'_toNat, BitVec.toNat_setWidth_of_le h, Nat.shiftRight_zero, Nat.mod_eq_of_lt x.isLt]

/-- The three-slot form has `d`'s byte lowest, then `l`'s, then `r`'s. -/
theorem toNat_threeSlots (d l r : BitVec 8) :
    (threeSlots d l r).toNat = d.toNat + l.toNat * 2 ^ 8 + r.toNat * 2 ^ 16 := by
  have hbytes : threeSlots d l r = (r ++ (l ++ d)).setWidth 64 := by
    ext i hi
    grind [threeSlots]
  have hlow : (l ++ d).toNat = l.toNat * 2 ^ 8 + d.toNat := by
    rw [BitVec.toNat_append, ← Nat.shiftLeft_add_eq_or_of_lt d.isLt, Nat.shiftLeft_eq]
  rw [hbytes, BitVec.toNat_setWidth, BitVec.toNat_append, ← Nat.shiftLeft_add_eq_or_of_lt (l ++ d).isLt, hlow,
    Nat.shiftLeft_eq]
  omega

@[simp] theorem zeroFrom_threeSlots (d l r : BitVec 8) : zeroFrom 24 (threeSlots d l r) = true := by
  rw [zeroFrom_iff, toNat_threeSlots]
  omega

theorem extract_threeSlots (d l r : BitVec 8) :
    (threeSlots d l r).extractLsb' 0 8 = d ∧ (threeSlots d l r).extractLsb' 8 8 = l ∧
      (threeSlots d l r).extractLsb' 16 8 = r := by
  simp only [← BitVec.toNat_inj, BitVec.extractLsb'_toNat, toNat_threeSlots, Nat.shiftRight_eq_div_pow]
  omega

theorem threeSlots_extract (a : Word) :
    threeSlots (a.extractLsb' 0 8) (a.extractLsb' 8 8) (a.extractLsb' 16 8) = lowBits 24 a := by
  simp only [← BitVec.toNat_inj, toNat_threeSlots, lowBits, BitVec.toNat_setWidth, BitVec.extractLsb'_toNat,
    Nat.shiftRight_eq_div_pow]
  omega

/-! ### Command words (R100, R130) -/

theorem commandWord_inj {op op' : BitVec 8} {a a' b b' : Word} :
    commandWord op a b = commandWord op' a' b' ↔ op = op' ∧ a = a' ∧ b = b' := by
  refine ⟨fun h => ?_, fun ⟨hop, ha, hb⟩ => by rw [hop, ha, hb]⟩
  have hop := congrArg opField h
  have ha := congrArg aField h
  have hb := congrArg bField h
  simp only [opField_commandWord, aField_commandWord, bField_commandWord] at hop ha hb
  exact ⟨hop, ha, hb⟩

theorem commandWord_and (op op' : BitVec 8) (a a' b b' : Word) :
    commandWord op a b &&& commandWord op' a' b' = commandWord (op &&& op') (a &&& a') (b &&& b') := by
  unfold commandWord
  rw [← BitVec.and_append, ← BitVec.and_append]

theorem toNat_commandWord (op : BitVec 8) (a b : Word) :
    (commandWord op a b).toNat = op.toNat + a.toNat * 2 ^ 8 + b.toNat * 2 ^ 72 := by
  have hop := op.isLt
  have ha := a.isLt
  unfold commandWord
  rw [BitVec.toNat_append, BitVec.toNat_append, ← Nat.shiftLeft_add_eq_or_of_lt hop,
    ← Nat.shiftLeft_add_eq_or_of_lt ha]
  simp only [Nat.shiftLeft_eq]
  omega

theorem setWidth_eq_commandWord (op : BitVec 8) : op.setWidth 136 = commandWord op 0 0 := by
  refine BitVec.eq_of_toNat_eq ?_
  rw [toNat_commandWord, BitVec.toNat_setWidth_of_le (by decide)]
  rfl

/-! ### The rows of the table (R101) -/

/-- How many low bits of `a` a command's row uses; those above them are the row's reserved-zero range. -/
def usedA : Instr → Nat
  | .wclr | .flush | .get _ | .efenc | .efdec => 0
  | .rbind _ => 2
  | .sqbuild _ _ | .sqlen _ | .sqbsz _ | .sqnblk _ | .sqdec _ | .sqdecb _ _ | .sqget _ _ | .sqhas _ _ | .sqldb _ _
  | .sqser _ | .sqload _ => 8
  | .sqand _ _ _ | .sqor _ _ _ => 24
  | .put _ _ | .scan _ | .flog2 _ | .cdiv _ _ | .ctz _ | .next1 _ | .efat _ | .efhas _ => 64

/-- How many low bits of `b` a command's row uses. -/
def usedB : Instr → Nat
  | .wclr | .flush | .rbind _ | .scan _ | .flog2 _ | .ctz _ | .next1 _ | .efenc | .efdec | .efat _ | .efhas _ | .sqlen _
  | .sqbsz _ | .sqnblk _ | .sqdec _ | .sqser _ | .sqload _ | .sqand _ _ _ | .sqor _ _ _ => 0
  | .put _ _ | .get _ => 7
  | .sqbuild _ _ => 32
  | .cdiv _ _ | .sqdecb _ _ | .sqget _ _ | .sqhas _ _ | .sqldb _ _ => 64

/-- `i` is the command that the row of opcode `op` reads from `a` and `b`, and `reserved` is the row's test of step 2 of
R102. -/
structure RowReads (op : BitVec 8) (a b : Word) (reserved : Bool) (i : Instr) : Prop where
  op_eq : opcode i = op
  a_eq : operandA i = lowBits (usedA i) a
  b_eq : operandB i = lowBits (usedB i) b
  reserved_eq : reserved = (zeroFrom (usedA i) a && zeroFrom (usedB i) b)

/-- A word has a reserved opcode, or its opcode's row reads a command from it. -/
theorem decodeFields_cases (op : BitVec 8) (a b : Word) :
    (Safety.rowMask op = none ∧ decodeFields op a b = .error .reservedOpcode) ∨
      ∃ reserved i, decodeFields op a b = decodeRow reserved i ∧ RowReads op a b reserved i := by
  unfold decodeFields
  dsimp only
  split
  case h_28 => exact .inl ⟨by simp [Safety.rowMask, *], rfl⟩
  all_goals
    rename_i hop
    refine .inr ⟨_, _, rfl, BitVec.eq_of_toNat_eq hop.symm, ?_, ?_, by simp [usedA, usedB]⟩
    · simp [operandA, usedA, lowBits, threeSlots_extract]
    · simp [operandB, usedB, lowBits]

/-- What a row reads from a command's own operands is the command. -/
theorem decodeFields_operands (i : Instr) :
    decodeFields (opcode i) (operandA i) (operandB i) = decodeRow true i := by
  cases i <;> simp [decodeFields, opcode, operandA, operandB, extract_setWidth, extract_threeSlots]

/-- A row's column `mask_full`: the opcode and the reserved-zero bits. -/
theorem rowMask_opcode (i : Instr) :
    Safety.rowMask (opcode i) =
      some (commandWord 0xFF (BitVec.allOnes 64 <<< usedA i) (BitVec.allOnes 64 <<< usedB i)) := by
  cases i <;> simp only [opcode, usedA, usedB] <;> decide

section

variable {op : BitVec 8} {a b : Word} {reserved : Bool} {i : Instr} (h : RowReads op a b reserved i)

include h

/-- Where the reserved-zero bits are 0 the row has read all of the word. -/
theorem RowReads.encode_eq (hreserved : reserved = true) : encode i = commandWord op a b := by
  obtain ⟨hop, ha, hb, hres⟩ := h
  rw [hreserved, eq_comm, Bool.and_eq_true] at hres
  rw [encode, hop, ha, hb, lowBits_eq_self hres.1, lowBits_eq_self hres.2]

/-- The table's mask and the row's test ask the same of a word. -/
theorem RowReads.and_mask_eq_iff {m : CommandWord} (hm : Safety.rowMask op = some m) :
    commandWord op a b &&& m = op.setWidth 136 ↔ reserved = true := by
  rw [← h.op_eq, rowMask_opcode, Option.some_inj] at hm
  rw [← hm, commandWord_and, setWidth_eq_commandWord, commandWord_inj, and_mask_eq_zero_iff,
    and_mask_eq_zero_iff, h.reserved_eq, Bool.and_eq_true]
  exact and_iff_right (BitVec.and_allOnes (x := op))

end

end Sys2Proof

namespace Sys2Proof.Safety

open Sys2Proof.Machine

/-- Settles O1: a command's row reads back the operands the encoder laid out. -/
theorem decodeOfEncodeIsTheCommand : Obligations.DecodeOfEncodeIsTheCommand := fun i hi => by
  rw [encode, decode_commandWord, decodeFields_operands, decodeRow_of rfl hi]

/-- Settles O2: a row that accepts a word has read all of it. -/
theorem encodeOfDecodeIsTheWord : Obligations.EncodeOfDecodeIsTheWord := by
  intro c i hdecode
  obtain ⟨-, herror⟩ | ⟨reserved, j, hrow, hreads⟩ := decodeFields_cases (opField c) (aField c) (bField c)
  · cases hdecode.symm.trans herror
  · obtain ⟨hreserved, rfl, hwf⟩ := decodeRow_ok (hrow.symm.trans hdecode)
    exact ⟨hwf, (hreads.encode_eq hreserved).trans (commandWord_fields c)⟩

/-- Settles O3: the three fields do not overlap. -/
theorem commandWordIsItsNumber : Obligations.CommandWordIsItsNumber := fun _ => toNat_commandWord ..

/-! ### The checks of R102 on the word of a term -/

theorem badWidth_encode_iff (i : Instr) : badWidth (encode i) ↔ formReject i = some .width := by
  obtain ⟨hop, -, hb⟩ := Laws.OpcodeByte.all i
  rw [badWidth, hop, hb]
  cases i <;> simp [opcode, operandB, formReject]
  all_goals omega

theorem badSelector_encode_iff (i : Instr) : badSelector (encode i) ↔ formReject i = some .selector := by
  obtain ⟨hop, ha, -⟩ := Laws.OpcodeByte.all i
  rw [badSelector, hop, ha]
  cases i <;> simp [opcode, operandA, formReject, slotOpcodes, toNat_threeSlots]
  all_goals omega

theorem decodeRow_of_formReject {i : Instr} {r : Reject} (h : formReject i = some r) :
    decodeRow true i = .error r := by
  simp [decodeRow, h]

/-- Steps 3 and 4 of R102 reject for the width or for a selector, or not at all. -/
theorem wf_of_not_rejected {i : Instr} (hwidth : formReject i ≠ some .width)
    (hselector : formReject i ≠ some .selector) : i.wf = true := by
  rw [← formReject_eq_none_iff]
  cases i <;> simp_all [formReject]

/-- Settles O4: a word that passes its row's mask is the word of the command the row reads, and steps 3 and 4 test that
command. -/
theorem decodeChecksRunInOrder : Obligations.DecodeChecksRunInOrder := by
  intro c s hrun
  obtain ⟨hmask, herror⟩ | ⟨reserved, i, hrow, hreads⟩ := decodeFields_cases (opField c) (aField c) (bField c)
  · exact ⟨fun _ => runCommand_of_decode_error hrun herror, fun m hm => absurd (hmask.symm.trans hm) nofun⟩
  refine ⟨fun hnone => ?_, fun m hm => ?_⟩
  · rw [← hreads.op_eq, rowMask_opcode] at hnone
    cases hnone
  have hword := hreads.and_mask_eq_iff hm
  rw [commandWord_fields] at hword
  refine ⟨fun hne => ?_, fun heq => ?_⟩
  · obtain rfl : reserved = false := by simpa [hword] using hne
    exact runCommand_of_decode_error hrun hrow
  obtain rfl := hword.1 heq
  have hc : encode i = c := (hreads.encode_eq rfl).trans (commandWord_fields c)
  rw [← hc, badWidth_encode_iff, badSelector_encode_iff, hc]
  refine ⟨fun hwidth => ?_, fun hselector => ?_, fun hwidth hselector => ?_⟩
  · exact runCommand_of_decode_error hrun (hrow.trans (decodeRow_of_formReject hwidth))
  · exact runCommand_of_decode_error hrun (hrow.trans (decodeRow_of_formReject hselector))
  · have hdecode : decode c = .ok i := hrow.trans (decodeRow_of rfl (wf_of_not_rejected hwidth hselector))
    exact ⟨i, hdecode, runCommand_of_decode_ok hrun hdecode⟩

/-- Settles O5: the words are evaluated; their slot indices are below 3, which every `NSLOT` is at least (R9). -/
theorem wordsOfTheSpecDecode : Obligations.WordsOfTheSpecDecode := by
  unfold Obligations.WordsOfTheSpecDecode
  decide

/-! ### The registers a command leaves alone (R101, column "Writes") -/

namespace WritesOnly

section

variable {s t : State} {rs : List Reg} (h : WritesOnly rs s t)

include h

theorem readerWords_eq (hn : .readerWords ∉ rs) : t.reader.words = s.reader.words := by
  cases h with
  | reader rd hw hp => exact absurd hw hn
  | found found => rw [State.setFound_reader]
  | _ => rfl

theorem readerPos_eq (hn : .readerPos ∉ rs) : t.reader.pos = s.reader.pos := by
  cases h with
  | readerPos pos hp => exact absurd hp hn
  | reader rd hw hp => exact absurd hp hn
  | read n pos hr hp => exact absurd hp hn
  | found found => rw [State.setFound_reader]
  | _ => rfl

theorem res_eq (hn : .res ∉ rs) : t.res = s.res := by
  cases h with
  | res n hr => exact absurd hr hn
  | read n pos hr hp => exact absurd hr hn
  | found found hr ht => exact absurd hr hn
  | _ => rfl

theorem t_eq (hn : .t ∉ rs) : t.t = s.t := by
  cases h with
  | flag x ht => exact absurd ht hn
  | found found hr ht => exact absurd ht hn
  | _ => rfl

theorem port_eq : t.port = s.port := by
  cases h with
  | found found => exact State.setFound_port s found
  | _ => rfl

/-- What is no fault leaves the fault registers, and a fault writes nothing else (R330). -/
theorem fault_registers : t.err = s.err ∧ t.einfo = s.einfo ∨ t = faulted s t.err t.einfo := by
  cases h with
  | fault kind info => exact .inr rfl
  | found found => exact .inl ⟨State.setFound_err s found, State.setFound_einfo s found⟩
  | _ => exact .inl ⟨rfl, rfl⟩

end

end WritesOnly

/-- Settles O58: a command is confined to the updates of the registers it lists. -/
theorem frameOfTheRegisters : Obligations.FrameOfTheRegisters := fun _ _ _ h =>
  have hwrites := exec_writesOnly h
  ⟨hwrites.writer_eq, hwrites.readerWords_eq, hwrites.readerPos_eq, hwrites.res_eq, hwrites.t_eq, hwrites.port_eq,
    hwrites.fault_registers⟩

end Sys2Proof.Safety

namespace Sys2Proof.Machine

/-! ### The ends of a run (R104, R113) -/

section

variable {vs : List Word}

theorem headD_mem (h : vs ≠ []) : vs.headD 0 ∈ vs := by
  obtain ⟨v, ws, rfl⟩ := List.exists_cons_of_ne_nil h
  exact List.mem_cons_self

theorem getLastD_mem (h : vs ≠ []) : vs.getLastD 0 ∈ vs := by
  rw [List.getLastD_eq_getLast?, List.getLast?_eq_some_getLast h]
  exact List.getLast_mem h

theorem headD_le_of_mem (h : nonDecreasing vs = true) {v : Word} (hv : v ∈ vs) : (vs.headD 0).toNat ≤ v.toNat := by
  have hrise := (nonDecreasing_iff_pairwise vs).1 h
  obtain ⟨w, ws, rfl⟩ := List.exists_cons_of_ne_nil (List.ne_nil_of_mem hv)
  exact hrise.rel_head_of_rel_head_head hv le_rfl

theorem le_getLastD_of_mem (h : nonDecreasing vs = true) {v : Word} (hv : v ∈ vs) :
    v.toNat ≤ (vs.getLastD 0).toNat := by
  have hrise := (nonDecreasing_iff_pairwise vs).1 h
  rw [List.getLastD_eq_getLast?, List.getLast?_eq_some_getLast (List.ne_nil_of_mem hv)]
  exact hrise.rel_getLast_of_rel_getLast_getLast hv le_rfl

end

theorem blockOf_sublist (vs : List Word) (size b : Nat) : (Safety.blockOf vs size b).Sublist vs :=
  (List.take_sublist ..).trans (List.drop_sublist ..)

/-! ### The metadata of a parsed block (R105, R242) -/

section

variable (payload : List Byte) (o : Nat)

theorem nElem_parseBlock : (parseBlock payload o).nElem.toNat = memRead payload o 4 :=
  Nat.mod_eq_of_lt (memRead_lt ..)

theorem lowWords_parseBlock : (parseBlock payload o).lowWords.toNat = memRead payload (o + 16) 8 :=
  Nat.mod_eq_of_lt (memRead_lt ..)

theorem highWords_parseBlock : (parseBlock payload o).highWords.toNat = memRead payload (o + 24) 8 :=
  Nat.mod_eq_of_lt (memRead_lt ..)

end

end Sys2Proof.Machine

namespace Sys2Proof.Safety

open Sys2Proof.Machine

/-- A block ends `size_of_block` after it begins (R111). -/
theorem blockEnd_slotOffset (q : Sequence) (b : Nat) :
    blockEnd q.payload (slotOffset q b) =
      slotOffset q b + (40 + 8 * ((blockAt q b).lowWords.toNat + (blockAt q b).highWords.toNat)) := by
  rw [blockAt, lowWords_parseBlock, highWords_parseBlock, ← Nat.add_assoc]
  rfl

/-- The last block holds what the full blocks before it leave, at least one value (R113). -/
theorem chainCount_last {bsz total : Nat} (hbsz : 1 ≤ bsz) (hn : 0 < ceilDiv total bsz) :
    chainCount bsz total (ceilDiv total bsz) (ceilDiv total bsz - 1) = (total - 1) % bsz + 1 := by
  obtain ⟨full, hfull⟩ : ∃ full, ceilDiv total bsz = full + 1 := ⟨_, (Nat.sub_add_cancel hn).symm⟩
  have hlower := (lt_ceilDiv_iff (n := total) (b := full) hbsz).1 (by omega)
  have hupper := (ceilDiv_le_iff (n := total) (b := full + 1) hbsz).1 hfull.le
  rw [Nat.mul_comm] at hlower
  rw [Nat.succ_mul, Nat.mul_comm] at hupper
  have hrest : (total - 1) % bsz = total - 1 - bsz * full := by
    rw [← Nat.sub_mul_mod (k := full) (by omega), Nat.mod_eq_of_lt (by omega)]
  rw [hfull, chainCount, if_neg (by omega), Nat.add_sub_cancel, hrest]
  omega

theorem blockLast_seqBuild {vs : List Word} {bsz : BitVec 32} {b : Nat} (hb : b < ceilDiv vs.length bsz.toNat) :
    (seqBuild vs bsz).blockLast.getD b 0 = (blockOf vs bsz.toNat b).getLastD 0 := by
  simp only [seqBuild, runsOf_eq_map_blockOf, List.map_map]
  simp [List.getD_eq_getElem?_getD, hb]

/-- Settles O30: a built Sequence has the shape of a slot, whose block chain gives the offsets and the counts. -/
theorem builtSequenceMeetsTheInvariants : Obligations.BuiltSequenceMeetsTheInvariants := by
  intro vs bsz h q n size
  have hsorted : nonDecreasing vs = true := h.1
  have hn : n = ceilDiv vs.length bsz.toNat := nBlocks_seqBuild h
  have hnElem : q.nElem.toNat = vs.length := nElem_seqBuild h
  obtain ⟨hbsz, -, hlasts, hoffsets, hrise, hchain, hend⟩ : slotShape q := slotShape_seqBuild h
  have hstart (b : Nat) (hb : b < n) : slotOffset q b = chainOffset q.payload (slotOffset q) b :=
    (blockChain_iff.1 hchain b hb).1
  have hcount (b : Nat) (hb : b < n) : (blockAt q b).nElem.toNat = chainCount bsz.toNat vs.length n b := by
    obtain ⟨-, -, hcount, -⟩ := blockChain_iff.1 hchain b hb
    rw [← hnElem]
    exact (nElem_parseBlock ..).trans hcount
  have hnext (b : Nat) : chainOffset q.payload (slotOffset q) (b + 1) = slotOffset q b + size b :=
    blockEnd_slotOffset q b
  refine ⟨hn, hlasts, hoffsets, hrise, fun b hb => ?_, ?_, fun hzero => ?_, fun hpos => hstart 0 hpos,
    fun b hb => ⟨(hstart (b + 1) hb).trans (hnext b), ?_⟩, fun hpos => ⟨?_, ?_⟩⟩
  · rw [hn] at hb
    obtain ⟨-, hmin, -⟩ := length_blockOf hbsz hb
    rw [blockLast_seqBuild hb]
    exact ⟨rfl, getLastD_mem (List.ne_nil_of_length_pos hmin),
      fun v => le_getLastD_of_mem (nonDecreasing_of_sublist (blockOf_sublist ..) hsorted)⟩
  · have hheader := headerOffset_seqBuild_lt h
    rw [← hn] at hheader
    exact Nat.mod_eq_of_lt hheader
  · rw [show q.nBlocks.toNat = 0 from hzero, chainOffset_zero] at hend
    exact List.eq_nil_of_length_eq_zero hend.symm
  · rw [hcount b (by omega), chainCount, if_pos hb]
  · have hlast := hnext (n - 1)
    rw [Nat.sub_add_cancel hpos] at hlast
    exact hend.symm.trans hlast
  · rw [hcount (n - 1) (by omega), hn]
    exact chainCount_last hbsz (hn ▸ hpos)

end Sys2Proof.Safety

namespace Sys2Proof.Machine

/-! ### A word array as one number (R13, R19) -/

/-- The number whose bit `p` is bit `p` of the stream. -/
def streamValue (ws : List Word) : Nat := Nat.ofDigits (2 ^ 64) (ws.map BitVec.toNat)

theorem streamValue_cons (w : Word) (ws : List Word) : streamValue (w :: ws) = 2 ^ 64 * streamValue ws + w.toNat := by
  rw [streamValue, List.map_cons, Nat.ofDigits_cons, Nat.add_comm]
  rfl

theorem streamValue_append (us ws : List Word) :
    streamValue (us ++ ws) = streamValue us + 2 ^ (64 * us.length) * streamValue ws := by
  rw [streamValue, List.map_append, Nat.ofDigits_append, List.length_map, ← Nat.pow_mul]
  rfl

theorem streamValue_singleton (w : Word) : streamValue [w] = w.toNat := Nat.ofDigits_singleton

theorem streamBit_eq_getLsbD (ws : List Word) (p : Nat) :
    streamBit ws p = ((ws.getD (p / 64) 0).getLsbD (p % 64)).toNat := by
  rw [streamBit, BitVec.getLsbD, Nat.toNat_testBit, Nat.and_one_is_mod, Nat.shiftRight_eq_div_pow]

theorem streamBit_eq_testBit (ws : List Word) (p : Nat) : streamBit ws p = ((streamValue ws).testBit p).toNat := by
  rw [streamBit_eq_getLsbD]
  induction ws generalizing p with
  | nil => simp [streamValue]
  | cons w ws ih =>
    rw [streamValue_cons, Nat.testBit_two_pow_mul_add _ w.isLt]
    split
    · rename_i hp
      rw [Nat.div_eq_of_lt hp, Nat.mod_eq_of_lt hp]
      rfl
    · rename_i hp
      obtain ⟨q, rfl⟩ := Nat.exists_eq_add_of_le' (Nat.le_of_not_lt hp)
      rw [Nat.add_div_right q (by decide), Nat.add_mod_right, List.getD_cons_succ, Nat.add_sub_cancel, ih]

theorem readBits_eq (ws : List Word) (p w : Nat) : readBits ws p w = streamValue ws / 2 ^ p % 2 ^ w := by
  induction w generalizing p with
  | zero => simp [readBits, Nat.mod_one]
  | succ w ih =>
    rw [readBits, ih, streamBit_eq_testBit, Nat.toNat_testBit, Nat.pow_succ' (n := w), Nat.mod_mul, Nat.pow_succ,
      Nat.div_div_eq_div_mul]

/-! ### The Writer's number (R33, R141, R143) -/

theorem and_mask (x w : Nat) : x &&& mask w = x % 2 ^ w := Nat.and_two_pow_sub_one_eq_mod x w

/-- The number of the bits written so far. -/
def writerValue (wr : Writer) : Nat := streamValue wr.words + 2 ^ (64 * wr.words.length) * wr.cur.toNat

/-- An accumulator of up to two words: the low word is appended, the high word stays. -/
theorem writerValue_append (ws : List Word) {merged : Nat} (h : merged < 2 ^ 128) (filled : BitVec 6) :
    writerValue { words := ws ++ [BitVec.ofNat 64 merged], cur := BitVec.ofNat 64 (merged >>> 64), filled := filled } =
      streamValue ws + 2 ^ (64 * ws.length) * merged := by
  have hhigh : merged / 2 ^ 64 < 2 ^ 64 := Nat.div_lt_of_lt_mul h
  rw [writerValue, streamValue_append, streamValue_singleton, List.length_append, List.length_singleton, Nat.mul_succ,
    Nat.pow_add, BitVec.toNat_ofNat, BitVec.toNat_ofNat, Nat.shiftRight_eq_div_pow, Nat.mod_eq_of_lt hhigh,
    Nat.add_assoc, Nat.mul_assoc, ← Nat.mul_add, Nat.mod_add_div]

/-- The bits `PUT` merges do not overlap (R33). -/
theorem merged_eq_add {wr : Writer} (hok : Safety.writerOk wr) (val w : Nat) :
    wr.cur.toNat ||| ((val &&& mask w) <<< wr.filled.toNat) =
      wr.cur.toNat + 2 ^ wr.filled.toNat * (val % 2 ^ w) := by
  rw [and_mask, Nat.or_comm, ← Nat.shiftLeft_add_eq_or_of_lt hok, Nat.shiftLeft_eq, Nat.add_comm, Nat.mul_comm]

/-- `PUT` writes its field at the Writer's bit position (R35). -/
theorem writerValue_writerPut {wr : Writer} {val w : Nat} (hok : Safety.writerOk wr) (hw : w ≤ 64) :
    writerValue (writerPut wr val w) = writerValue wr + 2 ^ Safety.writerBits wr * (val % 2 ^ w) := by
  have hmerged := Safety.merged_lt (val := val) (w := w) hok
  have hfilled := wr.filled.isLt
  have hsum : writerValue wr + 2 ^ Safety.writerBits wr * (val % 2 ^ w) =
      streamValue wr.words + 2 ^ (64 * wr.words.length) * (wr.cur.toNat + 2 ^ wr.filled.toNat * (val % 2 ^ w)) := by
    rw [writerValue, Safety.writerBits, Nat.pow_add, Nat.mul_add, Nat.add_assoc, Nat.mul_assoc]
  rw [hsum, ← merged_eq_add hok]
  unfold writerPut
  split
  · rename_i hzero
    simp [hzero, writerValue, mask]
  · dsimp only
    split
    · exact writerValue_append _ (hmerged.trans_le (Nat.pow_le_pow_right (by decide) (by omega))) _
    · rw [writerValue, BitVec.toNat_ofNat,
        Nat.mod_eq_of_lt (hmerged.trans_le (Nat.pow_le_pow_right (by decide) (by omega)))]

/-- `FLUSH` appends the partial word where there is one (R143). -/
theorem streamValue_writerFlush {wr : Writer} (hok : Safety.writerOk wr) :
    streamValue (writerFlush wr).words = writerValue wr := by
  unfold writerFlush
  split
  · rw [streamValue_append, streamValue_singleton, writerValue]
  · rename_i hfilled
    have hcur : wr.cur.toNat = 0 := by
      rwa [Safety.writerOk, Nat.eq_zero_of_not_pos hfilled, Nat.pow_zero, Nat.lt_one_iff] at hok
    rw [writerValue, hcur, Nat.mul_zero, Nat.add_zero]

/-- Fields of one width are the digits of what they add (R149). -/
theorem writerValue_foldl_writerPut {l : Nat} (hl : l ≤ 64) (val : Word → Nat) (vs : List Word) {wr : Writer}
    (hok : Safety.writerOk wr) :
    Safety.writerOk (vs.foldl (fun wr v => writerPut wr (val v) l) wr) ∧
      writerValue (vs.foldl (fun wr v => writerPut wr (val v) l) wr) =
        writerValue wr + 2 ^ Safety.writerBits wr * Nat.ofDigits (2 ^ l) (vs.map fun v => val v % 2 ^ l) := by
  induction vs generalizing wr with
  | nil => exact ⟨hok, by simp⟩
  | cons v vs ih =>
    obtain ⟨hok', hvalue⟩ := ih (Safety.writerOk_writerPut (val := val v) hok hl)
    refine ⟨hok', hvalue.trans ?_⟩
    rw [writerValue_writerPut hok hl, Safety.writerBits_writerPut hl, List.map_cons, Nat.ofDigits_cons, Nat.pow_add]
    ring

/-! ### The low array (R107, R193) -/

section

variable {b : Nat} (hb : 0 < b) {ds : List Nat} (hds : ∀ d ∈ ds, d < b)

include hb hds

/-- A number's digits are read off by division. -/
theorem ofDigits_div_pow_mod (j : Nat) : Nat.ofDigits b ds / b ^ j % b = ds.getD j 0 := by
  induction ds generalizing j with
  | nil => simp
  | cons d ds ih =>
    obtain ⟨hd, hrest⟩ := List.forall_mem_cons.1 hds
    cases j with
    | zero => simp [Nat.ofDigits_cons, Nat.mod_eq_of_lt hd]
    | succ j =>
      rw [Nat.pow_succ', ← Nat.div_div_eq_div_mul, Nat.ofDigits_div_eq_ofDigits_tail hb _ hds, List.tail_cons, ih hrest,
        List.getD_cons_succ]

theorem ofDigits_lt_pow_length : Nat.ofDigits b ds < b ^ ds.length := by
  rw [← Nat.div_eq_zero_iff_lt (Nat.pow_pos hb), Nat.ofDigits_div_pow_eq_ofDigits_drop _ hb _ hds, List.drop_length,
    Nat.ofDigits_nil]

end

theorem streamValue_efLow {l : Nat} (hl : l ≤ 64) (vs : List Word) (floor : Nat) :
    streamValue (efLow vs floor l) = Nat.ofDigits (2 ^ l) (vs.map fun v => (v.toNat - floor) % 2 ^ l) := by
  obtain ⟨hok, hvalue⟩ := writerValue_foldl_writerPut hl (fun v => (v.toNat - floor) &&& mask l) vs
    Safety.writerOk_emptyWriter
  rw [efLow, streamValue_writerFlush hok, hvalue]
  simp [emptyWriter, writerValue, Safety.writerBits, streamValue, and_mask]

/-- Field `j` of the low array is value `j`'s low bits. -/
theorem readBits_efLow {l : Nat} (hl : l ≤ 64) {vs : List Word} {j : Nat} {v : Word} (hv : vs[j]? = some v)
    (floor : Nat) : readBits (efLow vs floor l) (j * l) l = (v.toNat - floor) % 2 ^ l := by
  rw [readBits_eq, streamValue_efLow hl, Nat.mul_comm, Nat.pow_mul, ofDigits_div_pow_mod (Nat.two_pow_pos l)]
  · simp [hv]
  · simp [Nat.mod_lt]

/-- Past the last field the low array is zero padding. -/
theorem streamBit_efLow_of_le {l : Nat} (hl : l ≤ 64) {vs : List Word} {p : Nat} (hp : vs.length * l ≤ p)
    (floor : Nat) : streamBit (efLow vs floor l) p = 0 := by
  have hlt := ofDigits_lt_pow_length (Nat.two_pow_pos l) (ds := vs.map fun v => (v.toNat - floor) % 2 ^ l)
    (by simp [Nat.mod_lt])
  rw [List.length_map, ← Nat.pow_mul, Nat.mul_comm] at hlt
  rw [streamBit_eq_testBit, streamValue_efLow hl,
    Nat.testBit_lt_two_pow (hlt.trans_le (Nat.pow_le_pow_right (by decide) hp)), Bool.toNat_false]

/-! ### The high array (R108, R194) -/

@[simp] theorem length_setBit (ws : List Word) (p : Nat) : (setBit ws p).length = ws.length := by
  simp [setBit]

theorem getLsbD_oneBit {k : Nat} (hk : k < 64) (r : Nat) :
    (BitVec.ofNat 64 (1 <<< r)).getLsbD k = decide (r = k) := by
  rw [Nat.one_shiftLeft, BitVec.getLsbD_ofNat, Nat.testBit_two_pow, decide_eq_true hk, Bool.true_and]

/-- Setting a bit inside the array sets that bit alone. -/
theorem streamBit_setBit {ws : List Word} {p : Nat} (hp : p < 64 * ws.length) (q : Nat) :
    streamBit (setBit ws p) q = 1 ↔ q = p ∨ streamBit ws q = 1 := by
  have hword : p / 64 < ws.length := Nat.div_lt_of_lt_mul hp
  rw [streamBit_eq_getLsbD, streamBit_eq_getLsbD, setBit]
  by_cases hq : q / 64 = p / 64
  · have hbit : p % 64 = q % 64 ↔ q = p := by omega
    rw [hq, List.getD_eq_getElem?_getD, List.getElem?_set_self hword, Option.getD_some, BitVec.getLsbD_or,
      getLsbD_oneBit (Nat.mod_lt q (by decide))]
    simp [hbit, or_comm]
  · have hne : q ≠ p := fun h => hq (h ▸ rfl)
    simp [Ne.symm hq, hne, List.getD_eq_getElem?_getD]

/-- The position of element `x.2`, of value `x.1`, in the high array (R194). -/
def highPosition (floor l : Nat) (x : Word × Nat) : Nat := (x.1.toNat - floor) / 2 ^ l + x.2

theorem setHighBits_eq_foldl (floor l : Nat) (vs : List Word) (i : Nat) (ws : List Word) :
    setHighBits floor l vs i ws = ((vs.zipIdx i).map (highPosition floor l)).foldl setBit ws := by
  induction vs generalizing i ws with
  | nil => rfl
  | cons v vs ih => rw [setHighBits, ih, Nat.shiftRight_eq_div_pow]; rfl

theorem streamBit_foldl_setBit {ps : List Nat} {ws : List Word} (hps : ∀ p ∈ ps, p < 64 * ws.length) (q : Nat) :
    streamBit (ps.foldl setBit ws) q = 1 ↔ q ∈ ps ∨ streamBit ws q = 1 := by
  induction ps generalizing ws with
  | nil => simp
  | cons p ps ih =>
    obtain ⟨hp, hps⟩ := List.forall_mem_cons.1 hps
    rw [List.foldl_cons, ih (by simpa using hps), streamBit_setBit hp, List.mem_cons]
    tauto

theorem streamBit_replicate_zero (n p : Nat) : streamBit (List.replicate n 0) p = 0 := by
  rw [streamBit_eq_testBit]
  simp [streamValue]

/-- The positions of a run's one bits in the high array, in order. -/
def highPositions (vs : List Word) : List Nat :=
  vs.zipIdx.map (highPosition (vs.headD 0).toNat (efLowBits vs))

theorem mem_highPositions {vs : List Word} {p : Nat} :
    p ∈ highPositions vs ↔ ∃ j v, vs[j]? = some v ∧ p = (v.toNat - (vs.headD 0).toNat) / 2 ^ efLowBits vs + j := by
  simp only [highPositions, List.mem_map, highPosition, Prod.exists, List.mk_mem_zipIdx_iff_getElem?]
  rw [exists_comm]
  simp only [eq_comm]

/-- Each element stands after the one before it, since neither its high part nor its index is lower (R194). -/
theorem pairwise_highPosition {vs : List Word} (floor l : Nat) (i : Nat) (h : nonDecreasing vs = true) :
    ((vs.zipIdx i).map (highPosition floor l)).Pairwise (· < ·) := by
  rw [nonDecreasing_iff_pairwise] at h
  induction h generalizing i with
  | nil => exact List.Pairwise.nil
  | cons hv h ih =>
    rw [List.zipIdx_cons, List.map_cons]
    refine List.Pairwise.cons (fun p hp => ?_) (ih (i + 1))
    obtain ⟨⟨w, j⟩, hx, rfl⟩ := List.mem_map.1 hp
    have hvalue : _ ≤ w.toNat := hv _ (List.fst_mem_of_mem_zipIdx hx)
    have hindex := List.le_snd_of_mem_zipIdx hx
    have hhigh := Nat.div_le_div_right (c := 2 ^ l) (Nat.sub_le_sub_right hvalue floor)
    simp only [highPosition]
    omega

/-- No high part reaches `ceil(range / 2^l)`, so `high_bits_len` leaves room for every position (R194). -/
theorem highPosition_lt {vs : List Word} (h : nonDecreasing vs = true) {p : Nat} (hp : p ∈ highPositions vs) :
    p < efHighBitsLen vs (efLowBits vs) := by
  obtain ⟨j, v, hv, rfl⟩ := mem_highPositions.1 hp
  have hj : j < vs.length := (List.getElem?_eq_some_iff.1 hv).1
  have hlast := le_getLastD_of_mem h (List.mem_of_getElem? hv)
  have hfirst := headD_le_of_mem h (List.mem_of_getElem? hv)
  have hhigh : (v.toNat - (vs.headD 0).toNat) / 2 ^ efLowBits vs < ceilDiv (efRange vs) (2 ^ efLowBits vs) := by
    rw [lt_ceilDiv_iff (Nat.two_pow_pos _), efRange]
    refine (Nat.div_mul_le_self ..).trans_lt ?_
    omega
  rw [efHighBitsLen]
  omega

theorem streamBit_high_efEncode {vs : List Word} (h : nonDecreasing vs = true) (p : Nat) :
    streamBit (efEncode vs).high p = 1 ↔ p ∈ highPositions vs := by
  have hset : (efEncode vs).high = (highPositions vs).foldl setBit
    (List.replicate (ceilDiv (efHighBitsLen vs (efLowBits vs)) 64) 0) := setHighBits_eq_foldl ..
  rw [hset, streamBit_foldl_setBit, streamBit_replicate_zero]
  · simp
  · intro p hp
    rw [List.length_replicate, Nat.mul_comm]
    exact (highPosition_lt h hp).trans_le ((ceilDiv_le_iff (by decide)).1 le_rfl)

theorem countP_high {vs : List Word} (h : nonDecreasing vs = true) :
    (List.range (efHighBitsLen vs (efLowBits vs))).countP (fun p => decide (streamBit (efEncode vs).high p = 1)) =
      vs.length := by
  rw [List.countP_eq_length_filter]
  have hperm : ((List.range (efHighBitsLen vs (efLowBits vs))).filter
    (fun p => decide (streamBit (efEncode vs).high p = 1))).Perm (highPositions vs) := by
    have hnodup : (highPositions vs).Nodup := (pairwise_highPosition _ _ _ h).imp Nat.ne_of_lt
    rw [List.perm_ext_iff_of_nodup (List.nodup_range.filter _) hnodup]
    intro p
    rw [List.mem_filter, List.mem_range, decide_eq_true_eq, streamBit_high_efEncode h]
    exact and_iff_right_of_imp (highPosition_lt h)
  rw [hperm.length_eq, highPositions, List.length_map, List.length_zipIdx]

/-! ### The format (R107, R108) -/

/-- Where `l = 0` the product asks for no words either (R107). -/
theorem lowWordsFor_eq_ceilDiv (n l : Nat) : lowWordsFor n l = ceilDiv (n * l) 64 := by
  unfold lowWordsFor
  split
  · rfl
  · rename_i hl
    rw [Nat.eq_zero_of_not_pos hl, Nat.mul_zero, ceilDiv]

end Sys2Proof.Machine

namespace Sys2Proof.Safety

open Sys2Proof.Machine

/-- Settles O23: the low array is one number whose base-`2^l` digits are the low fields, and the encoder sets a bit of the
high array at each of the run's positions, which rise and lie below `high_bits_len`. -/
theorem encodedBlockMeetsTheFormat : Obligations.EncodedBlockMeetsTheFormat := by
  intro vs hrun blk l range
  obtain ⟨hrise, hmin, hmax⟩ := hrun
  have hl : l = efLowBits vs := l_efEncode vs
  clear_value l
  subst hl
  have hne : vs ≠ [] := List.ne_nil_of_length_pos hmin
  have hl : efLowBits vs ≤ 64 := (efLowBits_le vs).trans (by decide)
  have hlog : efLowBits vs = Nat.log2 (range / vs.length) := efLowBits_eq_log2 vs
  have hbits : blk.highBitsLen.toNat = efHighBitsLen vs (efLowBits vs) := highBitsLen_efEncode hmin hmax
  have hlow : blk.lowWords.toNat = ceilDiv (vs.length * efLowBits vs) 64 := lowWords_efEncode hmax
  have hhigh : blk.highWords.toNat = ceilDiv (efHighBitsLen vs (efLowBits vs)) 64 := highWords_efEncode hmin hmax
  refine ⟨nElem_efEncode hmax, fun v => headD_le_of_mem hrise, headD_mem hne, efLowBits_le vs, fun hq => ?_,
    fun hq => ?_, hbits, ?_, (length_low_efEncode vs).trans hlow.symm, ?_, (length_high_efEncode vs).trans hhigh.symm,
    fun j v hv => readBits_efLow hl hv _, fun p hp => streamBit_efLow_of_le hl hp _,
    fun p => (streamBit_high_efEncode hrise p).trans mem_highPositions, ?_⟩
  · rw [hlog]
    exact ⟨Nat.log2_self_le (Nat.ne_of_gt hq), Nat.lt_log2_self⟩
  · rw [hlog, hq, Nat.log2_zero]
  · rw [hlow, lowWordsFor_eq_ceilDiv]
  · rw [hhigh, hbits]
  · rw [hbits]
    exact countP_high hrise

end Sys2Proof.Safety

namespace Sys2Proof.Machine

/-! ### What the BitStream commands answer (R140 to R146) -/

/-- A term whose form no encoding admits faults as its decoding does. -/
theorem checkForm_of_reject {i : Instr} {r : Reject} (h : formReject i = some r) (s : State) (go : Out) :
    checkForm i s go = .next (s.setFault .illegal (rejectCause r)) := by
  rw [checkForm, h]
  rfl

section

variable {s : State} {val : Word} {w : BitVec 7}

theorem formReject_put_of_lt (hw : 64 < w.toNat) : formReject (.put val w) = some .width := if_pos hw

theorem formReject_get_of_lt (hw : 64 < w.toNat) : formReject (.get w) = some .width := if_pos hw

theorem putAppends_iff {wr : Writer} {n : Nat} : putAppends wr n = true ↔ n ≠ 0 ∧ 64 ≤ wr.filled.toNat + n := by
  simp [putAppends]

theorem exec_wclr (s : State) : exec .wclr s = .next (s.setWriter emptyWriter) := rfl

/-- `PUT` at an admitted width is the capacity test, then the Writer's `put`. -/
theorem exec_put (hw : w.toNat ≤ 64) :
    exec (.put val w) s =
      require (!putAppends s.writer w.toNat || fitsWords (s.writer.words.length + 1)) .words
        (.next (s.setWriter (writerPut s.writer val.toNat w.toNat))) :=
  checkForm_of_wf (i := .put val w) (decide_eq_true hw) ..

theorem exec_put_next (hw : w.toNat ≤ 64)
    (hfit : 64 ≤ s.writer.filled.toNat + w.toNat → fitsWords (s.writer.words.length + 1) = true) :
    exec (.put val w) s = .next (s.setWriter (writerPut s.writer val.toNat w.toNat)) := by
  rw [exec_put hw]
  refine require_of ?_ _ _
  cases happends : putAppends s.writer w.toNat with
  | false => rfl
  | true => exact hfit (putAppends_iff.1 happends).2

/-- `FLUSH` is the capacity test for the partial word, then the Writer's `flush`. -/
theorem exec_flush :
    exec .flush s =
      require (decide (s.writer.filled.toNat = 0) || fitsWords (s.writer.words.length + 1)) .words
        (.next (s.setWriter (writerFlush s.writer))) :=
  rfl

theorem exec_flush_next (hfit : 0 < s.writer.filled.toNat → fitsWords (s.writer.words.length + 1) = true) :
    exec .flush s = .next (s.setWriter (writerFlush s.writer)) := by
  rw [exec_flush]
  refine require_of ?_ _ _
  rw [Bool.or_eq_true, decide_eq_true_eq]
  exact (Nat.eq_zero_or_pos _).imp_right hfit

theorem exec_flush_of_fits (hfit : fitsWords (ceilDiv (Safety.writerBits s.writer) 64) = true) :
    exec .flush s = .next (s.setWriter (writerFlush s.writer)) := by
  refine exec_flush_next fun hpos => ?_
  rwa [← Safety.length_words_writerFlush_eq_ceilDiv, length_words_writerFlush, if_neg (Nat.ne_of_gt hpos)] at hfit

theorem exec_scan (off : Word) :
    exec (.scan off) s = .next (s.setReader { words := s.reader.words, pos := off }) := rfl

theorem exec_get (hw : w.toNat ≤ 64) (hpos : s.reader.pos.toNat + w.toNat < 2 ^ 64) :
    exec (.get w) s =
      .next ((s.setRes (readBits s.reader.words s.reader.pos.toNat w.toNat)).setReader
        { words := s.reader.words, pos := BitVec.ofNat 64 (s.reader.pos.toNat + w.toNat) }) :=
  (checkForm_of_wf (i := .get w) (decide_eq_true hw) ..).trans (if_neg (Nat.not_le_of_lt hpos))

theorem exec_get_of_overflow (hw : w.toNat ≤ 64) (hpos : 2 ^ 64 ≤ s.reader.pos.toNat + w.toNat) :
    exec (.get w) s = .next (s.setFault .illegal 6) :=
  (checkForm_of_wf (i := .get w) (decide_eq_true hw) ..).trans (if_pos hpos)

theorem exec_rbind {src : BitVec 2} (hsrc : sourceOk src = true) :
    exec (.rbind src) s = needSource src s fun ws => .next (s.setReader { words := ws, pos := 0 }) :=
  checkForm_of_wf (i := .rbind src) hsrc ..

theorem exec_rbind_writer (s : State) :
    exec (.rbind 0) s = .next (s.setReader { words := s.writer.words, pos := 0 }) := rfl

theorem exec_rbind_block {src : BitVec 2} (hsrc : sourceOk src = true) (hblock : src.toNat ≠ 0) {blk : EFBlock}
    (hefb : s.efb = some blk) :
    exec (.rbind src) s =
      .next (s.setReader { words := if src.toNat = 1 then blk.low else blk.high, pos := 0 }) := by
  rw [exec_rbind hsrc, needSource, if_neg hblock, hefb]

theorem exec_rbind_of_none {src : BitVec 2} (hsrc : sourceOk src = true) (hblock : src.toNat ≠ 0)
    (hefb : s.efb = none) : exec (.rbind src) s = .next (s.setFault .illegal 5) := by
  rw [exec_rbind hsrc, needSource, if_neg hblock, hefb]
  rfl

/-- `GET` reads a digit of the stream's number and leaves the cursor behind it (R144). -/
theorem exec_get_value (hw : w.toNat ≤ 64) (hpos : s.reader.pos.toNat + w.toNat < 2 ^ 64) :
    ∃ t, exec (.get w) s = .next t ∧ t.err = s.err ∧ t.reader.words = s.reader.words ∧
      t.reader.pos.toNat = s.reader.pos.toNat + w.toNat ∧
      t.res.toNat = streamValue s.reader.words / 2 ^ s.reader.pos.toNat % 2 ^ w.toNat := by
  refine ⟨_, exec_get hw hpos, rfl, rfl, Nat.mod_eq_of_lt hpos, ?_⟩
  rw [State.setReader_res, State.setRes_res, readBits_eq, BitVec.toNat_ofNat]
  exact Nat.mod_eq_of_lt
    ((Nat.mod_lt _ (Nat.two_pow_pos _)).trans_le (Nat.pow_le_pow_right (by decide) hw))

end

/-! ### The stream's number, bit by bit (R13, R19, R35) -/

theorem streamValue_lt (ws : List Word) : streamValue ws < 2 ^ (64 * ws.length) := by
  have hlt := ofDigits_lt_pow_length (Nat.two_pow_pos 64) (ds := ws.map BitVec.toNat)
    (List.forall_mem_map.2 fun w _ => w.isLt)
  rwa [List.length_map, ← Nat.pow_mul] at hlt

theorem streamValue_div_of_le {ws : List Word} {p : Nat} (hp : 64 * ws.length ≤ p) : streamValue ws / 2 ^ p = 0 :=
  Nat.div_eq_of_lt ((streamValue_lt ws).trans_le (Nat.pow_le_pow_right (by decide) hp))

theorem testBit_streamValue (ws : List Word) (p : Nat) :
    (streamValue ws).testBit p = (ws.getD (p / 64) 0).toNat.testBit (p % 64) :=
  Function.LeftInverse.injective Bool.ofNat_toNat
    ((streamBit_eq_testBit ws p).symm.trans (streamBit_eq_getLsbD ws p))

/-- The word-level form of a read: at most 64 bits span at most two neighbouring words (R144). -/
theorem readBits_eq_two_words (ws : List Word) (p : Nat) {w : Nat} (hw : w ≤ 64) :
    readBits ws p w =
      (((ws.getD (p / 64) 0).toNat >>> (p % 64)) ||| ((ws.getD (p / 64 + 1) 0).toNat <<< (64 - p % 64))) % 2 ^ w := by
  rw [readBits_eq]
  refine Nat.eq_of_testBit_eq fun k => ?_
  rw [Nat.testBit_mod_two_pow, Nat.testBit_mod_two_pow]
  by_cases hk : k < w
  · rw [decide_eq_true hk, Bool.true_and, Bool.true_and, Nat.testBit_div_two_pow, testBit_streamValue, Nat.testBit_or,
      Nat.testBit_shiftRight, Nat.testBit_shiftLeft]
    by_cases hword : p % 64 + k < 64
    · have hlow : ¬ 64 - p % 64 ≤ k := by omega
      rw [show (k + p) / 64 = p / 64 by omega, show (k + p) % 64 = p % 64 + k by omega]
      simp [hlow]
    · have hhigh : 64 - p % 64 ≤ k := by omega
      have hover : (ws.getD (p / 64) 0).toNat.testBit (p % 64 + k) = false :=
        BitVec.testBit_toNat _ ▸ BitVec.getLsbD_of_ge _ _ (Nat.le_of_not_lt hword)
      rw [hover, show (k + p) / 64 = p / 64 + 1 by omega, show (k + p) % 64 = k - (64 - p % 64) by omega]
      simp [hhigh]
  · rw [decide_eq_false hk, Bool.false_and, Bool.false_and]

theorem writerBit_eq_testBit (wr : Writer) (p : Nat) : Safety.writerBit wr p = ((writerValue wr).testBit p).toNat := by
  rw [Safety.writerBit, streamBit_eq_testBit, streamValue_append, streamValue_singleton, writerValue]

theorem writerValue_lt {wr : Writer} (hok : Safety.writerOk wr) : writerValue wr < 2 ^ Safety.writerBits wr := by
  rw [writerValue, Safety.writerBits, Nat.pow_add]
  calc streamValue wr.words + 2 ^ (64 * wr.words.length) * wr.cur.toNat
      < 2 ^ (64 * wr.words.length) * (wr.cur.toNat + 1) := by
        rw [Nat.mul_succ, Nat.add_comm]
        exact Nat.add_lt_add_left (streamValue_lt _) _
    _ ≤ _ := Nat.mul_le_mul_left _ hok

theorem words_prefix_writerPut (wr : Writer) (val w : Nat) : wr.words <+: (writerPut wr val w).words := by
  unfold writerPut
  split
  · exact List.prefix_rfl
  · dsimp only
    split
    · exact List.prefix_append ..
    · exact List.prefix_rfl

section

variable {wr : Writer} {val w : Nat} (hok : Safety.writerOk wr) (hw : w ≤ 64)

include hok hw

/-- Bit `p` after `PUT`: what was written before it, then the field (R141). -/
theorem testBit_writerValue_writerPut (p : Nat) :
    (writerValue (writerPut wr val w)).testBit p =
      if p < Safety.writerBits wr then (writerValue wr).testBit p
      else (val % 2 ^ w).testBit (p - Safety.writerBits wr) := by
  rw [writerValue_writerPut hok hw, Nat.add_comm, Nat.testBit_two_pow_mul_add _ (writerValue_lt hok)]

theorem writerBit_writerPut_of_lt {p : Nat} (hp : p < Safety.writerBits wr) :
    Safety.writerBit (writerPut wr val w) p = Safety.writerBit wr p := by
  rw [writerBit_eq_testBit, testBit_writerValue_writerPut hok hw, if_pos hp, writerBit_eq_testBit]

theorem writerBit_writerPut_field {k : Nat} (hk : k < w) :
    Safety.writerBit (writerPut wr val w) (Safety.writerBits wr + k) = val / 2 ^ k % 2 := by
  rw [writerBit_eq_testBit, testBit_writerValue_writerPut hok hw, if_neg (by omega), Nat.add_sub_cancel_left,
    Nat.testBit_mod_two_pow, decide_eq_true hk, Bool.true_and, Nat.toNat_testBit]

end

end Sys2Proof.Machine

namespace Sys2Proof.Safety

open Sys2Proof.Machine

/-- Settles O12: the Writer's number grows by the field at the Writer's bit position, so its bits are the old ones and
then the field's. -/
theorem putAppendsTheField : Obligations.PutAppendsTheField := by
  intro val w s
  refine ⟨fun hw => checkForm_of_reject (formReject_put_of_lt hw) .., fun hw => ?_, fun hw hok hfit => ?_,
    fun hw hpos hfull hfit => ?_⟩
  · have hsame : writerPut s.writer val.toNat w.toNat = s.writer := if_pos hw
    rw [exec_put_next (by omega) fun hfull => absurd s.writer.filled.isLt (by omega), hsame]
    rfl
  · exact ⟨_, exec_put_next hw hfit, writerOk_writerPut hok hw, writerBits_writerPut hw, words_prefix_writerPut ..,
      fun p => writerBit_writerPut_of_lt hok hw, fun k => writerBit_writerPut_field hok hw⟩
  · rw [exec_put hw, putAppends_iff.2 ⟨Nat.ne_of_gt hpos, hfull⟩, hfit]
    rfl

/-- Settles O13: a read is a digit of the stream's number, and its bits lie in two neighbouring words. -/
theorem getReadsTheStream : Obligations.GetReadsTheStream := by
  intro w s
  refine ⟨fun hw => checkForm_of_reject (formReject_get_of_lt hw) .., exec_get_of_overflow, fun hw hpos => ?_⟩
  rw [exec_get hw hpos, readBits_eq_two_words _ _ hw]
  rfl

/-- Settles O14: the stream's number has no bit at or above its length. -/
theorem readingPastTheEndGivesZero : Obligations.ReadingPastTheEndGivesZero := by
  intro w s hw hend hpos
  obtain ⟨t, ht, -, -, htpos, htres⟩ := exec_get_value hw hpos
  rw [streamValue_div_of_le hend, Nat.zero_mod] at htres
  exact ⟨t, ht, BitVec.eq_of_toNat_eq htres, htpos⟩

/-- Settles O11: the capacity test stands before the partial word's append. -/
theorem writerClearsAndFlushes : Obligations.WriterClearsAndFlushes := by
  intro s
  refine ⟨exec_wclr s, fun hzero => ?_, fun hpos hfit => ?_, fun hpos hfit => ?_⟩
  · have hsame : writerFlush s.writer = s.writer := if_neg (by omega)
    rw [exec_flush_next fun hpos => absurd hzero (Nat.ne_of_gt hpos), hsame]
    rfl
  · have hword : writerFlush s.writer = { words := s.writer.words ++ [s.writer.cur], cur := 0, filled := 0 } :=
      if_pos hpos
    rw [exec_flush_next fun _ => hfit, hword]
    rfl
  · have htest : (decide (s.writer.filled.toNat = 0) || fitsWords (s.writer.words.length + 1)) = false := by
      rw [hfit, Bool.or_false, decide_eq_false (Nat.ne_of_gt hpos)]
    rw [exec_flush, htest, require_false]

/-- Settles O15: `RBIND` rewinds onto the array its source names, `EFB`'s only where there is a block. -/
theorem readerIsRepositionedAndBound : Obligations.ReaderIsRepositionedAndBound := by
  intro s
  refine ⟨exec_scan, exec_rbind_writer s, fun blk hblk => ?_, fun hnone => ?_, rfl⟩
  · exact ⟨exec_rbind_block (src := 1) rfl (by decide) hblk, exec_rbind_block (src := 2) rfl (by decide) hblk⟩
  · exact ⟨exec_rbind_of_none (src := 1) rfl (by decide) hnone, exec_rbind_of_none (src := 2) rfl (by decide) hnone⟩

end Sys2Proof.Safety

namespace Sys2Proof.Machine

open Sys2Proof.Safety

/-! ### Runs of commands (R24, R331) -/

section

variable {s t : State}

theorem execAll_cons {i : Instr} (h : exec i s = .next t) (hrun : s.err = .noFault) (is : List Instr) :
    execAll (i :: is) s = execAll is t := by
  rw [execAll, if_neg (not_not_intro hrun), h]

/-- A run that ended without a fault goes on. -/
theorem execAll_append {is : List Instr} (h : execAll is s = .next t) (hrun : t.err = .noFault) (js : List Instr) :
    execAll (is ++ js) s = execAll js t := by
  induction is generalizing s with
  | nil =>
    cases h
    rfl
  | cons i is ih =>
    rw [execAll] at h
    rw [List.cons_append, execAll]
    split at h
    · cases h
      exact absurd hrun ‹_›
    · rw [if_neg ‹_›]
      cases hi : exec i s with
      | next u => exact ih (by rwa [hi] at h)
      | fault | refused => simp [hi] at h

end

/-! ### Fields written one after another (R147) -/

/-- The number whose bits are the fields' in order, each masked to its width, the first field's lowest. -/
def fieldsValue : List (Word × BitVec 7) → Nat
  | [] => 0
  | f :: fs => f.1.toNat % 2 ^ f.2.toNat + 2 ^ f.2.toNat * fieldsValue fs

/-- The Writer after a `put` of every field. -/
def putFields (fs : List (Word × BitVec 7)) (wr : Writer) : Writer :=
  fs.foldl (fun wr f => writerPut wr f.1.toNat f.2.toNat) wr

theorem totalWidth_cons (f : Word × BitVec 7) (fs : List (Word × BitVec 7)) :
    totalWidth (f :: fs) = f.2.toNat + totalWidth fs := by
  simp [totalWidth]

section

variable {fs : List (Word × BitVec 7)} (hws : ∀ f ∈ fs, f.2.toNat ≤ 64)

include hws

theorem writerBits_putFields (wr : Writer) : writerBits (putFields fs wr) = writerBits wr + totalWidth fs := by
  induction fs generalizing wr with
  | nil => rfl
  | cons f fs ih =>
    obtain ⟨hw, hws⟩ := List.forall_mem_cons.1 hws
    rw [putFields, List.foldl_cons, ← putFields, ih hws, writerBits_writerPut hw, totalWidth_cons, Nat.add_assoc]

/-- The fields stand one after another at the Writer's bit position. -/
theorem writerValue_putFields {wr : Writer} (hok : writerOk wr) :
    writerOk (putFields fs wr) ∧
      writerValue (putFields fs wr) = writerValue wr + 2 ^ writerBits wr * fieldsValue fs := by
  induction fs generalizing wr with
  | nil => exact ⟨hok, rfl⟩
  | cons f fs ih =>
    obtain ⟨hw, hws⟩ := List.forall_mem_cons.1 hws
    obtain ⟨hok', hvalue⟩ := ih hws (writerOk_writerPut (val := f.1.toNat) hok hw)
    refine ⟨hok', hvalue.trans ?_⟩
    rw [writerValue_writerPut hok hw, writerBits_writerPut hw, fieldsValue, Nat.pow_add]
    ring

theorem execAll_put {s : State} (hrun : s.err = .noFault)
    (hfit : fitsWords (ceilDiv (writerBits s.writer + totalWidth fs) 64) = true) :
    execAll (fs.map fun f => .put f.1 f.2) s = .next (s.setWriter (putFields fs s.writer)) := by
  induction fs generalizing s with
  | nil => rfl
  | cons f fs ih =>
    obtain ⟨hw, hws⟩ := List.forall_mem_cons.1 hws
    rw [totalWidth_cons] at hfit
    have hput : exec (.put f.1 f.2) s = .next (s.setWriter (writerPut s.writer f.1.toNat f.2.toNat)) := by
      refine exec_put_next hw fun hfull => fitsWords_mono ?_ hfit
      rw [Nat.succ_le_iff, lt_ceilDiv_iff (by decide), writerBits]
      omega
    rw [List.map_cons, execAll_cons hput hrun]
    refine ih hws (s := s.setWriter _) hrun ?_
    rwa [State.setWriter_writer, writerBits_writerPut hw, Nat.add_assoc]

/-- Writing the fields leaves the Writer flushed and the Reader at the first bit of its words. -/
theorem execAll_writeFields {s : State} (hrun : s.err = .noFault)
    (hfit : fitsWords (ceilDiv (writerBits s.writer + totalWidth fs) 64) = true) :
    execAll (writeFields fs) s =
      .next ((s.setWriter (writerFlush (putFields fs s.writer))).setReader
        { words := (writerFlush (putFields fs s.writer)).words, pos := 0 }) := by
  have hflush : exec .flush (s.setWriter (putFields fs s.writer)) =
      .next (s.setWriter (writerFlush (putFields fs s.writer))) := by
    rw [← writerBits_putFields hws] at hfit
    exact exec_flush_of_fits hfit
  have hbind := exec_rbind_writer (s.setWriter (writerFlush (putFields fs s.writer)))
  rw [writeFields, execAll_append (execAll_put hws hrun hfit) hrun, execAll_cons hflush hrun]
  exact execAll_cons hbind hrun []

/-- The words of fields written to an empty Writer are the fields' number. -/
theorem streamValue_putFields : streamValue (writerFlush (putFields fs emptyWriter)).words = fieldsValue fs := by
  obtain ⟨hok, hvalue⟩ := writerValue_putFields hws writerOk_emptyWriter
  rw [streamValue_writerFlush hok, hvalue]
  simp [emptyWriter, writerValue, writerBits, streamValue]

end

/-- From an empty Writer, the fields are written without a fault and stand at the Reader's cursor. -/
theorem exists_execAll_writeFields {fs : List (Word × BitVec 7)} (hws : ∀ f ∈ fs, f.2.toNat ≤ 64) {s : State}
    (hrun : s.err = .noFault) (hempty : s.writer = emptyWriter)
    (hfit : fitsWords (ceilDiv (totalWidth fs) 64) = true) :
    ∃ t, execAll (writeFields fs) s = .next t ∧ t.err = .noFault ∧ t.reader.pos.toNat = 0 ∧
      streamValue t.reader.words = fieldsValue fs := by
  have hbits : writerBits s.writer + totalWidth fs = totalWidth fs := by
    rw [hempty]
    exact Nat.zero_add _
  rw [← hbits] at hfit
  refine ⟨_, execAll_writeFields hws hrun hfit, hrun, rfl, ?_⟩
  rw [hempty]
  exact streamValue_putFields hws

/-- A `GET` of each of the first `n + 1` fields' widths ends with field `n` (R147). -/
theorem exists_execAll_get {fs : List (Word × BitVec 7)} (hws : ∀ f ∈ fs, f.2.toNat ≤ 64) {s : State} {n : Nat}
    {f : Word × BitVec 7} (hf : fs[n]? = some f) (hrun : s.err = .noFault)
    (hpos : s.reader.pos.toNat + totalWidth fs < 2 ^ 64)
    (hvalue : streamValue s.reader.words / 2 ^ s.reader.pos.toNat = fieldsValue fs) :
    ∃ t, execAll ((fs.take (n + 1)).map fun g => .get g.2) s = .next t ∧ t.err = .noFault ∧
      t.res.toNat = f.1.toNat % 2 ^ f.2.toNat := by
  induction fs generalizing s n with
  | nil => cases hf
  | cons g fs ih =>
    obtain ⟨hw, hws⟩ := List.forall_mem_cons.1 hws
    rw [totalWidth_cons] at hpos
    obtain ⟨t, ht, herr, htwords, htpos, htres⟩ := exec_get_value (s := s) hw (by omega)
    rw [hrun] at herr
    rw [List.take_succ_cons, List.map_cons, execAll_cons ht hrun]
    cases n with
    | zero =>
      cases hf
      refine ⟨t, rfl, herr, ?_⟩
      rw [htres, hvalue, fieldsValue, Nat.add_mul_mod_self_left, Nat.mod_mod]
    | succ n =>
      refine ih hws hf herr (by omega) ?_
      rw [htwords, htpos, Nat.pow_add, ← Nat.div_div_eq_div_mul, hvalue, fieldsValue,
        Nat.add_mul_div_left _ _ (Nat.two_pow_pos _), Nat.div_eq_of_lt (Nat.mod_lt _ (Nat.two_pow_pos _)), Nat.zero_add]

/-! ### Fields of one width (R149) -/

theorem totalWidth_map_const (vs : List Word) (w : BitVec 7) :
    totalWidth (vs.map fun v => (v, w)) = vs.length * w.toNat := by
  simp [totalWidth, Function.comp_def]

theorem fieldsValue_map_const (vs : List Word) (w : BitVec 7) :
    fieldsValue (vs.map fun v => (v, w)) = Nat.ofDigits (2 ^ w.toNat) (vs.map fun v => v.toNat % 2 ^ w.toNat) := by
  induction vs with
  | nil => rfl
  | cons v vs ih => rw [List.map_cons, fieldsValue, ih, List.map_cons, Nat.ofDigits_cons]

/-- Value `k` of fields of one width, 0 beyond the last. -/
theorem fieldsValue_map_const_div (vs : List Word) (w : BitVec 7) (k : Nat) :
    fieldsValue (vs.map fun v => (v, w)) / 2 ^ (k * w.toNat) % 2 ^ w.toNat = (vs.getD k 0).toNat % 2 ^ w.toNat := by
  rw [fieldsValue_map_const, Nat.mul_comm, Nat.pow_mul, ofDigits_div_pow_mod (Nat.two_pow_pos _)]
  · cases hv : vs[k]? <;> simp [List.getD_eq_getElem?_getD, hv]
  · exact List.forall_mem_map.2 fun v _ => Nat.mod_lt _ (Nat.two_pow_pos _)

end Sys2Proof.Machine

namespace Sys2Proof.Safety

open Sys2Proof.Machine

/-- Settles O16: the words written hold the fields' number, and each `GET` takes its lowest digit off it. -/
theorem fieldsRoundTrip : Obligations.FieldsRoundTrip := by
  intro fs s hws hrun hempty hwidth hfit n f hf
  obtain ⟨t, ht, herr, hpos, hvalue⟩ := exists_execAll_writeFields hws hrun hempty hfit
  rw [execAll_append ht herr]
  refine exists_execAll_get hws hf herr (by omega) ?_
  rw [hpos, hvalue, Nat.pow_zero, Nat.div_one]

/-- Settles O17: the values are the digits of the number written, and `SCAN` moves the cursor to digit `k`. -/
theorem uniformFieldsAreAddressable : Obligations.UniformFieldsAreAddressable := by
  intro vs w s k hmin hw hrun hempty hfit hend
  rw [Nat.succ_mul] at hend
  obtain ⟨t, ht, herr, -, hvalue⟩ := exists_execAll_writeFields (fs := vs.map fun v => (v, w))
    (List.forall_mem_map.2 fun _ _ => hw) hrun hempty (by rwa [totalWidth_map_const])
  have hoff : (BitVec.ofNat 64 (k * w.toNat)).toNat = k * w.toNat := Nat.mod_eq_of_lt (by omega)
  have hscan := exec_scan (s := t) (BitVec.ofNat 64 (k * w.toNat))
  obtain ⟨u, hu, huerr, -, -, hures⟩ := exec_get_value (w := w)
    (s := t.setReader { words := t.reader.words, pos := BitVec.ofNat 64 (k * w.toNat) }) hw
    (by rwa [State.setReader_reader, hoff])
  refine ⟨u, ?_, huerr.trans herr, ?_⟩
  · rw [execAll_append ht herr, execAll_cons hscan herr]
    exact execAll_cons hu herr []
  · rw [hures, State.setReader_reader, hoff, hvalue, fieldsValue_map_const_div]

end Sys2Proof.Safety

namespace Sys2Proof.Machine

/-! ### The bit utilities' functions (R170 to R173) -/

theorem floorLog2_of_ne_zero {n : Nat} (h : n ≠ 0) : floorLog2 n = some n.log2 := if_neg h

section

variable {x : Word}

theorem ctz_eq_none_iff : ctz x = none ↔ x = 0 := by
  simp [ctz, BitVec.eq_of_getLsbD_eq_iff]

theorem ctz_eq_some_iff {k : Nat} :
    ctz x = some k ↔ k < 64 ∧ x.getLsbD k = true ∧ ∀ j, j < k → x.getLsbD j = false := by
  simp [ctz, List.find?_range_eq_some, and_left_comm]

end

theorem streamBit_of_le {ws : List Word} {p : Nat} (h : 64 * ws.length ≤ p) : streamBit ws p = 0 := by
  rw [streamBit_eq_getLsbD, List.getD_eq_default _ _ (by omega)]
  simp

theorem streamBit_of_drop_eq_cons {ws rest : List Word} {w : Word} {i r : Nat} (h : ws.drop i = w :: rest)
    (hr : r < 64) : streamBit ws (64 * i + r) = (w.getLsbD r).toNat := by
  have hword : ws.getD i 0 = w := by
    rw [List.getD_eq_getElem?_getD, ← List.head?_drop, h]
    rfl
  rw [streamBit_eq_getLsbD, show (64 * i + r) / 64 = i by omega, show (64 * i + r) % 64 = r by omega, hword]

/-- The bits that `next_one_at_or_after` leaves of the first word it looks at (R173). -/
theorem getLsbD_clear_mask (w : Word) (k : Nat) {r : Nat} (hr : r < 64) :
    (w &&& ~~~ BitVec.ofNat 64 (mask k)).getLsbD r = (w.getLsbD r && decide (k ≤ r)) := by
  rw [BitVec.getLsbD_and, BitVec.getLsbD_not, BitVec.getLsbD_ofNat, mask, Nat.testBit_two_pow_sub_one]
  simp [hr, ← decide_not]

/-! ### The search for the next one bit (R173) -/

/-- What a search of the stream for a one bit at or after `pos` has to answer. -/
def IsNextOne (ws : List Word) (pos : Nat) : Option Nat → Prop
  | some p => pos ≤ p ∧ streamBit ws p = 1 ∧ ∀ j, pos ≤ j → j < p → streamBit ws j = 0
  | none => ∀ j, pos ≤ j → streamBit ws j = 0

section

variable {ws rest : List Word} {i pos : Nat}

/-- A search may begin later, past zero bits only. -/
theorem IsNextOne.of_zeros {start : Nat} {found : Option Nat} (h : IsNextOne ws start found) (hle : pos ≤ start)
    (hzeros : ∀ j, pos ≤ j → j < start → streamBit ws j = 0) : IsNextOne ws pos found := by
  cases found with
  | none => exact fun j hj => (Nat.lt_or_ge j start).elim (hzeros j hj) (h j)
  | some p =>
    obtain ⟨hstart, hone, hbefore⟩ := h
    exact ⟨hle.trans hstart, hone, fun j hj hp => (Nat.lt_or_ge j start).elim (hzeros j hj) (hbefore j · hp)⟩

/-- One word of the scan: `w` is word `i` of the stream with its bits below `pos` cleared, and the scan of the words
after it is right. -/
theorem isNextOne_scanWords_cons {w : Word} (hpos : pos ≤ 64 * (i + 1)) (hfirst : 64 * i ≤ pos)
    (hw : ∀ r, r < 64 → (w.getLsbD r).toNat = if pos ≤ 64 * i + r then streamBit ws (64 * i + r) else 0)
    (hrest : IsNextOne ws (64 * (i + 1)) (scanWords rest (i + 1))) : IsNextOne ws pos (scanWords (w :: rest) i) := by
  have hbit : ∀ j, pos ≤ j → j < 64 * (i + 1) → streamBit ws j = (w.getLsbD (j - 64 * i)).toNat := by
    intro j hj hlt
    have hsum : 64 * i + (j - 64 * i) = j := by omega
    rw [hw _ (by omega), hsum, if_pos hj]
  cases hctz : ctz w with
  | none =>
    simp only [scanWords, hctz]
    refine hrest.of_zeros hpos fun j hj hlt => ?_
    rw [hbit j hj hlt, ctz_eq_none_iff.1 hctz]
    simp
  | some k =>
    obtain ⟨hk, hone, hbelow⟩ := ctz_eq_some_iff.1 hctz
    have hcleared := hw k hk
    rw [hone, Bool.toNat_true] at hcleared
    split at hcleared
    · rename_i hle
      simp only [scanWords, hctz]
      refine ⟨hle, hcleared.symm, fun j hj hlt => ?_⟩
      rw [hbit j hj (by omega), hbelow _ (by omega), Bool.toNat_false]
    · contradiction

theorem isNextOne_scanWords (h : ws.drop i = rest) : IsNextOne ws (64 * i) (scanWords rest i) := by
  induction rest generalizing i with
  | nil => exact fun j hj => streamBit_of_le ((Nat.mul_le_mul_left 64 (List.drop_eq_nil_iff.1 h)).trans hj)
  | cons w rest ih =>
    have hrest : ws.drop (i + 1) = rest := by rw [← List.tail_drop, h, List.tail_cons]
    refine isNextOne_scanWords_cons (by omega) le_rfl (fun r hr => ?_) (ih hrest)
    rw [streamBit_of_drop_eq_cons h hr, if_pos (Nat.le_add_right ..)]

theorem isNextOne_nextOne (ws : List Word) (pos : Nat) : IsNextOne ws pos (nextOne ws pos) := by
  unfold nextOne
  split
  · rename_i h
    have hend := List.drop_eq_nil_iff.1 h
    exact fun j hj => streamBit_of_le (by omega)
  · rename_i w rest h
    have hrest : ws.drop (pos / 64 + 1) = rest := by rw [← List.tail_drop, h, List.tail_cons]
    refine isNextOne_scanWords_cons (by omega) (by omega) (fun r hr => ?_) (isNextOne_scanWords hrest)
    rw [getLsbD_clear_mask w _ hr, streamBit_of_drop_eq_cons h hr]
    by_cases hle : pos % 64 ≤ r
    · rw [decide_eq_true hle, Bool.and_true, if_pos (by omega)]
    · rw [decide_eq_false hle, Bool.and_false, if_neg (by omega), Bool.toNat_false]

end

/-! ### What the bit utility commands answer (R174 to R177) -/

section

variable {s : State} {n d x : Word}

theorem exec_flog2_zero : exec (.flog2 0) s = .next (s.setFault .illegal 6) := rfl

theorem exec_flog2 (hx : x.toNat ≠ 0) : exec (.flog2 x) s = .next (s.setRes x.toNat.log2) := by
  change execFlog2 x s = _
  rw [execFlog2, floorLog2_of_ne_zero hx]

theorem exec_cdiv_of_zero (hd : d.toNat = 0) : exec (.cdiv n d) s = .next (s.setFault .illegal 6) := if_pos hd

theorem exec_cdiv_of_overflow (hd : d.toNat ≠ 0) (hsum : 2 ^ 64 ≤ n.toNat + d.toNat - 1) :
    exec (.cdiv n d) s = .next (s.setFault .illegal 6) :=
  (if_neg hd).trans (if_pos hsum)

theorem exec_cdiv (hd : d.toNat ≠ 0) (hsum : n.toNat + d.toNat - 1 < 2 ^ 64) :
    exec (.cdiv n d) s = .next (s.setRes (ceilDiv n.toNat d.toNat)) :=
  (if_neg hd).trans (if_neg (Nat.not_le_of_lt hsum))

theorem exec_ctz_of_none (h : ctz x = none) : exec (.ctz x) s = .next (s.setFault .illegal 6) := by
  change execCtz x s = _
  rw [execCtz, h]
  rfl

theorem exec_ctz {k : Nat} (h : ctz x = some k) : exec (.ctz x) s = .next (s.setRes k) := by
  change execCtz x s = _
  rw [execCtz, h]

theorem exec_next1 {pos : Word} {found : Option Nat} (h : nextOne s.reader.words pos.toNat = found) :
    exec (.next1 pos) s = .next (s.setFound found) :=
  h ▸ rfl

end

end Sys2Proof.Machine

namespace Sys2Proof.Safety

open Sys2Proof.Machine

/-- Settles O18: the binary logarithm is the exponent of the largest power of two not above the operand. -/
theorem floorLogGivesTheHighestBit : Obligations.FloorLogGivesTheHighestBit := by
  intro x s
  refine ⟨fun hx => hx ▸ exec_flog2_zero, fun hx => ?_⟩
  have hne : x.toNat ≠ 0 := fun h => hx (BitVec.eq_of_toNat_eq h)
  exact ⟨x.toNat.log2, Nat.le_of_lt_succ ((Nat.log2_lt hne).2 x.isLt), Nat.log2_self_le hne, Nat.lt_log2_self,
    exec_flog2 hne⟩

/-- Settles O19: a ceiling quotient is at most `q` just where `n ≤ q·d`, and never above the dividend. -/
theorem ceilingDivisionIsExact : Obligations.CeilingDivisionIsExact := by
  intro n d s
  have hzero : d = 0 ↔ d.toNat = 0 := BitVec.toNat_eq
  refine ⟨fun hfault => ?_, fun hd hsum => ?_⟩
  · by_cases hd : d.toNat = 0
    · exact exec_cdiv_of_zero hd
    · exact exec_cdiv_of_overflow hd (hfault.resolve_left (mt hzero.1 hd))
  · have hpos := Nat.pos_of_ne_zero (mt hzero.2 hd)
    exact ⟨ceilDiv n.toNat d.toNat, (ceilDiv_le_self hpos).trans_lt n.isLt, (ceilDiv_le_iff hpos).1 le_rfl,
      fun p => (ceilDiv_le_iff hpos).2, exec_cdiv hpos.ne' hsum⟩

/-- Settles O20: the scan of the 64 bit indices in rising order stops at the least one set. -/
theorem trailingZerosFindTheLeastBit : Obligations.TrailingZerosFindTheLeastBit := by
  intro x s
  refine ⟨fun hx => exec_ctz_of_none (ctz_eq_none_iff.2 hx), fun hx => ?_⟩
  obtain ⟨k, hctz⟩ := Option.ne_none_iff_exists'.1 (mt ctz_eq_none_iff.1 hx)
  obtain ⟨hk, hone, hbelow⟩ := ctz_eq_some_iff.1 hctz
  exact ⟨k, Nat.le_of_lt_succ hk, hone, hbelow, exec_ctz hctz⟩

/-- Settles O21: the word-by-word scan answers the next one bit, which lies inside the array. -/
theorem nextOneFindsTheFirstBit : Obligations.NextOneFindsTheFirstBit := by
  intro pos s hlen
  have hnext := isNextOne_nextOne s.reader.words pos.toNat
  generalize hfound : nextOne s.reader.words pos.toNat = found at hnext
  cases found with
  | none => exact .inr ⟨hnext, exec_next1 hfound⟩
  | some p =>
    obtain ⟨hpos, hone, hbefore⟩ := hnext
    have hinside : p < 64 * s.reader.words.length := Nat.lt_of_not_le fun hend => by
      simp [streamBit_of_le hend] at hone
    exact .inl ⟨p, hpos, by omega, hone, hbefore, exec_next1 hfound⟩

end Sys2Proof.Safety

namespace Sys2Proof.Machine

open Sys2Proof.Safety

/-! ### What `EFENC` answers (R190) -/

section

variable {s : State} {vs : List Word}

/-- The refusal of R195: an array of the block is above `WORD_CAP`. -/
theorem storeBlock_of_not_blockFits {blk : EFBlock} (h : ¬ blockFits blk) (s : State) :
    storeBlock blk s = .refused (.capacity .words) := by
  have htest : (fitsWords blk.low.length && fitsWords blk.high.length) = false :=
    Bool.eq_false_iff.2 (mt Bool.and_eq_true_iff.1 h)
  rw [storeBlock, htest, require_false]

theorem exec_efenc_of_empty (hlen : s.vlen.toNat = 0) : exec .efenc s = .next (s.setFault .invalidInput 1) :=
  if_pos hlen

theorem exec_efenc_of_long (hlen : 2 ^ 32 ≤ s.vlen.toNat) : exec .efenc s = .next (s.setFault .invalidInput 3) :=
  (if_neg (by omega)).trans (if_pos hlen)

/-- On a written run of an admitted length, `EFENC` is the test of order and then the store of the encoding. -/
theorem exec_efenc (hrun : holdsRun s vs) (hmin : 1 ≤ s.vlen.toNat) (hmax : s.vlen.toNat < 2 ^ 32) :
    exec .efenc s = if nonDecreasing vs then storeBlock (efEncode vs) s else raise .invalidInput 2 s :=
  (if_neg (Nat.ne_of_gt hmin)).trans ((if_neg (Nat.not_le_of_lt hmax)).trans (needRun_of hrun _))

end

end Sys2Proof.Machine

namespace Sys2Proof.Safety

open Sys2Proof.Machine

/-- Settles O22: the two tests of the length come before the run is read, the test of order before the encoding, and the
capacity test stands at the store of the block. -/
theorem encodeCommandChecksThenEncodes : Obligations.EncodeCommandChecksThenEncodes := by
  intro s
  refine ⟨exec_efenc_of_empty, exec_efenc_of_long, fun vs hrun hmin hmax => ?_⟩
  rw [exec_efenc hrun hmin hmax]
  refine ⟨fun hfall => ?_, fun hrise hfit => ?_, fun hrise hfit => ?_⟩
  · rw [hfall]
    rfl
  · rw [if_pos hrise, storeBlock_of hfit.1 hfit.2]
    rfl
  · rw [if_pos hrise, storeBlock_of_not_blockFits hfit]

end Sys2Proof.Safety

namespace Sys2Proof.Machine

open Sys2Proof.Safety

/-! ### The one bits of a stream, in order (R20, R173, R215) -/

/-- The positions of the one bits of a word array, rising. -/
def streamOnes (ws : List Word) : List Nat := (List.range (64 * ws.length)).filter fun p => streamBit ws p = 1

/-- The positions of a word's one bits, rising. -/
def wordOnes (w : Word) : List Nat := (List.range 64).filter fun k => w.getLsbD k

theorem mem_streamOnes {ws : List Word} {p : Nat} : p ∈ streamOnes ws ↔ streamBit ws p = 1 := by
  rw [streamOnes, List.mem_filter, List.mem_range, decide_eq_true_eq]
  refine and_iff_right_of_imp fun hone => Nat.lt_of_not_le fun hend => ?_
  simp [streamBit_of_le hend] at hone

theorem pairwise_streamOnes (ws : List Word) : (streamOnes ws).Pairwise (· < ·) :=
  List.pairwise_lt_range.filter _

theorem streamOnes_cons (w : Word) (ws : List Word) :
    streamOnes (w :: ws) = wordOnes w ++ (streamOnes ws).map (64 + ·) := by
  have hhead : ∀ r ∈ List.range 64, (decide (streamBit (w :: ws) r = 1)) = w.getLsbD r := fun r hr => by
    have hr := List.mem_range.1 hr
    rw [streamBit_eq_getLsbD, Nat.div_eq_of_lt hr, Nat.mod_eq_of_lt hr]
    simp
  have htail : ∀ p, streamBit (w :: ws) (64 + p) = streamBit ws p := fun p => by
    rw [streamBit_eq_getLsbD, streamBit_eq_getLsbD, Nat.add_div_left p (by decide), Nat.add_mod_left,
      List.getD_cons_succ]
  rw [streamOnes, List.length_cons, Nat.mul_succ, Nat.add_comm, List.range_add, List.filter_append,
    List.filter_congr hhead, List.filter_map]
  simp only [Function.comp_def, htail]
  rfl

theorem popcount_eq_length (w : Word) : popcount w = (wordOnes w).length := List.countP_eq_length_filter

theorem ctz_eq_head? (w : Word) : ctz w = (wordOnes w).head? := (List.head?_filter ..).symm

/-- `w & (w - 1)` clears the lowest one bit and no other (R215). -/
theorem getLsbD_and_sub_one {w : Word} {k : Nat} (h : ctz w = some k) (j : Nat) :
    (w &&& (w - 1)).getLsbD j = (decide (j ≠ k) && w.getLsbD j) := by
  obtain ⟨hk, hone, hbelow⟩ := ctz_eq_some_iff.1 h
  have hmod : w.toNat % 2 ^ (k + 1) = 2 ^ k := by
    refine Nat.eq_of_testBit_eq fun i => ?_
    rw [Nat.testBit_mod_two_pow, Nat.testBit_two_pow, BitVec.testBit_toNat]
    obtain hi | rfl | hi := Nat.lt_trichotomy i k
    · simp [hbelow i hi, hi.ne']
    · simp [hone]
    · simp [hi.ne, Nat.not_lt.2 hi]
  have hw : w.toNat = 2 ^ (k + 1) * (w.toNat / 2 ^ (k + 1)) + 2 ^ k := by
    conv_lhs => rw [← Nat.div_add_mod w.toNat (2 ^ (k + 1)), hmod]
  have hpred : (w - 1).toNat = 2 ^ (k + 1) * (w.toNat / 2 ^ (k + 1)) + (2 ^ k - 1) := by
    have hpos := Nat.two_pow_pos k
    have hlt := w.isLt
    rw [BitVec.toNat_sub_of_le (BitVec.le_def.2 (by simp; omega))]
    simp
    omega
  have hpow : 2 ^ k < 2 ^ (k + 1) := Nat.pow_lt_pow_succ (by decide)
  rw [BitVec.getLsbD_and, ← BitVec.testBit_toNat, ← BitVec.testBit_toNat, hpred, hw,
    Nat.testBit_two_pow_mul_add _ hpow, Nat.testBit_two_pow_mul_add _ (by omega), Nat.testBit_two_pow,
    Nat.testBit_two_pow_sub_one]
  split <;> grind

theorem wordOnes_and_sub_one (w : Word) : wordOnes (w &&& (w - 1)) = (wordOnes w).tail := by
  cases hones : wordOnes w with
  | nil =>
    have hw : w = 0 := ctz_eq_none_iff.1 (by rw [ctz_eq_head?, hones]; rfl)
    subst hw
    decide
  | cons k ks =>
    have hctz : ctz w = some k := by rw [ctz_eq_head?, hones]; rfl
    have hrise : (k :: ks).Pairwise (· < ·) := hones ▸ List.pairwise_lt_range.filter _
    rw [wordOnes]
    simp only [getLsbD_and_sub_one hctz]
    rw [← List.filter_filter, ← wordOnes, hones, List.filter_cons_of_neg (by simp), List.tail_cons]
    exact List.filter_eq_self.2 fun j hj => decide_eq_true (Nat.ne_of_gt (List.rel_of_pairwise_cons hrise hj))

/-- Clearing the `n` lowest one bits leaves bit `n` the lowest. -/
theorem ctz_clearLowest (n : Nat) (w : Word) : ctz (clearLowest n w) = (wordOnes w)[n]? := by
  induction n generalizing w with
  | zero => rw [clearLowest, ctz_eq_head?, List.head?_eq_getElem?]
  | succ n ih => rw [clearLowest, ih, wordOnes_and_sub_one, List.getElem?_tail]

/-- The word walk finds the one bit with `r` one bits before it (R215). -/
theorem selectOne_eq (ws : List Word) (i r : Nat) : selectOne ws i r = (streamOnes ws)[r]?.map (64 * i + ·) := by
  induction ws generalizing i r with
  | nil => rfl
  | cons w ws ih =>
    rw [selectOne, popcount_eq_length, ctz_clearLowest, streamOnes_cons]
    split
    · rename_i hr
      rw [ih, List.getElem?_append_right hr, List.getElem?_map, Option.map_map]
      simp only [Function.comp_def, Nat.mul_succ, Nat.add_assoc]
    · rename_i hr
      rw [List.getElem?_append_left (Nat.lt_of_not_le hr)]

/-! ### Walking the one bits (R213, R217) -/

/-- `ps` are the one bits of the stream from bit `start` on, in order. -/
def OnesFrom (ws : List Word) (start : Nat) (ps : List Nat) : Prop :=
  ps.Pairwise (· < ·) ∧ ∀ p, p ∈ ps ↔ start ≤ p ∧ streamBit ws p = 1

theorem OnesFrom.streamOnes_eq {ws : List Word} {ps : List Nat} (h : OnesFrom ws 0 ps) : streamOnes ws = ps := by
  obtain ⟨hrise, hps⟩ := h
  exact (pairwise_streamOnes ws).eq_of_mem_iff hrise fun p =>
    mem_streamOnes.trans ((hps p).trans (and_iff_right (Nat.zero_le p))).symm

section

variable {ws : List Word} {start p : Nat} {ps : List Nat} (h : OnesFrom ws start (p :: ps))

include h

theorem OnesFrom.nextOne_eq : nextOne ws start = some p := by
  obtain ⟨hrise, hps⟩ := h
  obtain ⟨hstart, hone⟩ := (hps p).1 List.mem_cons_self
  have hnext := isNextOne_nextOne ws start
  generalize nextOne ws start = found at hnext ⊢
  cases found with
  | none => simp [hnext p hstart] at hone
  | some q =>
    obtain ⟨hq, hqone, hbefore⟩ := hnext
    obtain rfl | hmem := List.mem_cons.1 ((hps q).2 ⟨hq, hqone⟩)
    · rfl
    · simp [hbefore p hstart (List.rel_of_pairwise_cons hrise hmem)] at hone

theorem OnesFrom.tail : OnesFrom ws (p + 1) ps := by
  obtain ⟨hrise, hps⟩ := h
  obtain ⟨hstart, -⟩ := (hps p).1 List.mem_cons_self
  refine ⟨hrise.of_cons, fun q => ⟨fun hq => ?_, fun ⟨hlt, hone⟩ => ?_⟩⟩
  · exact ⟨List.rel_of_pairwise_cons hrise hq, ((hps q).1 (List.mem_cons_of_mem p hq)).2⟩
  · exact (List.mem_cons.1 ((hps q).2 ⟨by omega, hone⟩)).resolve_left (Nat.ne_of_gt hlt)

end

/-- The value of element `x.2`, whose one bit stands at `x.1` of the high array (R104). -/
def elementValue (blk : EFBlock) (x : Nat × Nat) : Word := joinValue blk (x.1 - x.2) (lowField blk x.2)

theorem efDecodeFrom_eq {blk : EFBlock} {ps : List Nat} {start : Nat} (h : OnesFrom blk.high start ps) (i : Nat) :
    efDecodeFrom blk ps.length i start = (ps.zipIdx i).map (elementValue blk) := by
  induction ps generalizing start i with
  | nil => rfl
  | cons p ps ih =>
    simp only [List.length_cons, efDecodeFrom, h.nextOne_eq, ih h.tail, List.zipIdx_cons, List.map_cons, elementValue]

theorem efAt_eq {blk : EFBlock} {ps : List Nat} (h : OnesFrom blk.high 0 ps) (r : Nat) :
    efAt blk r = ps[r]?.map fun p => elementValue blk (p, r) := by
  rw [efAt, selectOne_eq, h.streamOnes_eq, Option.map_map]
  simp [Function.comp_def, elementValue]

/-- High parts do not fall along rising positions. -/
theorem sub_le_of_mem_zipIdx {ps : List Nat} {p j : Nat} (hrise : (p :: ps).Pairwise (· < ·)) {x : Nat × Nat}
    (hx : x ∈ ps.zipIdx (j + 1)) : p - j ≤ x.1 - x.2 := by
  induction ps generalizing p j with
  | nil => cases hx
  | cons q ps ih =>
    have hpq : p < q := List.rel_of_pairwise_cons hrise List.mem_cons_self
    rw [List.zipIdx_cons] at hx
    obtain rfl | hx := List.mem_cons.1 hx
    · dsimp only
      omega
    · have := ih hrise.of_cons hx
      omega

/-- The scan stops at the first element above the high part sought, and none after it has that part (R217). -/
theorem efScanFrom_iff {blk : EFBlock} {hi lo : Nat} {ps : List Nat} {start : Nat} (h : OnesFrom blk.high start ps)
    (j : Nat) :
    efScanFrom blk hi lo ps.length j start = true ↔ ∃ x ∈ ps.zipIdx j, x.1 - x.2 = hi ∧ lowField blk x.2 = lo := by
  induction ps generalizing start j with
  | nil => simp [efScanFrom]
  | cons p ps ih =>
    have hlater : ∀ x ∈ ps.zipIdx (j + 1), p - j ≤ x.1 - x.2 := fun x => sub_le_of_mem_zipIdx h.1
    rw [List.zipIdx_cons, List.exists_mem_cons_iff, ← ih h.tail]
    simp only [List.length_cons, efScanFrom, h.nextOne_eq]
    split
    · rename_i hlt
      exact (or_iff_right fun hhead => Nat.ne_of_lt hlt hhead.1).symm
    · split
      · rename_i hgt
        rw [ih h.tail]
        refine iff_of_false nofun ?_
        rintro (⟨heq, -⟩ | ⟨x, hx, heq, -⟩)
        · exact Nat.ne_of_gt hgt heq
        · exact Nat.ne_of_gt (hgt.trans_le (hlater x hx)) heq
      · have heq : p - j = hi := by omega
        split
        · rename_i hlow
          exact iff_of_true rfl (.inl ⟨heq, hlow⟩)
        · rename_i hlow
          exact (or_iff_right fun hhead => hlow hhead.2).symm

/-! ### The encoding of a run, read back (R219) -/

theorem floor_efEncode (vs : List Word) : (efEncode vs).floor = vs.headD 0 := rfl

theorem highPositions_getElem? (vs : List Word) (r : Nat) :
    (highPositions vs)[r]? = vs[r]?.map fun v => highPosition (vs.headD 0).toNat (efLowBits vs) (v, r) := by
  simp [highPositions, Function.comp_def]

@[simp] theorem length_highPositions (vs : List Word) : (highPositions vs).length = vs.length := by
  simp [highPositions]

theorem mem_zipIdx_highPositions {vs : List Word} {p r : Nat} :
    (p, r) ∈ (highPositions vs).zipIdx ↔
      ∃ v, vs[r]? = some v ∧ highPosition (vs.headD 0).toNat (efLowBits vs) (v, r) = p := by
  rw [List.mk_mem_zipIdx_iff_getElem?, highPositions_getElem?, Option.map_eq_some_iff]

theorem highPosition_sub (floor l : Nat) (v : Word) (r : Nat) :
    highPosition floor l (v, r) - r = (v.toNat - floor) / 2 ^ l := Nat.add_sub_cancel ..

section

variable {vs : List Word}

theorem onesFrom_highPositions (hrise : nonDecreasing vs = true) :
    OnesFrom (efEncode vs).high 0 (highPositions vs) :=
  ⟨pairwise_highPosition _ _ _ hrise, fun p =>
    (streamBit_high_efEncode hrise p).symm.trans (and_iff_right (Nat.zero_le p)).symm⟩

theorem lowField_efEncode {r : Nat} {v : Word} (hv : vs[r]? = some v) :
    lowField (efEncode vs) r = (v.toNat - (vs.headD 0).toNat) % 2 ^ efLowBits vs := by
  rw [lowField, l_efEncode]
  exact readBits_efLow ((efLowBits_le vs).trans (by decide)) hv _

/-- The two halves of an element join to its value (R104). -/
theorem elementValue_efEncode (hrise : nonDecreasing vs = true) {r : Nat} {v : Word} (hv : vs[r]? = some v) :
    elementValue (efEncode vs) (highPosition (vs.headD 0).toNat (efLowBits vs) (v, r), r) = v := by
  have hfloor := headD_le_of_mem hrise (List.mem_of_getElem? hv)
  rw [elementValue, highPosition_sub, lowField_efEncode hv, joinValue, l_efEncode, floor_efEncode,
    ← Nat.shiftLeft_add_eq_or_of_lt (Nat.mod_lt _ (Nat.two_pow_pos _)), Nat.shiftLeft_eq, Nat.div_add_mod',
    Nat.add_sub_cancel' hfloor, BitVec.ofNat_toNat, BitVec.setWidth_eq]

variable (h : blockRun vs)

include h

/-- Decoding gives back the run (R213, R219). -/
theorem efDecode_efEncode : efDecode (efEncode vs) = vs := by
  obtain ⟨hrise, -, hmax⟩ := h
  rw [efDecode, nElem_efEncode hmax, ← length_highPositions, efDecodeFrom_eq (onesFrom_highPositions hrise)]
  refine List.ext_getElem? fun r => ?_
  rw [List.getElem?_map, List.getElem?_zipIdx, highPositions_getElem?]
  cases hv : vs[r]? with
  | none => rfl
  | some v => simpa using elementValue_efEncode hrise hv

/-- Rank lookup gives the run's values (R215, R219). -/
theorem efAt_efEncode (r : Nat) : efAt (efEncode vs) r = vs[r]? := by
  obtain ⟨hrise, -⟩ := h
  rw [efAt_eq (onesFrom_highPositions hrise), highPositions_getElem?]
  cases hv : vs[r]? with
  | none => rfl
  | some v => simpa using elementValue_efEncode hrise hv

/-- Membership is the run's (R217, R219). -/
theorem efContains_efEncode (v : Word) : efContains (efEncode vs) v = decide (v ∈ vs) := by
  obtain ⟨hrise, -, hmax⟩ := h
  rw [Bool.eq_iff_iff, decide_eq_true_eq, efContains, floor_efEncode]
  split
  · rename_i hbelow
    exact iff_of_false nofun fun hv => Nat.not_le_of_lt hbelow (headD_le_of_mem hrise hv)
  · rename_i hle
    dsimp only
    rw [nElem_efEncode hmax, ← length_highPositions, efScanFrom_iff (onesFrom_highPositions hrise), l_efEncode,
      and_mask, Nat.shiftRight_eq_div_pow]
    constructor
    · rintro ⟨⟨p, r⟩, hx, hhigh, hlow⟩
      obtain ⟨u, hu, rfl⟩ := mem_zipIdx_highPositions.1 hx
      dsimp only at hhigh hlow
      rw [highPosition_sub] at hhigh
      rw [lowField_efEncode hu] at hlow
      have hdiff := Nat.div_add_mod (u.toNat - (vs.headD 0).toNat) (2 ^ efLowBits vs)
      rw [hhigh, hlow, Nat.div_add_mod] at hdiff
      have := headD_le_of_mem hrise (List.mem_of_getElem? hu)
      obtain rfl : v = u := BitVec.eq_of_toNat_eq (by omega)
      exact List.mem_of_getElem? hu
    · intro hv
      obtain ⟨r, hr⟩ := List.mem_iff_getElem?.1 hv
      exact ⟨(_, r), mem_zipIdx_highPositions.2 ⟨v, hr, rfl⟩, highPosition_sub .., lowField_efEncode hr⟩

end

end Sys2Proof.Machine

namespace Sys2Proof.Safety

open Sys2Proof.Machine

/-- Settles O24: the high array's one bits stand at the run's positions, and each with its low field joins to its value. -/
theorem blockLawsHold : Obligations.BlockLawsHold := fun _ h =>
  ⟨efDecode_efEncode h, fun r _ => efAt_efEncode h r, efContains_efEncode h⟩

/-! ### Valid blocks (R210) -/

theorem isValidBlock_iff {blk : EFBlock} :
    isValidBlock blk = true ↔ blockRun (efDecode blk) ∧ efEncode (efDecode blk) = blk := by
  have hmin : (efDecode blk).isEmpty = false ↔ 1 ≤ (efDecode blk).length :=
    List.isEmpty_eq_false_iff.trans (List.length_pos_iff.symm)
  simp only [isValidBlock, blockRun, Bool.and_eq_true, Bool.not_eq_true', decide_eq_true_eq, hmin]
  tauto

theorem isValidBlock_efEncode {vs : List Word} (h : blockRun vs) : isValidBlock (efEncode vs) = true := by
  rw [isValidBlock_iff, efDecode_efEncode h]
  exact ⟨h, rfl⟩

/-- Settles O25: a valid block is the encoding of its decode, and an encoding decodes to its run. -/
theorem validBlocksAreTheEncodings : Obligations.ValidBlocksAreTheEncodings := by
  refine fun blk => ⟨fun hvalid => ?_, ?_⟩
  · obtain ⟨hrun, hencode⟩ := isValidBlock_iff.1 hvalid
    exact ⟨efDecode blk, hrun, hencode.symm⟩
  · rintro ⟨vs, hrun, rfl⟩
    exact isValidBlock_efEncode hrun

end Sys2Proof.Safety

namespace Sys2Proof.Machine

open Sys2Proof.Safety

/-! ### What the commands on the block register answer (R212, R214, R216) -/

theorem storeValues_of_not_fits {vs : List Word} (h : fitsValues vs.length = false) (s : State) :
    storeValues vs s = .refused (.capacity .values) := by
  rw [storeValues, h, require_false]

section

variable {s : State} {use : EFBlock → Out}

theorem needBlock_of_none (h : s.efb = none) : needBlock s use = .next (s.setFault .illegal 5) := by
  rw [needBlock, h]
  rfl

theorem needBlock_of_invalid {blk : EFBlock} (h : s.efb = some blk) (hinvalid : isValidBlock blk = false) :
    needBlock s use = .refused .invalidBlock := by
  simp [needBlock, h, hinvalid]

theorem needBlock_of_holdsBlock {vs : List Word} (h : holdsBlock s vs) : needBlock s use = use (efEncode vs) := by
  obtain ⟨hefb, hrun⟩ := h
  exact needBlock_of hefb (isValidBlock_efEncode hrun) use

end

section

variable {s : State} {vs : List Word} (h : holdsBlock s vs)

include h

/-- On the block of a run, `EFDEC` is the store of the run. -/
theorem exec_efdec : exec .efdec s = storeValues vs s := by
  have ⟨_, hrun⟩ := h
  change execEfdec s = _
  rw [execEfdec, needBlock_of_holdsBlock h, efDecode_efEncode hrun]

theorem exec_efat_of_le {r : Word} (hr : vs.length ≤ r.toNat) :
    exec (.efat r) s = .next (s.setFault .outOfRange 3) := by
  have ⟨_, _, _, hmax⟩ := h
  refine (needBlock_of_holdsBlock h).trans (if_pos ?_)
  rwa [nElem_efEncode hmax]

theorem exec_efat {r v : Word} (hv : vs[r.toNat]? = some v) : exec (.efat r) s = .next (s.setRes v.toNat) := by
  have ⟨_, hrun⟩ := h
  have ⟨_, _, hmax⟩ := hrun
  obtain ⟨hr, -⟩ := List.getElem?_eq_some_iff.1 hv
  refine (needBlock_of_holdsBlock h).trans ((if_neg ?_).trans ?_)
  · rw [nElem_efEncode hmax]
    exact Nat.not_le_of_lt hr
  · rw [efAt_efEncode hrun, hv]

theorem exec_efhas (v : Word) : exec (.efhas v) s = .next (s.setT (decide (v ∈ vs))) := by
  have ⟨_, hrun⟩ := h
  rw [← efContains_efEncode hrun]
  exact needBlock_of_holdsBlock h

end

/-! ### Buffers the host left unwritten (R337) -/

/-- A run read whole has every entry written, whatever the cells' form. -/
theorem cellsRead_ne_none_of_cellsRun {α : Type} {m : Cells α} {a n : Nat} {vs : List α}
    (h : cellsRun m a n = some vs) {j : Nat} (hj : j < n) : cellsRead m (a + j) ≠ none := by
  induction n generalizing m a vs j with
  | zero => omega
  | succ n ih =>
    match m with
    | [] => simp [cellsRun] at h
    | (k, x) :: m =>
      obtain ⟨rfl, ws, hrun, -⟩ : k = a ∧ ∃ ws, cellsRun m (a + 1) n = some ws ∧ x :: ws = vs := by
        simpa [cellsRun] using h
      cases j with
      | zero => simp [cellsRead]
      | succ j =>
        rw [cellsRead, if_neg (by omega), show k + (j + 1) = k + 1 + j by omega]
        exact ih hrun (by omega)

theorem cellsRun_of_unwritten {α : Type} {m : Cells α} {n i : Nat} (hi : i < n) (h : cellsRead m i = none) :
    cellsRun m 0 n = none := by
  by_contra hrun
  obtain ⟨vs, hvs⟩ := Option.ne_none_iff_exists'.1 hrun
  exact cellsRead_ne_none_of_cellsRun hvs hi (by rwa [Nat.zero_add])

section

variable {s : State}

theorem needRun_of_unwritten {i : Nat} (hi : i < s.vlen.toNat) (h : cellsRead s.vbuf i = none)
    (use : List Word → Out) : needRun s use = .fault .unwrittenValue := by
  rw [needRun, cellsRun_of_unwritten hi h]

theorem needImage_of_unwritten {i : Nat} (hi : i < s.blen.toNat) (h : cellsRead s.bytes i = none)
    (use : List Byte → Out) : needImage s use = .fault .unwrittenByte := by
  rw [needImage, cellsRun_of_unwritten hi h]

/-- `SQBUILD` with a block size other than 0 reads the run before it tests it (R244). -/
theorem exec_sqbuild {k : BitVec 8} {bsz : BitVec 32} (hk : slotOk k = true) (hbsz : bsz ≠ 0) :
    exec (.sqbuild k bsz) s =
      needRun s fun vs => if nonDecreasing vs then storeSequence k vs bsz s else raise .invalidInput 2 s :=
  (checkForm_of_wf (i := .sqbuild k bsz) hk ..).trans (if_neg fun hzero => hbsz (BitVec.eq_of_toNat_eq hzero))

end

end Sys2Proof.Machine

namespace Sys2Proof.Safety

open Sys2Proof.Machine

/-- Settles O26: the block decodes to its run, and the capacity test stands at the store. -/
theorem decodeCommandRestoresTheRun : Obligations.DecodeCommandRestoresTheRun := by
  refine fun s => ⟨needBlock_of_none, fun vs h => ?_⟩
  rw [exec_efdec h]
  exact ⟨fun hfit => storeValues_of hfit s, fun hfit => storeValues_of_not_fits hfit s⟩

/-- Settles O27: rank `r` of the block is value `r` of its run. -/
theorem rankLookupGivesTheValue : Obligations.RankLookupGivesTheValue := by
  refine fun r s => ⟨needBlock_of_none, fun vs h => ⟨exec_efat_of_le h, fun v hv => ?_⟩⟩
  rw [exec_efat h hv, State.setRes, BitVec.ofNat_toNat, BitVec.setWidth_eq]

/-- Settles O28: membership in the block is membership in its run. -/
theorem blockMembershipIsExact : Obligations.BlockMembershipIsExact := fun v _ =>
  ⟨needBlock_of_none, fun _ h => exec_efhas h v⟩

/-- Settles O49: each command reads its operand whole before it does anything with it. -/
theorem unspecifiedInputsStop : Obligations.UnspecifiedInputsStop := by
  refine fun s => ⟨fun blk hefb hinvalid => ?_, fun i hi hunwritten => ⟨fun hmax => ?_, fun k bsz hk hbsz => ?_⟩,
    fun i hi hunwritten k hk => ?_⟩
  · exact ⟨needBlock_of_invalid hefb hinvalid, fun _ => needBlock_of_invalid hefb hinvalid,
      fun _ => needBlock_of_invalid hefb hinvalid⟩
  · exact (if_neg (by omega)).trans ((if_neg (by omega)).trans (needRun_of_unwritten hi hunwritten _))
  · rw [exec_sqbuild hk hbsz, needRun_of_unwritten hi hunwritten]
  · exact (checkForm_of_wf (i := .sqload k) hk ..).trans (needImage_of_unwritten hi hunwritten _)

end Sys2Proof.Safety

namespace Sys2Proof.Machine

open Sys2Proof.Safety

/-! ### A block read back from its bytes (R105, R242) -/

theorem memRead_blockBytes_floor (blk : EFBlock) : memRead (blockBytes blk) 8 8 = blk.floor.toNat :=
  memRead_of_prefix (xs := leBytes 4 blk.nElem.toNat ++ leBytes 1 blk.l.toNat ++ [0, 0, 0]) (by simp [blockBytes]) rfl
    blk.floor.isLt

/-- Words are read back from where they were stored, whatever stands around them (R75). -/
theorem readWords_wordsBytes (pre : List Byte) (ws : List Word) (post : List Byte) :
    readWords (pre ++ (wordsBytes ws ++ post)) pre.length ws.length = ws := by
  induction ws generalizing pre with
  | nil => rfl
  | cons w ws ih =>
    have hbytes : wordsBytes (w :: ws) = leBytes 8 w.toNat ++ wordsBytes ws := rfl
    have hfirst : memRead (pre ++ (wordsBytes (w :: ws) ++ post)) pre.length 8 = w.toNat :=
      memRead_of_prefix (xs := pre) (by simp [hbytes]) rfl w.isLt
    have hrest := ih (pre ++ leBytes 8 w.toNat)
    rw [List.length_append, length_leBytes] at hrest
    rw [List.length_cons, readWords, hfirst, BitVec.ofNat_toNat, BitVec.setWidth_eq, hbytes]
    simpa using hrest

/-- After 40 bytes of metadata come the words of `low`, then those of `high` (R105). -/
theorem exists_blockBytes_eq (blk : EFBlock) :
    ∃ metadata, metadata.length = 40 ∧ blockBytes blk = metadata ++ wordsBytes blk.low ++ wordsBytes blk.high :=
  ⟨_, by simp, rfl⟩

section

variable (blk : EFBlock) (pre post : List Byte)

theorem readWords_low :
    readWords (pre ++ (blockBytes blk ++ post)) (pre.length + 40) blk.low.length = blk.low := by
  obtain ⟨metadata, hlen, hbytes⟩ := exists_blockBytes_eq blk
  have hread := readWords_wordsBytes (pre ++ metadata) blk.low (wordsBytes blk.high ++ post)
  rw [List.length_append, hlen] at hread
  simpa [hbytes] using hread

theorem readWords_high :
    readWords (pre ++ (blockBytes blk ++ post)) (pre.length + 40 + 8 * blk.low.length) blk.high.length = blk.high := by
  obtain ⟨metadata, hlen, hbytes⟩ := exists_blockBytes_eq blk
  have hread := readWords_wordsBytes (pre ++ metadata ++ wordsBytes blk.low) blk.high post
  rw [List.length_append, List.length_append, hlen, length_wordsBytes] at hread
  simpa [hbytes] using hread

end

/-- Parsing at a block's offset gives the block, if its counts are those of its arrays (R242). -/
theorem parseBlock_blockBytes {blk : EFBlock} (hlow : blk.lowWords.toNat = blk.low.length)
    (hhigh : blk.highWords.toNat = blk.high.length) (pre post : List Byte) :
    parseBlock (pre ++ (blockBytes blk ++ post)) pre.length = blk := by
  have hlen := length_blockBytes blk
  have hfield {addr n : Nat} (h : addr + n ≤ 40) :
      memRead (pre ++ (blockBytes blk ++ post)) (pre.length + addr) n = memRead (blockBytes blk) addr n :=
    memRead_payload (by omega)
  have hnElem := (hfield (addr := 0) (n := 4) (by decide)).trans (memRead_blockBytes_nElem blk)
  have hl := (hfield (addr := 4) (n := 1) (by decide)).trans (memRead_blockBytes_l blk)
  have hfloor := (hfield (addr := 8) (n := 8) (by decide)).trans (memRead_blockBytes_floor blk)
  have hlowWords := (hfield (addr := 16) (n := 8) (by decide)).trans (memRead_blockBytes_lowWords blk)
  have hhighWords := (hfield (addr := 24) (n := 8) (by decide)).trans (memRead_blockBytes_highWords blk)
  have hbits := (hfield (addr := 32) (n := 8) (by decide)).trans (memRead_blockBytes_highBitsLen blk)
  have hlowArray := readWords_low blk pre post
  have hhighArray := readWords_high blk pre post
  rw [← hlow] at hlowArray hhighArray
  rw [← hhigh] at hhighArray
  rw [Nat.add_zero] at hnElem
  simp only [parseBlock, hnElem, hl, hfloor, hlowWords, hhighWords, hbits, hlowArray, hhighArray, BitVec.ofNat_toNat,
    BitVec.setWidth_eq]

theorem parseBlock_efEncode {vs : List Word} (h : blockRun vs) (pre post : List Byte) :
    parseBlock (pre ++ (blockBytes (efEncode vs) ++ post)) pre.length = efEncode vs := by
  obtain ⟨-, hmin, hmax⟩ := h
  exact parseBlock_blockBytes ((lowWords_efEncode hmax).trans (length_low_efEncode vs).symm)
    ((highWords_efEncode hmin hmax).trans (length_high_efEncode vs).symm) pre post

/-! ### The blocks of a built Sequence (R241, R249) -/

/-- A directory entry is the length of the pieces before it (R114). -/
theorem getD_offsetsFrom {pieces : List (List Byte)} {b : Nat} (hb : b < pieces.length) (o : Nat) :
    (offsetsFrom o pieces).getD b 0 = BitVec.ofNat 64 (o + (pieces.take b).flatten.length) := by
  induction pieces generalizing b o with
  | nil => cases hb
  | cons piece pieces ih =>
    cases b with
    | zero => rfl
    | succ b =>
      rw [offsetsFrom, List.getD_cons_succ, ih (Nat.lt_of_succ_lt_succ hb), List.take_succ_cons, List.flatten_cons,
        List.length_append, Nat.add_assoc]

/-- Piece `b` stands in the joined pieces after those before it. -/
theorem flatten_eq_piece (pieces : List (List Byte)) {b : Nat} (hb : b < pieces.length) :
    pieces.flatten = (pieces.take b).flatten ++ (pieces[b] ++ (pieces.drop (b + 1)).flatten) := by
  rw [← List.flatten_cons, ← List.drop_eq_getElem_cons hb, ← List.flatten_append, List.take_append_drop]

/-- The bytes of the blocks that `seq_build` writes, in order. -/
def blockPieces (vs : List Word) (bsz : BitVec 32) : List (List Byte) :=
  runsBytes (runsOf bsz.toNat (ceilDiv vs.length bsz.toNat) vs)

section

variable (vs : List Word) (bsz : BitVec 32)

theorem payload_seqBuild : (seqBuild vs bsz).payload = (blockPieces vs bsz).flatten := rfl

theorem blockOffset_seqBuild : (seqBuild vs bsz).blockOffset = offsetsFrom 0 (blockPieces vs bsz) := rfl

theorem length_blockPieces : (blockPieces vs bsz).length = ceilDiv vs.length bsz.toNat := by
  simp [blockPieces, runsBytes]

theorem getElem_blockPieces {b : Nat} (hb : b < (blockPieces vs bsz).length) :
    (blockPieces vs bsz)[b] = blockBytes (efEncode (blockOf vs bsz.toNat b)) := by
  simp [blockPieces, runsBytes, runsOf_eq_map_blockOf]

end

section

variable {vs : List Word} {bsz : BitVec 32} (h : buildable vs bsz) {b : Nat} (hb : b < ceilDiv vs.length bsz.toNat)

include h hb

/-- Each block of buildable values is a run that `ef_encode` takes (R241). -/
theorem blockRun_blockOf : blockRun (blockOf vs bsz.toNat b) := by
  obtain ⟨hrise, hbsz, -⟩ := h
  obtain ⟨-, hmin, hmax⟩ := length_blockOf hbsz hb
  exact ⟨nonDecreasing_of_sublist (blockOf_sublist ..) hrise, hmin, hmax.trans_lt bsz.isLt⟩

/-- Block `b` of a built Sequence is the encoding of block `b` of its values (R249). -/
theorem blockAt_seqBuild : blockAt (seqBuild vs bsz) b = efEncode (blockOf vs bsz.toNat b) := by
  have ⟨_, _, _, hpayload⟩ := h
  have hlen : b < (blockPieces vs bsz).length := by rwa [length_blockPieces]
  have hflatten := flatten_eq_piece (blockPieces vs bsz) hlen
  rw [getElem_blockPieces] at hflatten
  have hoffset : ((seqBuild vs bsz).blockOffset.getD b 0).toNat = ((blockPieces vs bsz).take b).flatten.length := by
    rw [blockOffset_seqBuild, getD_offsetsFrom hlen, Nat.zero_add]
    refine Nat.mod_eq_of_lt (Nat.lt_of_le_of_lt ?_ hpayload)
    rw [payload_seqBuild, hflatten, List.length_append]
    exact Nat.le_add_right ..
  rw [blockAt, hoffset, payload_seqBuild, hflatten]
  exact parseBlock_efEncode (blockRun_blockOf h hb) ..

end

end Sys2Proof.Machine

namespace Sys2Proof.Safety

open Sys2Proof.Machine

/-! ### The block register (R46, R210) -/

/-- A block of a canonical Sequence is valid (R243, R249). -/
theorem isValidBlock_blockAt {q : Sequence} (hq : isCanonical q = true) {b : Nat} (hb : b < q.nBlocks.toNat) :
    isValidBlock (blockAt q b) = true := by
  obtain ⟨hbuildable, hbuild⟩ := isCanonical_iff.1 hq
  rw [← hbuild, nBlocks_seqBuild hbuildable] at hb
  rw [← hbuild, blockAt_seqBuild hbuildable hb]
  exact isValidBlock_efEncode (blockRun_blockOf hbuildable hb)

section

variable {s t : State}

theorem blockRegisterOk_of_efb_eq (hs : blockRegisterOk s) (h : t.efb = s.efb) : blockRegisterOk t := by
  rwa [blockRegisterOk, h]

theorem blockRegisterOk_setEfb {blk : EFBlock} (hblk : isValidBlock blk = true) : blockRegisterOk (s.setEfb blk) :=
  fun _ h => Option.some_inj.1 h ▸ hblk

/-- `EFENC` writes an encoding, `SQLDB` a block of a canonical Sequence; no other command writes the block register. -/
theorem effect_blockRegisterOk {i : Instr} (hs : blockRegisterOk s) (h : Effect s t i) : blockRegisterOk t := by
  cases i with
  | efenc =>
    obtain ⟨vs, hrun, hrise, hmin, hmax, -, -, rfl⟩ := h
    rw [← length_of_cellsRun hrun] at hmin hmax
    exact blockRegisterOk_setEfb (isValidBlock_efEncode ⟨hrise, Nat.pos_of_ne_zero hmin, hmax⟩)
  | sqldb k blk =>
    obtain ⟨q, -, hq, hblk, hstore⟩ := h
    obtain ⟨-, -, rfl⟩ := storeBlock_next hstore
    exact blockRegisterOk_setEfb (isValidBlock_blockAt hq hblk)
  | _ => exact blockRegisterOk_of_efb_eq hs ((effect_writesOnly h).efb_eq (by simp [writes]))

theorem exec_blockRegisterOk {i : Instr} (hs : blockRegisterOk s) (h : exec i s = .next t) : blockRegisterOk t := by
  obtain ⟨kind, info, -, rfl⟩ | heffect := exec_next h
  · exact hs
  · exact effect_blockRegisterOk hs heffect

end

/-- Settles O54: a block enters the register as an encoding, fresh from `EFENC` or read back by `SQLDB` from a canonical
slot's payload. -/
theorem stepsKeepTheBlockRegisterValid : Obligations.StepsKeepTheBlockRegisterValid := by
  intro s t hs h
  obtain ⟨-, -, hefb, -⟩ | ⟨moves, i, hi⟩ | ⟨moves, rfl⟩ := step_registers h
  · exact blockRegisterOk_of_efb_eq hs hefb
  · exact exec_blockRegisterOk (s := s.setPort moves) hs hi
  · exact fun _ h => absurd h (Option.some_ne_none _).symm

end Sys2Proof.Safety

namespace Sys2Proof.Machine

open Sys2Proof.Safety

/-! ### The directory seek (R254) -/

theorem getD_le_getD {ws : List Word} (hrise : nonDecreasing ws = true) {i j : Nat} (hij : i ≤ j) (hj : j < ws.length) :
    (ws.getD i 0).toNat ≤ (ws.getD j 0).toNat := by
  rw [List.getD_eq_getElem _ _ (hij.trans_lt hj), List.getD_eq_getElem _ _ hj]
  obtain rfl | hlt := hij.eq_or_lt
  · exact le_rfl
  · exact List.pairwise_iff_getElem.1 ((nonDecreasing_iff_pairwise ws).1 hrise) i j _ hj hlt

/-- The loop's invariant: the entries before `lo` are below `v`, those from `hi` on are not. -/
structure SeekBracket (lasts : List Word) (v : Word) (lo hi : Nat) : Prop where
  le : lo ≤ hi
  le_length : hi ≤ lasts.length
  below : ∀ j, j < lo → (lasts.getD j 0).toNat < v.toNat
  above : ∀ j, hi ≤ j → j < lasts.length → v.toNat ≤ (lasts.getD j 0).toNat

section

variable {lasts : List Word} {v : Word} {lo hi : Nat} (hrise : nonDecreasing lasts = true)

include hrise

theorem SeekBracket.raise_lo {mid : Nat} (h : SeekBracket lasts v lo hi) (hmid : mid < hi)
    (hprobe : (lasts.getD mid 0).toNat < v.toNat) : SeekBracket lasts v (mid + 1) hi where
  le := hmid
  le_length := h.le_length
  below _ hj := (getD_le_getD hrise (Nat.le_of_lt_succ hj) (hmid.trans_le h.le_length)).trans_lt hprobe
  above := h.above

theorem SeekBracket.lower_hi {mid : Nat} (h : SeekBracket lasts v lo hi) (hlo : lo ≤ mid) (hmid : mid < hi)
    (hprobe : v.toNat ≤ (lasts.getD mid 0).toNat) : SeekBracket lasts v lo mid where
  le := hlo
  le_length := hmid.le.trans h.le_length
  below := h.below
  above _ hj hlen := hprobe.trans (getD_le_getD hrise hj hlen)

/-- With fuel for every entry in between, the loop closes the bracket. -/
theorem seekBracket_seekLoop {fuel : Nat} (h : SeekBracket lasts v lo hi) (hfuel : hi - lo ≤ fuel) :
    SeekBracket lasts v (seekLoop lasts v fuel lo hi) (seekLoop lasts v fuel lo hi) := by
  induction fuel generalizing lo hi with
  | zero =>
    obtain rfl : lo = hi := h.le.antisymm (Nat.sub_eq_zero_iff_le.1 (Nat.le_zero.1 hfuel))
    exact h
  | succ fuel ih =>
    rw [seekLoop]
    split
    · dsimp only
      split
      · exact ih (h.raise_lo hrise (by omega) ‹_›) (by omega)
      · exact ih (h.lower_hi hrise (by omega) (by omega) (Nat.le_of_not_lt ‹_›)) (by omega)
    · obtain rfl : lo = hi := h.le.antisymm (Nat.le_of_not_lt ‹_›)
      exact h

end

/-- The seek splits the directory: last values below `v` before it, none from it on. -/
theorem seekBracket_seek {q : Sequence} (hrise : nonDecreasing q.blockLast = true) (v : Word) :
    SeekBracket q.blockLast v (seek q v) (seek q v) :=
  seekBracket_seekLoop hrise ⟨Nat.zero_le _, le_rfl, nofun, fun _ hj hlen => absurd hlen (Nat.not_lt_of_le hj)⟩ le_rfl

/-! ### The values block by block (R241) -/

theorem flatten_runsOf {size k : Nat} {vs : List Word} (h : vs.length ≤ k * size) : (runsOf size k vs).flatten = vs := by
  induction k generalizing vs with
  | zero => exact (List.eq_nil_of_length_eq_zero (by omega)).symm
  | succ k ih =>
    rw [Nat.succ_mul] at h
    rw [runsOf, List.flatten_cons, ih (by rw [List.length_drop]; omega), List.take_append_drop]

section

variable {vs : List Word} {size : Nat} (hsize : 1 ≤ size)

include hsize

theorem flatMap_blockOf : (List.range (ceilDiv vs.length size)).flatMap (blockOf vs size) = vs := by
  rw [List.flatMap_def, ← runsOf_eq_map_blockOf, flatten_runsOf ((ceilDiv_le_iff hsize).1 le_rfl)]

theorem mem_iff_exists_mem_blockOf {v : Word} :
    v ∈ vs ↔ ∃ b, b < ceilDiv vs.length size ∧ v ∈ blockOf vs size b := by
  conv_lhs => rw [← flatMap_blockOf hsize (vs := vs)]
  simp

/-- Value `i` is value `i mod B` of block `i div B` (R252). -/
theorem getElem?_blockOf (i : Nat) : (blockOf vs size (i / size))[i % size]? = vs[i]? := by
  rw [blockOf, List.getElem?_take_of_lt (Nat.mod_lt i hsize), List.getElem?_drop, Nat.div_add_mod']

theorem div_lt_ceilDiv {i n : Nat} (hi : i < n) : i / size < ceilDiv n size :=
  (lt_ceilDiv_iff hsize).2 ((Nat.div_mul_le_self i size).trans_lt hi)

theorem blockOf_eq_nil {b : Nat} (hb : ceilDiv vs.length size ≤ b) : blockOf vs size b = [] := by
  rw [blockOf, List.drop_eq_nil_of_le ((ceilDiv_le_iff hsize).1 hb), List.take_nil]

end

/-- No value of a block is above one of a later block. -/
theorem le_of_mem_blockOf {vs : List Word} (hrise : nonDecreasing vs = true) {size i j : Nat} (hij : i < j) {u w : Word}
    (hu : u ∈ blockOf vs size i) (hw : w ∈ blockOf vs size j) : u.toNat ≤ w.toNat := by
  have hsplit := (nonDecreasing_iff_pairwise vs).1 hrise
  rw [← List.take_append_drop (i * size + size) vs, List.pairwise_append] at hsplit
  obtain ⟨-, -, hcross⟩ := hsplit
  have hstart : i * size + size ≤ j * size := by
    rw [← Nat.succ_mul]
    exact Nat.mul_le_mul_right size hij
  refine hcross u ?_ w ((List.drop_sublist_drop_left vs hstart).subset (List.mem_of_mem_take hw))
  rw [blockOf, List.take_drop] at hu
  exact List.mem_of_mem_drop hu

/-! ### The laws of a built Sequence (R256) -/

/-- Whole decode is the decode of the blocks in order (R250). -/
theorem seqDecode_eq_flatMap (q : Sequence) :
    seqDecode q = (List.range q.blockOffset.length).flatMap fun b => efDecode (blockAt q b) := by
  have hoffsets : (List.range q.blockOffset.length).map (fun b => q.blockOffset.getD b 0) = q.blockOffset :=
    List.ext_getElem (by simp) fun b _ hb => by simp [hb]
  unfold seqDecode
  conv_lhs => rw [← hoffsets]
  rw [List.flatMap_map]
  rfl

/-- The test against the block's `floor` is the first test of membership in the block (R255). -/
theorem seqContains_eq (q : Sequence) (v : Word) :
    seqContains q v = if seek q v = q.nBlocks.toNat then false else efContains (blockAt q (seek q v)) v := by
  unfold seqContains
  refine if_congr Iff.rfl rfl ?_
  split
  · exact (if_pos ‹_›).symm
  · rfl

theorem length_blockLast_seqBuild (vs : List Word) (bsz : BitVec 32) :
    (seqBuild vs bsz).blockLast.length = ceilDiv vs.length bsz.toNat := by
  simp [seqBuild]

section

variable {vs : List Word} {bsz : BitVec 32} (h : buildable vs bsz)

include h

theorem efDecode_blockAt_seqBuild {b : Nat} (hb : b < ceilDiv vs.length bsz.toNat) :
    efDecode (blockAt (seqBuild vs bsz) b) = blockOf vs bsz.toNat b := by
  rw [blockAt_seqBuild h hb, efDecode_efEncode (blockRun_blockOf h hb)]

theorem length_blockOffset_seqBuild : (seqBuild vs bsz).blockOffset.length = (seqBuild vs bsz).nBlocks.toNat := by
  obtain ⟨-, -, -, hoffsets, -⟩ := slotShape_seqBuild h
  exact hoffsets

theorem seqDecode_seqBuild : seqDecode (seqBuild vs bsz) = vs := by
  have ⟨_, hbsz, _⟩ := h
  rw [seqDecode_eq_flatMap, length_blockOffset_seqBuild h, nBlocks_seqBuild h]
  exact (List.flatMap_congr fun b hb => efDecode_blockAt_seqBuild h (List.mem_range.1 hb)).trans (flatMap_blockOf hbsz)

theorem seqGet_seqBuild {i : Nat} (hi : i < vs.length) : seqGet (seqBuild vs bsz) i = vs[i]? := by
  have ⟨_, hbsz, _⟩ := h
  have hb := div_lt_ceilDiv hbsz hi
  rw [← getElem?_blockOf hbsz i, ← efAt_efEncode (blockRun_blockOf h hb), ← blockAt_seqBuild h hb]
  rfl

/-- The block that the seek finds decides membership: earlier blocks end below `v`, and where a later one holds `v` the found
block ends in `v` (R254). -/
theorem mem_iff_mem_blockOf_seek (v : Word) :
    v ∈ vs ↔ v ∈ blockOf vs bsz.toNat (seek (seqBuild vs bsz) v) := by
  have ⟨hrise, hbsz, _⟩ := h
  have hseek := seekBracket_seek (nonDecreasing_blockLast_seqBuild h) v
  refine ⟨fun hv => ?_, fun hv => (blockOf_sublist ..).subset hv⟩
  obtain ⟨j, hj, hv⟩ := (mem_iff_exists_mem_blockOf hbsz).1 hv
  obtain hbefore | rfl | hafter := lt_trichotomy j (seek (seqBuild vs bsz) v)
  · have hlast := hseek.below j hbefore
    rw [blockLast_seqBuild hj] at hlast
    exact absurd hlast (Nat.not_lt_of_le (le_getLastD_of_mem (nonDecreasing_of_sublist (blockOf_sublist ..) hrise) hv))
  · exact hv
  · have hb := hafter.trans hj
    obtain ⟨-, hmin, -⟩ := length_blockOf hbsz hb
    have hmem := getLastD_mem (List.ne_nil_of_length_pos hmin)
    have hlast := hseek.above _ le_rfl ((length_blockLast_seqBuild vs bsz).symm ▸ hb)
    rw [blockLast_seqBuild hb] at hlast
    have hend := BitVec.eq_of_toNat_eq ((le_of_mem_blockOf hrise hafter hmem hv).antisymm hlast)
    rwa [hend] at hmem

theorem seqContains_seqBuild (v : Word) : seqContains (seqBuild vs bsz) v = decide (v ∈ vs) := by
  have ⟨_, hbsz, _⟩ := h
  rw [seqContains_eq, nBlocks_seqBuild h, decide_eq_decide.2 (mem_iff_mem_blockOf_seek h v)]
  have hseek := seekBracket_seek (nonDecreasing_blockLast_seqBuild h) v
  split
  · rename_i hend
    simp [blockOf_eq_nil hbsz hend.ge]
  · rename_i hne
    have hb := (hseek.le_length.trans_eq (length_blockLast_seqBuild vs bsz)).lt_of_ne hne
    rw [blockAt_seqBuild h hb, efContains_efEncode (blockRun_blockOf h hb)]

/-- What `seq_build` gives passes the test of canonical form (R243). -/
theorem isCanonical_seqBuild : isCanonical (seqBuild vs bsz) = true := by
  rw [isCanonical_iff, seqDecode_seqBuild h]
  exact ⟨h, rfl⟩

end

end Sys2Proof.Machine

namespace Sys2Proof.Safety

open Sys2Proof.Machine

/-- Settles O39: the loop closes its bracket around the place where the last values reach `v`. -/
theorem seekFindsTheFirstBlock : Obligations.SeekFindsTheFirstBlock := by
  intro q v hrise hlen
  have hseek := seekBracket_seek hrise v
  have hle := hseek.le_length
  rw [hlen] at hle
  exact ⟨hseek.below, hle.eq_or_lt.imp_right fun hlt => ⟨hlt, hseek.above _ le_rfl (hlen ▸ hlt)⟩⟩

/-- Settles O31: every law is the block's own law, block `b` being the encoding of block `b` of the values. -/
theorem containerLawsHold : Obligations.ContainerLawsHold := by
  intro vs bsz h q n
  have ⟨_, hbsz, _⟩ := h
  have hn : n = ceilDiv vs.length bsz.toNat := nBlocks_seqBuild h
  have hblock (b : Nat) (hb : b < n) :
      (efDecode (blockAt q b)).length = chainCount bsz.toNat vs.length n b := by
    rw [hn] at hb ⊢
    rw [efDecode_blockAt_seqBuild h hb, (length_blockOf hbsz hb).1]
  refine ⟨seqDecode_seqBuild h, fun i => seqGet_seqBuild h, seqContains_seqBuild h, ?_, fun b hb => ?_, fun hpos => ?_⟩
  · rw [seqDecode_eq_flatMap, length_blockOffset_seqBuild h]
  · rw [hblock b (by omega), chainCount, if_pos hb]
  · have hsome : 0 < n := hn ▸ (lt_ceilDiv_iff hbsz).2 (by omega)
    rw [hblock (n - 1) (by omega), hn]
    exact chainCount_last hbsz (hn ▸ hsome)

/-- Settles O32: a canonical Sequence is built from its own decode, and a built one decodes to its values. -/
theorem canonicalSequencesAreTheBuilt : Obligations.CanonicalSequencesAreTheBuilt := by
  refine fun q => ⟨fun hq => ?_, ?_⟩
  · obtain ⟨hbuildable, hbuild⟩ := isCanonical_iff.1 hq
    exact ⟨_, _, hbuildable, hbuild.symm⟩
  · rintro ⟨vs, bsz, hbuildable, rfl⟩
    exact isCanonical_seqBuild hbuildable

end Sys2Proof.Safety

namespace Sys2Proof.Machine

open Sys2Proof.Safety

/-! ### What a command that reads slots answers (R240, R257) -/

section

variable {s : State} {k : BitVec 8} {use : Sequence → Out}

theorem needSlot_of_emptySlot (h : emptySlot s k) : needSlot k s use = .next (s.setFault .illegal 5) := by
  rw [needSlot, h]
  rfl

theorem needSlot_of_not_canonical {q : Sequence} (h : cellsRead s.slots k.toNat = some q) (hq : isCanonical q = false) :
    needSlot k s use = .refused .notCanonical := by
  simp [needSlot, h, hq]

theorem needSlot_of_holdsSequence {vs : List Word} {bsz : BitVec 32} (h : holdsSequence s k vs bsz) :
    needSlot k s use = use (seqBuild vs bsz) := by
  obtain ⟨hread, hbuildable⟩ := h
  exact needSlot_of hread (isCanonical_seqBuild hbuildable) use

end

section

variable {i : Instr} {s : State} {k : BitVec 8} (hi : i.wf = true)

include hi

/-- A command that reads slots does nothing before it has read the first. -/
theorem exists_exec_eq_needSlot (hread : (slotReads i).head? = some k) : ∃ use, exec i s = needSlot k s use := by
  cases i with
  | sqlen | sqbsz | sqnblk | sqdec | sqdecb | sqget | sqhas | sqldb | sqser | sqand | sqor =>
    obtain rfl := Option.some_inj.1 hread
    exact ⟨_, checkForm_of_wf hi ..⟩
  | _ => cases hread

/-- A command that reads two slots does nothing between the two reads (R302). -/
theorem exists_exec_eq_needSlot_needSlot {j : BitVec 8} (hread : slotReads i = [j, k]) :
    ∃ use : Sequence → Sequence → Out, exec i s = needSlot j s fun p => needSlot k s (use p) := by
  cases i with
  | sqand | sqor =>
    cases hread
    exact ⟨_, checkForm_of_wf hi ..⟩
  | _ => cases hread

theorem exec_of_emptySlot (hread : (slotReads i).head? = some k) (h : emptySlot s k) :
    exec i s = .next (s.setFault .illegal 5) := by
  obtain ⟨use, hexec⟩ := exists_exec_eq_needSlot hi hread (s := s)
  rw [hexec, needSlot_of_emptySlot h]

end

/-! ### What the Sequence commands answer on a built slot (R246 to R253) -/

section

variable {s : State} {k : BitVec 8} {vs : List Word} {bsz : BitVec 32} (hk : slotOk k = true)
  (h : holdsSequence s k vs bsz)

include h in
theorem checkForm_needSlot_of_holdsSequence {i : Instr} (hi : i.wf = true) (use : Sequence → Out) :
    checkForm i s (needSlot k s use) = use (seqBuild vs bsz) :=
  (checkForm_of_wf hi ..).trans (needSlot_of_holdsSequence h)

include hk h

theorem exec_sqlen : exec (.sqlen k) s = .next (s.setRes vs.length) := by
  rw [← nElem_seqBuild h.2]
  exact checkForm_needSlot_of_holdsSequence h (i := .sqlen k) hk _

theorem exec_sqbsz : exec (.sqbsz k) s = .next (s.setRes bsz.toNat) :=
  checkForm_needSlot_of_holdsSequence h (i := .sqbsz k) hk _

theorem exec_sqnblk : exec (.sqnblk k) s = .next (s.setRes (ceilDiv vs.length bsz.toNat)) := by
  rw [← nBlocks_seqBuild h.2]
  exact checkForm_needSlot_of_holdsSequence h (i := .sqnblk k) hk _

/-- On a built slot `SQDEC` is the store of the values. -/
theorem exec_sqdec : exec (.sqdec k) s = storeValues vs s := by
  refine (checkForm_needSlot_of_holdsSequence h (i := .sqdec k) hk _).trans ?_
  rw [seqDecode_seqBuild h.2]

theorem exec_sqdecb_of_le {blk : Word} (hblk : ceilDiv vs.length bsz.toNat ≤ blk.toNat) :
    exec (.sqdecb k blk) s = .next (s.setFault .outOfRange 2) := by
  rw [← nBlocks_seqBuild h.2] at hblk
  exact (checkForm_needSlot_of_holdsSequence h (i := .sqdecb k blk) hk _).trans (if_pos hblk)

/-- Within the directory `SQDECB` is the store of the block's values. -/
theorem exec_sqdecb {blk : Word} (hblk : blk.toNat < ceilDiv vs.length bsz.toNat) :
    exec (.sqdecb k blk) s = storeValues (blockOf vs bsz.toNat blk.toNat) s := by
  rw [← efDecode_blockAt_seqBuild h.2 hblk]
  rw [← nBlocks_seqBuild h.2] at hblk
  exact (checkForm_needSlot_of_holdsSequence h (i := .sqdecb k blk) hk _).trans (if_neg (Nat.not_le_of_lt hblk))

theorem exec_sqldb_of_le {blk : Word} (hblk : ceilDiv vs.length bsz.toNat ≤ blk.toNat) :
    exec (.sqldb k blk) s = .next (s.setFault .outOfRange 2) := by
  rw [← nBlocks_seqBuild h.2] at hblk
  exact (checkForm_needSlot_of_holdsSequence h (i := .sqldb k blk) hk _).trans (if_pos hblk)

/-- Within the directory `SQLDB` is the store of the block. -/
theorem exec_sqldb {blk : Word} (hblk : blk.toNat < ceilDiv vs.length bsz.toNat) :
    exec (.sqldb k blk) s = storeBlock (efEncode (blockOf vs bsz.toNat blk.toNat)) s := by
  rw [← blockAt_seqBuild h.2 hblk]
  rw [← nBlocks_seqBuild h.2] at hblk
  exact (checkForm_needSlot_of_holdsSequence h (i := .sqldb k blk) hk _).trans (if_neg (Nat.not_le_of_lt hblk))

theorem exec_sqget_of_le {i : Word} (hi : vs.length ≤ i.toNat) :
    exec (.sqget k i) s = .next (s.setFault .outOfRange 1) := by
  rw [← nElem_seqBuild h.2] at hi
  exact (checkForm_needSlot_of_holdsSequence h (i := .sqget k i) hk _).trans (if_pos hi)

theorem exec_sqget {i v : Word} (hv : vs[i.toNat]? = some v) : exec (.sqget k i) s = .next (s.setRes v.toNat) := by
  obtain ⟨hi, -⟩ := List.getElem?_eq_some_iff.1 hv
  refine (checkForm_needSlot_of_holdsSequence h (i := .sqget k i) hk _).trans ((if_neg ?_).trans ?_)
  · rw [nElem_seqBuild h.2]
    exact Nat.not_le_of_lt hi
  · rw [seqGet_seqBuild h.2 hi, hv]

theorem exec_sqhas (v : Word) : exec (.sqhas k v) s = .next (s.setT (decide (v ∈ vs))) := by
  rw [← seqContains_seqBuild h.2]
  exact checkForm_needSlot_of_holdsSequence h (i := .sqhas k v) hk _

end

/-! ### What `SQBUILD` answers (R244) -/

theorem storeSequence_of_not_sequenceFits {vs : List Word} {bsz : BitVec 32} (h : ¬ sequenceFits vs bsz) (k : BitVec 8)
    (s : State) : ∃ c, storeSequence k vs bsz s = .refused (.capacity c) := by
  rw [storeSequence]
  cases hlengths : decide (vs.length < 2 ^ 64) && fitsBytes (seqBuild vs bsz).payload.length with
  | false => exact ⟨.bytes, rfl⟩
  | true =>
    cases hblocks : blocksFit (seqBlocks vs bsz.toNat) with
    | false => exact ⟨.words, rfl⟩
    | true =>
      rw [Bool.and_eq_true, decide_eq_true_eq] at hlengths
      exact absurd ⟨hlengths.1, hlengths.2, hblocks⟩ h

section

variable {s : State} {k : BitVec 8} {vs : List Word} {bsz : BitVec 32} (hk : slotOk k = true)

include hk

theorem exec_sqbuild_of_zero : exec (.sqbuild k 0) s = .next (s.setFault .invalidInput 4) :=
  checkForm_of_wf (i := .sqbuild k 0) hk ..

theorem exec_sqbuild_of_holdsRun (hbsz : bsz ≠ 0) (hrun : holdsRun s vs) :
    exec (.sqbuild k bsz) s = if nonDecreasing vs then storeSequence k vs bsz s else raise .invalidInput 2 s :=
  (exec_sqbuild hk hbsz).trans (needRun_of hrun _)

end

end Sys2Proof.Machine

namespace Sys2Proof.Safety

open Sys2Proof.Machine

/-- Settles O33: the header fields of a built Sequence count its values and its blocks. -/
theorem scalarQueriesGiveTheHeader : Obligations.ScalarQueriesGiveTheHeader := fun k _ hk =>
  ⟨fun hempty => ⟨exec_of_emptySlot (i := .sqlen k) hk rfl hempty, exec_of_emptySlot (i := .sqbsz k) hk rfl hempty,
    exec_of_emptySlot (i := .sqnblk k) hk rfl hempty⟩,
    fun _ _ h => ⟨exec_sqlen hk h, exec_sqbsz hk h, exec_sqnblk hk h⟩⟩

/-- Settles O34: the block parsed at the directory's offset is the encoding of its values. -/
theorem loadBlockGivesTheBlock : Obligations.LoadBlockGivesTheBlock := by
  refine fun k blk s hk => ⟨exec_of_emptySlot (i := .sqldb k blk) hk rfl,
    fun vs bsz h => ⟨exec_sqldb_of_le hk h, fun hblk hfit => ?_, fun hblk hfit => ?_⟩⟩
  · rw [exec_sqldb hk h hblk, storeBlock_of hfit.1 hfit.2]
    rfl
  · rw [exec_sqldb hk h hblk, storeBlock_of_not_blockFits hfit]

/-- Settles O35: the slot decodes to its values, and the capacity test stands at the store. -/
theorem decodeSequenceRestoresTheValues : Obligations.DecodeSequenceRestoresTheValues := by
  refine fun k s hk => ⟨exec_of_emptySlot (i := .sqdec k) hk rfl, fun vs bsz h => ?_⟩
  rw [exec_sqdec hk h]
  exact ⟨fun hfit => storeValues_of hfit s, fun hfit => storeValues_of_not_fits hfit s⟩

/-- Settles O36: block `blk` decodes to its values, and the capacity test stands at the store. -/
theorem decodeBlockRestoresItsValues : Obligations.DecodeBlockRestoresItsValues := fun k blk s hk =>
  ⟨exec_of_emptySlot (i := .sqdecb k blk) hk rfl, fun _ _ h => ⟨exec_sqdecb_of_le hk h,
    fun hblk hfit => (exec_sqdecb hk h hblk).trans (storeValues_of hfit s),
    fun hblk hfit => (exec_sqdecb hk h hblk).trans (storeValues_of_not_fits hfit s)⟩⟩

/-- Settles O37: rank `i mod B` of block `i div B` is value `i`. -/
theorem indexLookupGivesTheValue : Obligations.IndexLookupGivesTheValue := by
  refine fun k i s hk => ⟨exec_of_emptySlot (i := .sqget k i) hk rfl,
    fun vs bsz h => ⟨exec_sqget_of_le hk h, fun v hv => ?_⟩⟩
  rw [exec_sqget hk h hv, State.setRes, BitVec.ofNat_toNat, BitVec.setWidth_eq]

/-- Settles O38: a value of the Sequence is a value of the block the seek finds. -/
theorem sequenceMembershipIsExact : Obligations.SequenceMembershipIsExact := fun k v _ hk =>
  ⟨exec_of_emptySlot (i := .sqhas k v) hk rfl, fun _ _ h => exec_sqhas hk h v⟩

/-- Settles O48: the test of canonical form stands at each read of a slot, before anything is done with it. -/
theorem nonCanonicalSlotsAreRefused : Obligations.NonCanonicalSlotsAreRefused := by
  intro i s k q hi hslot hq
  refine ⟨fun hread => ?_, fun j p hread hfirst hp => ?_⟩
  · obtain ⟨use, hexec⟩ := exists_exec_eq_needSlot hi hread (s := s)
    rw [hexec, needSlot_of_not_canonical hslot hq]
  · obtain ⟨use, hexec⟩ := exists_exec_eq_needSlot_needSlot hi hread (s := s)
    rw [hexec, needSlot_of hfirst hp, needSlot_of_not_canonical hslot hq]

/-- Settles O29: the test of the block size comes before the run is read, the test of order before the build, and the capacity
tests stand at the store of the slot. -/
theorem buildCommandChecksThenBuilds : Obligations.BuildCommandChecksThenBuilds := by
  refine fun k bsz s hk => ⟨?_, fun vs hbsz hrun => ?_⟩
  · rintro rfl
    exact exec_sqbuild_of_zero hk
  · rw [exec_sqbuild_of_holdsRun hk hbsz hrun]
    refine ⟨fun hfall => ?_, fun hrise hfit => ?_, fun hrise hfit => ?_⟩
    · rw [hfall]
      rfl
    · obtain ⟨hlen, hpayload, hblocks⟩ := hfit
      rw [if_pos hrise, storeSequence_of hlen hpayload hblocks]
      rfl
    · rw [if_pos hrise]
      exact storeSequence_of_not_sequenceFits hfit k s

end Sys2Proof.Safety

namespace Sys2Proof.Machine

open Sys2Proof.Safety

/-! ### Byte arrays in pieces (R16, R75) -/

/-- The bytes a scalar was read from are the bytes that storing it gives. -/
theorem leBytes_leValue (xs : List Byte) : leBytes xs.length (leValue xs) = xs := by
  induction xs with
  | nil => rfl
  | cons x xs ih =>
    have hx : x.toNat < 256 := x.isLt
    have hrest : (x.toNat + 256 * leValue xs) / 256 = leValue xs := by omega
    have hfirst : BitVec.ofNat 8 (x.toNat + 256 * leValue xs) = x := BitVec.eq_of_toNat_eq (by
      rw [BitVec.toNat_ofNat]
      omega)
    rw [leValue, List.length_cons, leBytes, hrest, hfirst, ih]

section

variable {bs : List Byte} {o : Nat}

theorem leBytes_memRead {n : Nat} (h : o + n ≤ bs.length) : leBytes n (memRead bs o n) = (bs.drop o).take n := by
  have hlen : ((bs.drop o).take n).length = n := by
    rw [List.length_take, List.length_drop]
    omega
  have hbytes := leBytes_leValue ((bs.drop o).take n)
  rwa [hlen] at hbytes

/-- Consecutive pieces join. -/
theorem take_drop_append (bs : List Byte) {o o' m n : Nat} (ho : o' = o + m) :
    (bs.drop o).take m ++ (bs.drop o').take n = (bs.drop o).take (m + n) := by
  rw [ho, List.take_add, List.drop_drop]

theorem toNat_ofNat_memRead (bs : List Byte) (o n : Nat) :
    (BitVec.ofNat (8 * n) (memRead bs o n)).toNat = memRead bs o n :=
  Nat.mod_eq_of_lt (memRead_lt ..)

theorem wordsBytes_readWords {n : Nat} (h : o + 8 * n ≤ bs.length) :
    wordsBytes (readWords bs o n) = (bs.drop o).take (8 * n) := by
  induction n generalizing o with
  | zero => rfl
  | succ n ih =>
    have hfirst : leBytes 8 (BitVec.ofNat 64 (memRead bs o 8)).toNat = (bs.drop o).take 8 := by
      rw [← leBytes_memRead (by omega)]
      exact congrArg _ (toNat_ofNat_memRead bs o 8)
    rw [readWords, wordsBytes, List.flatMap_cons, hfirst, ← wordsBytes, ih (by omega), take_drop_append bs rfl,
      Nat.mul_succ, Nat.add_comm]

/-- Stored words one by one. -/
theorem readWords_eq_map (bs : List Byte) (o n : Nat) :
    readWords bs o n = (List.range n).map fun b => BitVec.ofNat 64 (memRead bs (o + 8 * b) 8) := by
  induction n generalizing o with
  | zero => rfl
  | succ n ih =>
    rw [readWords, ih, List.range_succ_eq_map, List.map_cons, List.map_map]
    refine congrArg₂ _ rfl (List.map_congr_left fun b _ => ?_)
    simp only [Function.comp_apply, Nat.mul_succ, Nat.add_assoc, Nat.add_comm 8]

theorem toNat_getD_readWords {b n : Nat} (hb : b < n) (bs : List Byte) (o : Nat) :
    ((readWords bs o n).getD b 0).toNat = memRead bs (o + 8 * b) 8 := by
  rw [readWords_eq_map, List.getD_eq_getElem _ _ (by simpa using hb), List.getElem_map, List.getElem_range]
  exact toNat_ofNat_memRead ..

end

/-! ### The fields of an image (R112, R280) -/

theorem length_serialize (q : Sequence) :
    (serialize q).length = 40 + 8 * q.blockLast.length + 8 * q.blockOffset.length + q.payload.length := by
  simp only [serialize, headerBytes, metadataOf, magicBytes, List.length_append, length_leBytes, length_wordsBytes,
    List.length_cons, List.length_nil]

section

variable (q : Sequence)

/-- After the header come the last values, then the offsets, then the payload (R112). -/
theorem exists_serialize_eq :
    ∃ header, header.length = 40 ∧
      serialize q = header ++ (wordsBytes q.blockLast ++ (wordsBytes q.blockOffset ++ q.payload)) :=
  ⟨headerBytes (metadataOf q), by simp [headerBytes, metadataOf, magicBytes], by simp [serialize]⟩

theorem headerBytes_metadataOf :
    headerBytes (metadataOf q) =
      magicBytes ++ leBytes 4 1 ++ leBytes 8 q.nElem.toNat ++ leBytes 4 q.blockSize.toNat ++ leBytes 4 0
        ++ leBytes 8 q.nBlocks.toNat ++ leBytes 8 (metadataOf q).payloadOffset.toNat := rfl

theorem take_serialize : (serialize q).take 4 = magicBytes := by
  simp [serialize, headerBytes, metadataOf, magicBytes]

theorem memRead_serialize_version : memRead (serialize q) 4 4 = 1 :=
  memRead_of_prefix (xs := magicBytes) (by simp [serialize, headerBytes, metadataOf]) rfl (by decide)

theorem memRead_serialize_nElem : memRead (serialize q) 8 8 = q.nElem.toNat :=
  memRead_of_prefix (xs := magicBytes ++ leBytes 4 1) (by simp [serialize, headerBytes, metadataOf]) rfl q.nElem.isLt

theorem memRead_serialize_blockSize : memRead (serialize q) 16 4 = q.blockSize.toNat :=
  memRead_of_prefix (xs := magicBytes ++ leBytes 4 1 ++ leBytes 8 q.nElem.toNat)
    (by simp [serialize, headerBytes, metadataOf]) rfl q.blockSize.isLt

theorem memRead_serialize_reserved : memRead (serialize q) 20 4 = 0 :=
  memRead_of_prefix (xs := magicBytes ++ leBytes 4 1 ++ leBytes 8 q.nElem.toNat ++ leBytes 4 q.blockSize.toNat)
    (by simp [serialize, headerBytes, metadataOf]) rfl (by decide)

theorem memRead_serialize_nBlocks : memRead (serialize q) 24 8 = q.nBlocks.toNat :=
  memRead_of_prefix
    (xs := magicBytes ++ leBytes 4 1 ++ leBytes 8 q.nElem.toNat ++ leBytes 4 q.blockSize.toNat ++ leBytes 4 0)
    (by simp [serialize, headerBytes, metadataOf]) rfl q.nBlocks.isLt

theorem memRead_serialize_payloadOffset : memRead (serialize q) 32 8 = (metadataOf q).payloadOffset.toNat :=
  memRead_of_prefix
    (xs := magicBytes ++ leBytes 4 1 ++ leBytes 8 q.nElem.toNat ++ leBytes 4 q.blockSize.toNat ++ leBytes 4 0
      ++ leBytes 8 q.nBlocks.toNat)
    (by simp [serialize, headerBytes, metadataOf]) rfl (metadataOf q).payloadOffset.isLt

theorem readWords_serialize_blockLast : readWords (serialize q) 40 q.blockLast.length = q.blockLast := by
  obtain ⟨header, hlen, hbytes⟩ := exists_serialize_eq q
  rw [hbytes, ← hlen, readWords_wordsBytes]

theorem readWords_serialize_blockOffset :
    readWords (serialize q) (40 + 8 * q.blockLast.length) q.blockOffset.length = q.blockOffset := by
  obtain ⟨header, hlen, hbytes⟩ := exists_serialize_eq q
  rw [hbytes, ← hlen, ← length_wordsBytes, ← List.length_append, ← List.append_assoc, readWords_wordsBytes]

theorem drop_serialize :
    (serialize q).drop (40 + 8 * q.blockLast.length + 8 * q.blockOffset.length) = q.payload := by
  obtain ⟨header, hlen, hbytes⟩ := exists_serialize_eq q
  rw [hbytes, ← List.append_assoc, ← List.append_assoc]
  exact List.drop_left' (by simp [hlen, length_wordsBytes, Nat.add_assoc])

end

end Sys2Proof.Machine

namespace Sys2Proof.Safety

open Sys2Proof.Machine

/-! ### The loader's checks in the terms of the format (R283, R284) -/

theorem imageOffset_eq {img : List Byte} {n b : Nat} (hb : b < n) :
    ((readWords img (40 + 8 * n) n).getD b 0).toNat = imageOffset img n b := toNat_getD_readWords hb ..

/-- The loader's loop over an image's directory passes exactly the block chain, and ends where its last block does. -/
theorem chainEnd_readWords_iff {img payload : List Byte} {bsz total n e : Nat} :
    chainEnd payload bsz total n (readWords img (40 + 8 * n) n) 0 0 = some e ↔
      blockChain payload (imageOffset img n) bsz total n ∧ chainOffset payload (imageOffset img n) n = e := by
  have h := chainEnd_eq_some_iff (payload := payload) (bsz := bsz) (total := total) (n := n) (e := e)
    (offset := imageOffset img n) (os := readWords img (40 + 8 * n) n) (b := 0) fun j hj => by
      rw [length_readWords] at hj
      rw [Nat.zero_add, imageOffset_eq hj]
  simpa only [Nat.zero_add, length_readWords, ← blockChain_iff, chainOffset_zero] using h

theorem nonDecreasing_iff_getD (ws : List Word) :
    nonDecreasing ws = true ↔ ∀ b, b + 1 < ws.length → (ws.getD b 0).toNat ≤ (ws.getD (b + 1) 0).toNat := by
  refine ⟨fun h b hb => getD_le_getD h (Nat.le_succ b) hb, fun h => ?_⟩
  rw [nonDecreasing_iff_pairwise, ← List.isChain_iff_pairwise, List.isChain_iff_getElem]
  intro b hb
  have hle := h b hb
  rwa [List.getD_eq_getElem _ _ hb, List.getD_eq_getElem _ _ (Nat.lt_of_succ_lt hb)] at hle

theorem nonDecreasing_readWords_iff {img : List Byte} {n : Nat} :
    nonDecreasing (readWords img 40 n) = true ↔ lastsRise img n := by
  rw [nonDecreasing_iff_getD, length_readWords]
  refine forall₂_congr fun b hb => ?_
  rw [toNat_getD_readWords (Nat.lt_of_succ_lt hb), toNat_getD_readWords hb]

theorem sequenceOf_eq (img : List Byte) :
    sequenceOf img =
      { nElem := BitVec.ofNat 64 (memRead img 8 8)
        blockSize := BitVec.ofNat 32 (memRead img 16 4)
        nBlocks := BitVec.ofNat 64 (memRead img 24 8)
        blockLast := readWords img 40 (memRead img 24 8)
        blockOffset := readWords img (40 + 8 * memRead img 24 8) (memRead img 24 8)
        payload := img.drop (memRead img 32 8) } := by
  rw [readWords_eq_map, readWords_eq_map]
  rfl

open Classical in
/-- `deserialize` is the eleven checks in their order, then the Sequence of the fields read. -/
theorem loadImage_eq (img : List Byte) :
    loadImage img =
      let n := memRead img 24 8
      let payload := img.drop (memRead img 32 8)
      if img.length < 40 then .error 1
      else if img.take 4 ≠ [0x50, 0x50, 0x45, 0x46] then .error 2
      else if memRead img 4 4 ≠ 1 then .error 3
      else if memRead img 16 4 = 0 then .error 4
      else if memRead img 20 4 ≠ 0 then .error 5
      else if n ≠ ceilDiv (memRead img 8 8) (memRead img 16 4) then .error 6
      else if memRead img 32 8 ≠ 40 + 16 * n then .error 7
      else if img.length < memRead img 32 8 then .error 8
      else if ¬ blockChain payload (imageOffset img n) (memRead img 16 4) (memRead img 8 8) n then .error 9
      else if chainOffset payload (imageOffset img n) n ≠ payload.length then .error 10
      else if ¬ lastsRise img n then .error 11
      else .ok (sequenceOf img) := by
  unfold loadImage
  dsimp only
  iterate 8 refine if_congr (by simp [magicBytes]) rfl ?_
  split
  · rename_i hnone
    refine (if_pos fun hchain => ?_).symm
    cases hnone.symm.trans (chainEnd_readWords_iff.2 ⟨hchain, rfl⟩)
  · rename_i off hsome
    obtain ⟨hchain, rfl⟩ := chainEnd_readWords_iff.1 hsome
    rw [if_neg (not_not_intro hchain), ← sequenceOf_eq]
    simp only [nonDecreasing_readWords_iff, ne_eq, ite_not]

/-! ### What `SQLOAD` answers (R283) -/

section

variable {k : BitVec 8} {s : State} {img : List Byte} (hk : slotOk k = true) (himg : holdsImage s img)

include hk himg

theorem exec_sqload_of_error {c : Nat} (h : loadImage img = .error c) :
    exec (.sqload k) s = .next (s.setFault .malformed c) := by
  refine (checkForm_of_wf (i := .sqload k) hk ..).trans ((needImage_of himg _).trans ?_)
  rw [h]
  rfl

theorem exec_sqload_of_ok {q : Sequence} (h : loadImage img = .ok q) :
    exec (.sqload k) s = .next (s.setSlot k q) := by
  refine (checkForm_of_wf (i := .sqload k) hk ..).trans ((needImage_of himg _).trans ?_)
  rw [h]

end

/-- Settles O44: the loader's loop and its tests are the checks of the format, and each answer of the loader is one of the
command. -/
theorem loadRunsTheElevenChecks : Obligations.LoadRunsTheElevenChecks := by
  intro k s img hk himg bad n payload
  have hload := loadImage_eq img
  have hbad {c : Nat} (h : loadImage img = .error c) : bad c := exec_sqload_of_error hk himg h
  iterate 8
    split
    · exact hbad (hload.trans (if_pos ‹_›))
    replace hload := hload.trans (if_neg ‹_›)
  refine ⟨fun hchain => hbad (hload.trans (if_pos hchain)), fun hchain => ?_⟩
  replace hload := hload.trans (if_neg (not_not_intro hchain))
  refine ⟨fun hend => hbad (hload.trans (if_pos hend)), fun hend => ?_⟩
  replace hload := hload.trans (if_neg (not_not_intro hend))
  refine ⟨fun hrise => hbad (hload.trans (if_pos hrise)), fun hrise => ?_⟩
  exact exec_sqload_of_ok hk himg (hload.trans (if_neg (not_not_intro hrise)))

/-! ### A saved Sequence is loaded back (R285, R287) -/

section

variable {q : Sequence} (hshape : slotShape q)

include hshape

theorem drop_serialize_of_slotShape : (serialize q).drop (40 + 16 * q.nBlocks.toNat) = q.payload := by
  obtain ⟨-, -, hlasts, hoffsets, -⟩ := hshape
  rw [← drop_serialize q, hlasts, hoffsets]
  congr 1
  omega

theorem length_serialize_of_slotShape :
    (serialize q).length = 40 + 16 * q.nBlocks.toNat + q.payload.length := by
  obtain ⟨-, -, hlasts, hoffsets, -⟩ := hshape
  rw [length_serialize, hlasts, hoffsets]
  omega

theorem readWords_directory_of_slotShape :
    readWords (serialize q) 40 q.nBlocks.toNat = q.blockLast ∧
      readWords (serialize q) (40 + 8 * q.nBlocks.toNat) q.nBlocks.toNat = q.blockOffset := by
  obtain ⟨-, -, hlasts, hoffsets, -⟩ := hshape
  have hread := readWords_serialize_blockOffset q
  rw [hlasts, hoffsets] at hread
  exact ⟨hlasts ▸ readWords_serialize_blockLast q, hread⟩

/-- An image of a Sequence in shape passes the checks, which are the shape and the header's fixed fields. -/
theorem loadImage_serialize (hheader : 40 + 16 * q.nBlocks.toNat < 2 ^ 64) : loadImage (serialize q) = .ok q := by
  have hlen := length_serialize_of_slotShape hshape
  have hpayload := drop_serialize_of_slotShape hshape
  obtain ⟨hlasts, hoffsets⟩ := readWords_directory_of_slotShape hshape
  obtain ⟨hbsz, hblocks, -, -, hrise, hchain⟩ := slotShape_iff.1 hshape
  have hoffset : memRead (serialize q) 32 8 = 40 + 16 * q.nBlocks.toNat :=
    (memRead_serialize_payloadOffset q).trans (Nat.mod_eq_of_lt hheader)
  have hshort : ¬ (serialize q).length < 40 := by omega
  have hcut : ¬ (serialize q).length < 40 + 16 * q.nBlocks.toNat := by omega
  simp [loadImage, hshort, take_serialize, memRead_serialize_version, memRead_serialize_nElem,
    memRead_serialize_blockSize, memRead_serialize_reserved, memRead_serialize_nBlocks, hoffset, Nat.ne_of_gt hbsz,
    hblocks.symm, hcut, hlasts, hoffsets, hpayload, hchain, hrise]

end

theorem loadImage_serialize_seqBuild {vs : List Word} {bsz : BitVec 32} (h : buildable vs bsz) :
    loadImage (serialize (seqBuild vs bsz)) = .ok (seqBuild vs bsz) := by
  refine loadImage_serialize (slotShape_seqBuild h) ?_
  rw [nBlocks_seqBuild h]
  exact headerOffset_seqBuild_lt h

/-- Settles O42: a built Sequence has the shape the loader checks, and its image holds its fields. -/
theorem loadRestoresASavedImage : Obligations.LoadRestoresASavedImage := fun _ _ _ _ hk hbuildable himg =>
  exec_sqload_of_ok hk himg (loadImage_serialize_seqBuild hbuildable)

/-! ### A loaded image is the one saving gives (R287) -/

/-- The structural checks of R284 that fix the bytes of an image outside the fields a Sequence keeps. -/
structure ImageFrame (img : List Byte) : Prop where
  header_le : 40 ≤ img.length
  magic : img.take 4 = magicBytes
  version : memRead img 4 4 = 1
  reserved : memRead img 20 4 = 0
  payloadOffset : memRead img 32 8 = 40 + 16 * memRead img 24 8
  payloadOffset_le : memRead img 32 8 ≤ img.length

open Classical in
theorem imageFrame_of_loadImage {img : List Byte} {q : Sequence} (h : loadImage img = .ok q) :
    ImageFrame img ∧ q = sequenceOf img := by
  rw [loadImage_eq] at h
  dsimp only at h
  obtain ⟨hlen, h⟩ := check_of_ok h
  obtain ⟨hmagic, h⟩ := check_of_ok h
  obtain ⟨hversion, h⟩ := check_of_ok h
  obtain ⟨-, h⟩ := check_of_ok h
  obtain ⟨hreserved, h⟩ := check_of_ok h
  obtain ⟨-, h⟩ := check_of_ok h
  obtain ⟨hoffset, h⟩ := check_of_ok h
  obtain ⟨hend, h⟩ := check_of_ok h
  iterate 3 replace h := ok_of_check h
  exact ⟨⟨Nat.le_of_not_lt hlen, not_not.1 hmagic, not_not.1 hversion, not_not.1 hreserved, not_not.1 hoffset,
    Nat.le_of_not_lt hend⟩, (Except.ok.inj h).symm⟩

section

variable (img : List Byte)

theorem nElem_sequenceOf : (sequenceOf img).nElem.toNat = memRead img 8 8 := toNat_ofNat_memRead ..

theorem blockSize_sequenceOf : (sequenceOf img).blockSize.toNat = memRead img 16 4 := toNat_ofNat_memRead ..

theorem nBlocks_sequenceOf : (sequenceOf img).nBlocks.toNat = memRead img 24 8 := toNat_ofNat_memRead ..

end

section

variable {img : List Byte} (h : ImageFrame img)

include h

theorem payloadOffset_sequenceOf : (metadataOf (sequenceOf img)).payloadOffset.toNat = memRead img 32 8 := by
  rw [metadataOf, nBlocks_sequenceOf, ← h.payloadOffset]
  exact toNat_ofNat_memRead ..

theorem headerBytes_sequenceOf : headerBytes (metadataOf (sequenceOf img)) = (img.drop 0).take 40 := by
  have hlen := h.header_le
  change _ = img.take 40
  rw [headerBytes_metadataOf, payloadOffset_sequenceOf h, nElem_sequenceOf, blockSize_sequenceOf, nBlocks_sequenceOf,
    ← h.magic, ← h.version, ← h.reserved]
  iterate 6 rw [leBytes_memRead (by omega)]
  change (img.drop 0).take 4 ++ _ ++ _ ++ _ ++ _ ++ _ ++ _ = _
  iterate 6 rw [take_drop_append img rfl]
  rfl

theorem serialize_sequenceOf : serialize (sequenceOf img) = img := by
  have hoffset := h.payloadOffset
  have hend := h.payloadOffset_le
  rw [serialize, headerBytes_sequenceOf h, sequenceOf_eq]
  dsimp only
  rw [wordsBytes_readWords (by omega), wordsBytes_readWords (by omega), take_drop_append img (by omega),
    take_drop_append img (by omega), show 40 + 8 * memRead img 24 8 + 8 * memRead img 24 8 = memRead img 32 8 by omega]
  exact List.take_append_drop ..

end

theorem serialize_of_loadImage {img : List Byte} {q : Sequence} (h : loadImage img = .ok q) : serialize q = img := by
  obtain ⟨hframe, rfl⟩ := imageFrame_of_loadImage h
  exact serialize_sequenceOf hframe

/-! ### What `SQSER` answers (R281) -/

theorem exec_sqser {s : State} {k : BitVec 8} {vs : List Word} {bsz : BitVec 32} (hk : slotOk k = true)
    (h : holdsSequence s k vs bsz) :
    exec (.sqser k) s = require (fitsBytes (serialize (seqBuild vs bsz)).length) .bytes
      (.next (s.setBytes (serialize (seqBuild vs bsz)))) :=
  checkForm_needSlot_of_holdsSequence h (i := .sqser k) hk _

theorem holdsImage_setBytes {img : List Byte} (hfit : fitsBytes img.length = true) (s : State) :
    holdsImage (s.setBytes img) img := by
  simp only [fitsBytes, Bool.and_eq_true, decide_eq_true_eq] at hfit
  have hlen : (s.setBytes img).blen.toNat = img.length := Nat.mod_eq_of_lt hfit.1
  rw [holdsImage, hlen]
  exact cellsRun_from 0 img

theorem execAll_pair {i j : Instr} {s t u : State} (hi : exec i s = .next t) (hj : exec j t = .next u)
    (hs : s.err = .noFault) (ht : t.err = .noFault) : execAll [i, j] s = .next u :=
  (execAll_cons hi hs [j]).trans (execAll_cons hj ht [])

/-- Settles O43: the image just stored loads as the Sequence it was made from, and a loaded Sequence keeps every byte of its
image that the checks do not fix. -/
theorem saveAndLoadAreInverse : Obligations.SaveAndLoadAreInverse := by
  refine ⟨fun k j s vs bsz hk hj hrun h hfit => ?_, fun img q hload => serialize_of_loadImage hload⟩
  have hsave := (exec_sqser hk h).trans (require_of hfit ..)
  have hload := exec_sqload_of_ok hj (holdsImage_setBytes hfit s) (loadImage_serialize_seqBuild h.2)
  refine ⟨_, execAll_pair hsave hload hrun ((State.setBytes_err ..).trans hrun), ?_, ?_⟩
  · rw [State.setSlot_err, State.setBytes_err, hrun]
  · rw [State.setSlot_slots, cellsRead_write_same, h.1]

/-! ### The blocks' bytes (R105, R242) -/

/-- What `parse_block` reads at an offset is what lies there; the filler, which it ignores, must be zero (R242). -/
theorem blockLaidOut_parseBlock {payload : List Byte} {o : Nat} (hfiller : (payload.drop (o + 5)).take 3 = [0, 0, 0]) :
    blockLaidOut payload o (parseBlock payload o) := by
  have hlow := lowWords_parseBlock payload o
  refine ⟨(nElem_parseBlock ..).symm, (toNat_ofNat_memRead ..).symm, hfiller, (toNat_ofNat_memRead ..).symm, hlow.symm,
    (highWords_parseBlock ..).symm, (toNat_ofNat_memRead ..).symm, fun j hj => ?_, fun j hj => ?_⟩
  · exact (toNat_getD_readWords (by simpa [parseBlock] using hj) ..).symm
  · rw [hlow]
    exact (toNat_getD_readWords (by simpa [parseBlock] using hj) ..).symm

/-- The filler after `l` is zero (R105). -/
theorem filler_blockBytes (pre : List Byte) (blk : EFBlock) (post : List Byte) :
    ((pre ++ (blockBytes blk ++ post)).drop (pre.length + 5)).take 3 = [0, 0, 0] := by
  rw [List.drop_append, List.drop_eq_nil_of_le (Nat.le_add_right ..), Nat.add_sub_cancel_left]
  rfl

/-- Block `b`'s bytes stand in the payload at `block_offset[b]` (R114). -/
theorem exists_payload_seqBuild_eq {vs : List Word} {bsz : BitVec 32} (h : buildable vs bsz) {b : Nat}
    (hb : b < ceilDiv vs.length bsz.toNat) :
    ∃ pre post, (seqBuild vs bsz).payload = pre ++ (blockBytes (efEncode (blockOf vs bsz.toNat b)) ++ post) ∧
      pre.length = slotOffset (seqBuild vs bsz) b := by
  obtain ⟨-, -, -, hpayload⟩ := h
  have hlen : b < (blockPieces vs bsz).length := by rwa [length_blockPieces]
  have hflatten := flatten_eq_piece (blockPieces vs bsz) hlen
  rw [getElem_blockPieces] at hflatten
  refine ⟨_, _, hflatten, ?_⟩
  rw [slotOffset, blockOffset_seqBuild, getD_offsetsFrom hlen, Nat.zero_add]
  refine (Nat.mod_eq_of_lt (Nat.lt_of_le_of_lt ?_ hpayload)).symm
  rw [payload_seqBuild, hflatten, List.length_append]
  exact Nat.le_add_right ..

theorem blockLaidOut_seqBuild {vs : List Word} {bsz : BitVec 32} (h : buildable vs bsz) {b : Nat}
    (hb : b < ceilDiv vs.length bsz.toNat) :
    blockLaidOut (seqBuild vs bsz).payload (slotOffset (seqBuild vs bsz) b) (efEncode (blockOf vs bsz.toNat b)) := by
  obtain ⟨pre, post, hpayload, hpre⟩ := exists_payload_seqBuild_eq h hb
  rw [← blockAt_seqBuild h hb]
  refine blockLaidOut_parseBlock (o := slotOffset (seqBuild vs bsz) b) ?_
  rw [← hpre, hpayload]
  exact filler_blockBytes ..

/-- Settles O41: each field of the image is read back from where it was stored, and each block is the one parsed at its
offset. -/
theorem saveWritesTheImage : Obligations.SaveWritesTheImage := by
  refine fun k s hk => ⟨exec_of_emptySlot (i := .sqser k) hk rfl, fun vs bsz h => ?_⟩
  intro q n img
  have hshape : slotShape q := slotShape_seqBuild h.2
  have hn : n = ceilDiv vs.length bsz.toNat := nBlocks_seqBuild h.2
  have hheader : 40 + 16 * n < 2 ^ 64 := hn ▸ headerOffset_seqBuild_lt h.2
  obtain ⟨hlasts, hoffsets⟩ := readWords_directory_of_slotShape hshape
  refine ⟨fun hfit => (exec_sqser hk h).trans (require_of hfit ..), fun hfit => ?_, take_serialize q,
    memRead_serialize_version q, (memRead_serialize_nElem q).trans (nElem_seqBuild h.2), memRead_serialize_blockSize q,
    memRead_serialize_reserved q, memRead_serialize_nBlocks q,
    (memRead_serialize_payloadOffset q).trans (Nat.mod_eq_of_lt hheader), fun b hb => ⟨?_, ?_⟩,
    drop_serialize_of_slotShape hshape, length_serialize_of_slotShape hshape,
    fun b hb => blockLaidOut_seqBuild h.2 (hn ▸ hb)⟩
  · rw [exec_sqser hk h, hfit, require_false]
  · rw [← hlasts]
    exact (toNat_getD_readWords hb ..).symm
  · rw [← hoffsets]
    exact (toNat_getD_readWords hb ..).symm

end Sys2Proof.Safety

namespace Sys2Proof.Machine

open Sys2Proof.Safety

/-! ### The two-pointer intersection (R303) -/

@[simp] theorem intersectValues_nil (xs : List Word) : intersectValues xs [] = [] := by
  cases xs <;> rfl

theorem intersectValues_cons_cons (x y : Word) (xs ys : List Word) :
    intersectValues (x :: xs) (y :: ys) =
      if x.toNat < y.toNat then intersectValues xs (y :: ys)
      else if x.toNat > y.toNat then intersectValues (x :: xs) ys
      else x :: intersectValues xs ys := rfl

theorem min_count_cons_of_notMem {x : Word} {ys : List Word} (hx : x ∉ ys) (xs : List Word) (v : Word) :
    min ((x :: xs).count v) (ys.count v) = min (xs.count v) (ys.count v) := by
  obtain rfl | hne := eq_or_ne x v
  · rw [List.count_eq_zero_of_not_mem hx, Nat.min_zero, Nat.min_zero]
  · rw [List.count_cons_of_ne hne]

theorem notMem_of_lt_head {x y : Word} {ys : List Word} (hrise : nonDecreasing (y :: ys) = true)
    (hlt : x.toNat < y.toNat) : x ∉ y :: ys := fun hx =>
  absurd (headD_le_of_mem hrise hx) (Nat.not_le_of_lt hlt)

/-- The pointer that moves leaves a value which the other input holds no more; a match takes one of each (R303). -/
theorem count_intersectValues {xs ys : List Word} (hxs : nonDecreasing xs = true) (hys : nonDecreasing ys = true)
    (v : Word) : (intersectValues xs ys).count v = min (xs.count v) (ys.count v) := by
  induction xs generalizing ys with
  | nil => simp [intersectValues]
  | cons x xs ihx =>
    have hxs' := nonDecreasing_of_sublist (List.sublist_cons_self x xs) hxs
    induction ys with
    | nil => simp
    | cons y ys ihy =>
      have hys' := nonDecreasing_of_sublist (List.sublist_cons_self y ys) hys
      rw [intersectValues_cons_cons]
      split
      · rw [ihx hxs' hys, min_count_cons_of_notMem (notMem_of_lt_head hys ‹_›)]
      · split
        · rw [ihy hys', Nat.min_comm, ← min_count_cons_of_notMem (notMem_of_lt_head hxs ‹_›), Nat.min_comm]
        · obtain rfl : x = y := BitVec.eq_of_toNat_eq (by omega)
          rw [List.count_cons, List.count_cons, List.count_cons, ihx hxs' hys', Nat.add_min_add_right]

/-! ### The merge and its union (R306) -/

/-- The loop of R306 is the library's merge. -/
theorem mergeValues_eq_merge (xs ys : List Word) :
    mergeValues xs ys = xs.merge ys fun x y => decide (x.toNat ≤ y.toNat) := by
  induction xs generalizing ys with
  | nil => simp [mergeValues]
  | cons x xs ihx =>
    rw [mergeValues]
    induction ys with
    | nil => simp [mergeAt, ihx]
    | cons y ys ihy => simp [mergeAt, List.cons_merge_cons, ihx, ihy]

theorem nonDecreasing_mergeValues {xs ys : List Word} (hxs : nonDecreasing xs = true) (hys : nonDecreasing ys = true) :
    nonDecreasing (mergeValues xs ys) = true := by
  rw [nonDecreasing_iff_pairwise] at *
  rw [mergeValues_eq_merge]
  simpa using List.pairwise_merge (le := fun x y : Word => decide (x.toNat ≤ y.toNat))
    (by simp; omega) (by simp; omega) xs ys (by simpa using hxs) (by simpa using hys)

/-- A value that is dropped has just been emitted. -/
theorem mem_emitRising_iff {u v : Word} {vs : List Word} (hrise : nonDecreasing (u :: vs) = true) :
    v ∈ u :: emitRising (some u) vs ↔ v ∈ u :: vs := by
  induction vs generalizing u with
  | nil => rfl
  | cons w vs ih =>
    have hrise' := nonDecreasing_of_sublist (List.sublist_cons_self u (w :: vs)) hrise
    rw [emitRising]
    split
    · rw [List.mem_cons, ih hrise', ← List.mem_cons]
    · have hle : u.toNat ≤ w.toNat := headD_le_of_mem hrise (List.mem_cons_of_mem u List.mem_cons_self)
      obtain rfl : u = w := BitVec.eq_of_toNat_eq (by omega)
      rw [ih hrise', List.mem_cons (l := u :: vs), or_iff_right_of_imp fun h => h ▸ List.mem_cons_self]

theorem mem_unionValues_iff {xs ys : List Word} (hxs : nonDecreasing xs = true) (hys : nonDecreasing ys = true) (v : Word) :
    v ∈ unionValues xs ys ↔ v ∈ xs ∨ v ∈ ys := by
  have hmem : v ∈ mergeValues xs ys ↔ v ∈ xs ∨ v ∈ ys := by rw [mergeValues_eq_merge, List.mem_merge]
  have hrise := nonDecreasing_mergeValues hxs hys
  rw [← hmem, unionValues]
  cases hmerge : mergeValues xs ys with
  | nil => rfl
  | cons u us => exact mem_emitRising_iff (hmerge ▸ hrise)

/-! ### What the set commands answer on built slots (R302, R305) -/

/-- A command that reads two slots faults on an empty second one as on an empty first one. -/
theorem exec_of_emptySlot_second {i : Instr} {s : State} {j k : BitVec 8} {vs : List Word} {bsz : BitVec 32}
    (hi : i.wf = true) (hread : slotReads i = [j, k]) (h : holdsSequence s j vs bsz) (hempty : emptySlot s k) :
    exec i s = .next (s.setFault .illegal 5) := by
  obtain ⟨use, hexec⟩ := exists_exec_eq_needSlot_needSlot hi hread (s := s)
  rw [hexec, needSlot_of_holdsSequence h, needSlot_of_emptySlot hempty]

section

variable {d l r : BitVec 8} {s : State} {xs ys : List Word} {bx bsz : BitVec 32} (hd : slotOk d = true)
  (hl : slotOk l = true) (hr : slotOk r = true)

include hd hl hr

theorem slotOk_three : (slotOk d && slotOk l && slotOk r) = true := by
  simp [hd, hl, hr]

variable (hx : holdsSequence s l xs bx) (hy : holdsSequence s r ys bsz)

include hx hy

/-- On built slots `SQAND` is the store of the intersection. -/
theorem exec_sqand : exec (.sqand d l r) s = storeSequence d (intersectValues xs ys) bx s := by
  refine (checkForm_needSlot_of_holdsSequence hx (i := .sqand d l r) (slotOk_three hd hl hr) _).trans ?_
  rw [needSlot_of_holdsSequence hy, seqDecode_seqBuild hx.2, seqDecode_seqBuild hy.2]
  rfl

/-- On built slots `SQOR` is the store of the union. -/
theorem exec_sqor : exec (.sqor d l r) s = storeSequence d (unionValues xs ys) bx s := by
  refine (checkForm_needSlot_of_holdsSequence hx (i := .sqor d l r) (slotOk_three hd hl hr) _).trans ?_
  rw [needSlot_of_holdsSequence hy, seqDecode_seqBuild hx.2, seqDecode_seqBuild hy.2]
  rfl

end

theorem storeSequence_of_sequenceFits {vs : List Word} {bsz : BitVec 32} (h : sequenceFits vs bsz) (k : BitVec 8)
    (s : State) : storeSequence k vs bsz s = .next (s.setSlot k (seqBuild vs bsz)) := by
  obtain ⟨hlen, hpayload, hblocks⟩ := h
  exact storeSequence_of hlen hpayload hblocks k s

end Sys2Proof.Machine

namespace Sys2Proof.Safety

open Sys2Proof.Machine

/-- Settles O45: the intersection is part of the left operand, with the counts of the two-pointer loop, and the capacity tests
stand at the store of the slot. -/
theorem intersectionIsTheMultisetIntersection : Obligations.IntersectionIsTheMultisetIntersection := by
  refine fun d l r s hd hl hr => ⟨exec_of_emptySlot (i := .sqand d l r) (slotOk_three hd hl hr) rfl,
    fun xs bx hx => ⟨exec_of_emptySlot_second (i := .sqand d l r) (slotOk_three hd hl hr) rfl hx, fun ys bsz hy => ?_⟩⟩
  rw [exec_sqand hd hl hr hx hy]
  obtain ⟨-, hrisex, -⟩ := hx
  obtain ⟨-, hrisey, -⟩ := hy
  exact ⟨nonDecreasing_of_sublist (intersectValues_sublist xs ys) hrisex, count_intersectValues hrisex hrisey,
    fun hfit => storeSequence_of_sequenceFits hfit d s, fun hfit => storeSequence_of_not_sequenceFits hfit d s⟩

/-- Settles O46: the merge holds the values of both inputs in order, only repeats are dropped from it, and the capacity tests
stand at the store of the slot. -/
theorem unionIsTheSetUnion : Obligations.UnionIsTheSetUnion := by
  refine fun d l r s hd hl hr => ⟨exec_of_emptySlot (i := .sqor d l r) (slotOk_three hd hl hr) rfl,
    fun xs bx hx => ⟨exec_of_emptySlot_second (i := .sqor d l r) (slotOk_three hd hl hr) rfl hx, fun ys bsz hy => ?_⟩⟩
  rw [exec_sqor hd hl hr hx hy]
  obtain ⟨-, hrisex, -⟩ := hx
  obtain ⟨-, hrisey, -⟩ := hy
  exact ⟨pairwise_unionValues xs ys, mem_unionValues_iff hrisex hrisey,
    fun hfit => storeSequence_of_sequenceFits hfit d s, fun hfit => storeSequence_of_not_sequenceFits hfit d s⟩

end Sys2Proof.Safety

namespace Sys2Proof.Machine

open Sys2Proof.Safety

/-! ### The block-at-a-time schedule (R304) -/

/-- Values of the left input below every value of the right one add nothing. -/
theorem intersectValues_append_left {us ys : List Word} (hbelow : ∀ u ∈ us, ∀ w ∈ ys, u.toNat < w.toNat)
    (xs : List Word) : intersectValues (us ++ xs) ys = intersectValues xs ys := by
  induction us with
  | nil => rfl
  | cons u us ih =>
    cases ys with
    | nil => rw [intersectValues_nil, intersectValues_nil]
    | cons y ys =>
      rw [List.cons_append, intersectValues_cons_cons, if_pos (hbelow u List.mem_cons_self y List.mem_cons_self),
        ih fun v hv => hbelow v (List.mem_cons_of_mem u hv)]

/-- Values of the right input below every value of the left one add nothing. -/
theorem intersectValues_append_right {xs us : List Word} (hbelow : ∀ u ∈ us, ∀ w ∈ xs, u.toNat < w.toNat)
    (ys : List Word) : intersectValues xs (us ++ ys) = intersectValues xs ys := by
  induction us with
  | nil => rfl
  | cons u us ih =>
    cases xs with
    | nil => rfl
    | cons x xs =>
      have hlt := hbelow u List.mem_cons_self x List.mem_cons_self
      rw [List.cons_append, intersectValues_cons_cons, if_neg (Nat.not_lt_of_lt hlt), if_pos hlt,
        ih fun v hv => hbelow v (List.mem_cons_of_mem u hv)]

section

variable {p q : Sequence} {i j : Nat} (fuel : Nat)

theorem intersectSchedule_of_end (h : ¬(i < p.nBlocks.toNat ∧ j < q.nBlocks.toNat)) (bufP bufQ : Option (List Word)) :
    intersectSchedule p q (fuel + 1) i j bufP bufQ = [] := if_neg h

variable (h : i < p.nBlocks.toNat ∧ j < q.nBlocks.toNat)

include h

theorem intersectSchedule_closed_left (bufQ : Option (List Word)) :
    intersectSchedule p q (fuel + 1) i j none bufQ =
      if (p.blockLast.getD i 0).toNat < (blockAt q j).floor.toNat then intersectSchedule p q fuel (i + 1) j none bufQ
      else intersectSchedule p q fuel i j (some (efDecode (blockAt p i))) bufQ := if_pos h

theorem intersectSchedule_closed_right (us : List Word) :
    intersectSchedule p q (fuel + 1) i j (some us) none =
      if (q.blockLast.getD j 0).toNat < (blockAt p i).floor.toNat then
        intersectSchedule p q fuel i (j + 1) (some us) none
      else intersectSchedule p q fuel i j (some us) (some (efDecode (blockAt q j))) := if_pos h

theorem intersectSchedule_opened (u w : Word) (us ws : List Word) :
    intersectSchedule p q (fuel + 1) i j (some (u :: us)) (some (w :: ws)) =
      if u.toNat < w.toNat then intersectSchedule p q fuel (stepBlock us i) j (restOf us) (some (w :: ws))
      else if u.toNat > w.toNat then intersectSchedule p q fuel i (stepBlock ws j) (some (u :: us)) (restOf ws)
      else u :: intersectSchedule p q fuel (stepBlock us i) (stepBlock ws j) (restOf us) (restOf ws) := if_pos h

end

/-- The schedule at block `b` of an input, with `buf` left of the block where it is open, has the values `unread` before it. -/
inductive Unread (vs : List Word) (size b : Nat) : (buf : Option (List Word)) → (unread : List Word) → Prop
  | closed : Unread vs size b none (vs.drop (b * size))
  | opened {u : Word} {us : List Word} (h : u :: (us ++ vs.drop ((b + 1) * size)) <:+ vs.drop (b * size)) :
    Unread vs size b (some (u :: us)) (u :: (us ++ vs.drop ((b + 1) * size)))

/-- A bound on the turns that an input costs the schedule: one for each block not yet opened, one for each unread value. -/
def turnsLeft (vs : List Word) (size b : Nat) : (buf : Option (List Word)) → (unread : List Word) → Nat
  | none, unread => ceilDiv vs.length size - b + unread.length
  | some _, unread => ceilDiv vs.length size - (b + 1) + unread.length

theorem blockOf_append_drop (vs : List Word) (size b : Nat) :
    blockOf vs size b ++ vs.drop ((b + 1) * size) = vs.drop (b * size) := by
  rw [blockOf, Nat.succ_mul, ← List.drop_drop, List.take_append_drop]

section

variable {vs unread : List Word} {size b : Nat} {buf : Option (List Word)}

theorem Unread.start : Unread vs size 0 none vs := by
  simpa using Unread.closed (vs := vs) (size := size) (b := 0)

theorem Unread.suffix (h : Unread vs size b buf unread) : unread <:+ vs.drop (b * size) := by
  cases h with
  | closed => exact List.suffix_rfl
  | opened h => exact h

theorem Unread.eq_nil (h : Unread vs size b buf unread) (hsize : 1 ≤ size) (hb : ceilDiv vs.length size ≤ b) :
    unread = [] := by
  have hsuffix := h.suffix
  rwa [List.drop_eq_nil_of_le ((ceilDiv_le_iff hsize).1 hb), List.suffix_nil] at hsuffix

/-- Nothing unread lies below the current block's first value. -/
theorem Unread.floor_le (h : Unread vs size b buf unread) (hrise : nonDecreasing vs = true) (hsize : 1 ≤ size) {w : Word}
    (hw : w ∈ unread) : ((blockOf vs size b).headD 0).toNat ≤ w.toNat := by
  have hmem := h.suffix.subset hw
  have hhead : (blockOf vs size b).headD 0 = (vs.drop (b * size)).headD 0 := by
    rw [blockOf, List.headD_eq_head?_getD, List.head?_take, if_neg (Nat.one_le_iff_ne_zero.1 hsize),
      List.headD_eq_head?_getD]
  rw [hhead]
  exact headD_le_of_mem (nonDecreasing_of_sublist (List.drop_sublist ..) hrise) hmem

/-- Opening a block reads nothing. -/
theorem Unread.openBlock (hsize : 1 ≤ size) (hb : b < ceilDiv vs.length size) :
    Unread vs size b (some (blockOf vs size b)) (vs.drop (b * size)) := by
  obtain ⟨-, hmin, -⟩ := length_blockOf hsize hb
  obtain ⟨u, us, hblock⟩ := List.exists_cons_of_length_pos hmin
  have hsplit := blockOf_append_drop vs size b
  rw [hblock, List.cons_append] at hsplit
  rw [hblock, ← hsplit]
  exact .opened (hsplit ▸ List.suffix_rfl)

/-- Taking a value leaves the others, and closes a block that has no more (R304). -/
theorem Unread.take {u : Word} {us : List Word}
    (h : u :: (us ++ vs.drop ((b + 1) * size)) <:+ vs.drop (b * size)) :
    Unread vs size (stepBlock us b) (restOf us) (us ++ vs.drop ((b + 1) * size)) := by
  cases us with
  | nil => exact .closed
  | cons w us => exact .opened ((List.suffix_cons ..).trans h)

theorem turnsLeft_openBlock (hb : b < ceilDiv vs.length size) {us : List Word} :
    turnsLeft vs size b (some us) unread < turnsLeft vs size b none unread := by
  rw [turnsLeft, turnsLeft]
  omega

theorem turnsLeft_prune (hb : b < ceilDiv vs.length size) :
    turnsLeft vs size (b + 1) none (vs.drop ((b + 1) * size)) < turnsLeft vs size b none (vs.drop (b * size)) := by
  rw [turnsLeft, turnsLeft, List.length_drop, List.length_drop, Nat.succ_mul]
  omega

theorem turnsLeft_take {u : Word} {us : List Word} :
    turnsLeft vs size (stepBlock us b) (restOf us) unread < turnsLeft vs size b (some (u :: us)) (u :: unread) := by
  cases us with
  | nil | cons => exact Nat.lt_succ_self _

end

/-- The pruning test: a block that ends below the first value of the other input's block lies below all that is unread there. -/
theorem lt_of_blockLast_lt_floor {vs ws unread : List Word} {bv bw : BitVec 32} (hv : buildable vs bv)
    (hw : buildable ws bw) {i j : Nat} {buf : Option (List Word)} (hi : i < ceilDiv vs.length bv.toNat)
    (hj : j < ceilDiv ws.length bw.toNat) (hunread : Unread ws bw.toNat j buf unread)
    (htest : ((seqBuild vs bv).blockLast.getD i 0).toNat < (blockAt (seqBuild ws bw) j).floor.toNat) :
    ∀ v ∈ blockOf vs bv.toNat i, ∀ w ∈ unread, v.toNat < w.toNat := by
  intro v hmem w hmem'
  rw [blockLast_seqBuild hi, blockAt_seqBuild hw hj, floor_efEncode] at htest
  obtain ⟨hrisev, -⟩ := hv
  obtain ⟨hrisew, hsize, -⟩ := hw
  calc
    v.toNat ≤ ((blockOf vs bv.toNat i).getLastD 0).toNat :=
      le_getLastD_of_mem (nonDecreasing_of_sublist (blockOf_sublist ..) hrisev) hmem
    _ < ((blockOf ws bw.toNat j).headD 0).toNat := htest
    _ ≤ w.toNat := hunread.floor_le hrisew hsize hmem'

section

variable {xs ys : List Word} {bx bsz : BitVec 32} (hx : buildable xs bx) (hy : buildable ys bsz)

include hx hy

/-- With fuel for every turn left, the schedule returns the intersection of what is unread. -/
theorem intersectSchedule_eq {fuel i j : Nat} {bufP bufQ : Option (List Word)} {us ws : List Word}
    (hp : Unread xs bx.toNat i bufP us) (hq : Unread ys bsz.toNat j bufQ ws)
    (hfuel : turnsLeft xs bx.toNat i bufP us + turnsLeft ys bsz.toNat j bufQ ws < fuel) :
    intersectSchedule (seqBuild xs bx) (seqBuild ys bsz) fuel i j bufP bufQ = intersectValues us ws := by
  have ⟨_, hbx, _⟩ := hx
  have ⟨_, hbsz, _⟩ := hy
  induction fuel generalizing i j bufP bufQ us ws with
  | zero => exact absurd hfuel (Nat.not_lt_zero _)
  | succ fuel ih =>
    have hfuel := Nat.le_of_lt_succ hfuel
    by_cases hblocks : i < (seqBuild xs bx).nBlocks.toNat ∧ j < (seqBuild ys bsz).nBlocks.toNat
    · have ⟨hi, hj⟩ := hblocks
      rw [nBlocks_seqBuild hx] at hi
      rw [nBlocks_seqBuild hy] at hj
      cases hp with
      | closed =>
        rw [intersectSchedule_closed_left fuel hblocks]
        split
        · rw [ih .closed hq ((Nat.add_lt_add_right (turnsLeft_prune hi) _).trans_le hfuel),
            ← blockOf_append_drop xs bx.toNat i,
            intersectValues_append_left (lt_of_blockLast_lt_floor hx hy hi hj hq ‹_›)]
        · rw [efDecode_blockAt_seqBuild hx hi,
            ih (.openBlock hbx hi) hq ((Nat.add_lt_add_right (turnsLeft_openBlock hi) _).trans_le hfuel)]
      | opened hsuffix =>
        have hp := Unread.opened hsuffix
        cases hq with
        | closed =>
          rw [intersectSchedule_closed_right fuel hblocks]
          split
          · rw [ih hp .closed ((Nat.add_lt_add_left (turnsLeft_prune hj) _).trans_le hfuel),
              ← blockOf_append_drop ys bsz.toNat j,
              intersectValues_append_right (lt_of_blockLast_lt_floor hy hx hj hi hp ‹_›)]
          · rw [efDecode_blockAt_seqBuild hy hj,
              ih hp (.openBlock hbsz hj) ((Nat.add_lt_add_left (turnsLeft_openBlock hj) _).trans_le hfuel)]
        | opened hsuffix' =>
          have hq := Unread.opened hsuffix'
          rw [intersectSchedule_opened fuel hblocks, intersectValues_cons_cons]
          split
          · exact ih (.take hsuffix) hq ((Nat.add_lt_add_right turnsLeft_take _).trans_le hfuel)
          · split
            · exact ih hp (.take hsuffix') ((Nat.add_lt_add_left turnsLeft_take _).trans_le hfuel)
            · rw [ih (.take hsuffix) (.take hsuffix') ((Nat.add_lt_add turnsLeft_take turnsLeft_take).trans_le hfuel)]
    · rw [intersectSchedule_of_end fuel hblocks]
      rw [nBlocks_seqBuild hx, nBlocks_seqBuild hy, not_and_or, Nat.not_lt, Nat.not_lt] at hblocks
      obtain hi | hj := hblocks
      · rw [hp.eq_nil hbx hi]
        rfl
      · rw [hq.eq_nil hbsz hj, intersectValues_nil]

end

end Sys2Proof.Machine

namespace Sys2Proof.Safety

open Sys2Proof.Machine

/-- Settles O47: at its start the schedule has every value of both inputs unread, and fuel for a turn per block and value. -/
theorem blockScheduleRefinesIntersection : Obligations.BlockScheduleRefinesIntersection := by
  intro xs ys bx bsz hx hy
  refine intersectSchedule_eq hx hy .start .start ?_
  rw [nBlocks_seqBuild hx, nBlocks_seqBuild hy, nElem_seqBuild hx, nElem_seqBuild hy, turnsLeft, turnsLeft]
  omega

end Sys2Proof.Safety

namespace Sys2Proof.Machine

open Sys2Proof.Safety

/-! ### Which faults a command can raise (R326) -/

/-- A next state that `o` answers from `s` either leaves `ERR` and `EINFO` as they were or is the state of a fault listed in
`fs`. -/
def FaultsWithin (fs : List (ErrKind × Nat)) (s : State) (o : Out) : Prop :=
  ∀ t, o = .next t → (t.err = s.err ∧ t.einfo = s.einfo) ∨ ∃ f ∈ fs, t = s.setFault f.1 f.2

namespace FaultsWithin

section

variable {fs : List (ErrKind × Nat)} {s t : State} {go : Out}

theorem raise {kind : ErrKind} {info : Nat} (h : (kind, info) ∈ fs := by simp [mayRaise]) :
    FaultsWithin fs s (raise kind info s) := fun _ ht => .inr ⟨_, h, ((raise_eq_next ..).1 ht).symm⟩

theorem next (herr : t.err = s.err) (hinfo : t.einfo = s.einfo) : FaultsWithin fs s (.next t) := by
  rintro _ ⟨⟩
  exact .inl ⟨herr, hinfo⟩

theorem refused (r : Refusal) : FaultsWithin fs s (.refused r) := nofun

theorem require {fits : Bool} {c : Capacity} (h : FaultsWithin fs s go) : FaultsWithin fs s (require fits c go) :=
  fun t ht => h t (require_next ht).2

theorem checkForm {i : Instr} (hi : i.wf = true) (h : FaultsWithin fs s go) : FaultsWithin fs s (checkForm i s go) := by
  rwa [checkForm_of_wf hi]

theorem ite {c : Prop} [Decidable c] {o : Out} (hgo : FaultsWithin fs s go) (ho : FaultsWithin fs s o) :
    FaultsWithin fs s (if c then go else o) := by
  split
  · exact hgo
  · exact ho

theorem needSlot {k : BitVec 8} {use : Sequence → Out} (huse : ∀ q, FaultsWithin fs s (use q))
    (h : (.illegal, 5) ∈ fs := by simp [mayRaise]) : FaultsWithin fs s (needSlot k s use) := by
  intro t ht
  obtain ⟨-, rfl⟩ | ⟨q, -, -, ht⟩ := needSlot_next ht
  · exact .inr ⟨_, h, rfl⟩
  · exact huse q t ht

theorem needBlock {use : EFBlock → Out} (huse : ∀ blk, FaultsWithin fs s (use blk))
    (h : (.illegal, 5) ∈ fs := by simp [mayRaise]) : FaultsWithin fs s (needBlock s use) := by
  intro t ht
  obtain ⟨-, rfl⟩ | ⟨blk, -, -, ht⟩ := needBlock_next ht
  · exact .inr ⟨_, h, rfl⟩
  · exact huse blk t ht

theorem needSource {src : BitVec 2} {use : List Word → Out} (huse : ∀ ws, FaultsWithin fs s (use ws))
    (h : (.illegal, 5) ∈ fs := by simp [mayRaise]) : FaultsWithin fs s (needSource src s use) := by
  intro t ht
  obtain ⟨-, ht⟩ | ⟨-, -, rfl⟩ | ⟨blk, -, -, ht⟩ := needSource_next ht
  · exact huse _ t ht
  · exact .inr ⟨_, h, rfl⟩
  · exact huse _ t ht

theorem needRun {use : List Word → Out} (huse : ∀ vs, FaultsWithin fs s (use vs)) :
    FaultsWithin fs s (needRun s use) := fun t ht =>
  have ⟨vs, _, hvs⟩ := needRun_next ht
  huse vs t hvs

theorem needImage {use : List Byte → Out} (huse : ∀ img, FaultsWithin fs s (use img)) :
    FaultsWithin fs s (needImage s use) := fun t ht =>
  have ⟨img, _, himg⟩ := needImage_next ht
  huse img t himg

theorem storeValues (vs : List Word) : FaultsWithin fs s (storeValues vs s) := require (next rfl rfl)

theorem storeBlock (blk : EFBlock) : FaultsWithin fs s (storeBlock blk s) := require (next rfl rfl)

theorem storeSequence (k : BitVec 8) (vs : List Word) (bsz : BitVec 32) :
    FaultsWithin fs s (storeSequence k vs bsz s) := require (require (next rfl rfl))

end

end FaultsWithin

/-- A check of R284 that does not answer the error passes on to the next. -/
theorem error_of_check {c : Prop} [Decidable c] {n m : Nat} {go : Except Nat Sequence}
    (h : (if c then .error n else go) = .error m) : m = n ∨ go = .error m := by
  split at h
  · exact .inl (Except.error.inj h).symm
  · exact .inr h

/-- The loader's errors are the numbers of the eleven checks (R284, R323). -/
theorem malformed_mem_mayRaise {img : List Byte} {c : Nat} (h : loadImage img = .error c) (k : BitVec 8) :
    (.malformed, c) ∈ mayRaise (.sqload k) := by
  classical
  rw [loadImage_eq] at h
  dsimp only at h
  iterate 11
    obtain rfl | h := error_of_check h
    · simp [mayRaise]
  cases h

/-- What a listed fault writes is no `noFault`, and its sub-cause is a u64. -/
theorem fault_of_mem_mayRaise {i : Instr} {f : ErrKind × Nat} (h : f ∈ mayRaise i) :
    f.1 ≠ .noFault ∧ f.2 < 2 ^ 64 := by
  revert f
  cases i <;> simp [mayRaise]

/-- A well-formed command's faults are those its row of R326 lists. -/
theorem exec_faultsWithin {i : Instr} (hi : i.wf = true) (s : State) : FaultsWithin (mayRaise i) s (exec i s) := by
  cases i with
  | wclr | scan => exact .next rfl rfl
  | put => exact .checkForm hi (.require (.next rfl rfl))
  | flush => exact .require (.next rfl rfl)
  | rbind => exact .checkForm hi (.needSource fun _ => .next rfl rfl)
  | get => exact .checkForm hi (.ite .raise (.next rfl rfl))
  | flog2 x =>
    rw [exec, execFlog2]
    split
    · exact .raise
    · exact .next rfl rfl
  | ctz x =>
    rw [exec, execCtz]
    split
    · exact .raise
    · exact .next rfl rfl
  | cdiv => exact .ite .raise (.ite .raise (.next rfl rfl))
  | next1 => exact .next (State.setFound_err ..) (State.setFound_einfo ..)
  | efenc => exact .ite .raise (.ite .raise (.needRun fun _ => .ite (.storeBlock _) .raise))
  | efdec => exact .needBlock fun _ => .storeValues _
  | efhas => exact .needBlock fun _ => .next rfl rfl
  | efat r =>
    refine .needBlock fun _ => .ite .raise ?_
    split
    · exact .next rfl rfl
    · exact .refused _
  | sqbuild => exact .checkForm hi (.ite .raise (.needRun fun _ => .ite (.storeSequence _ _ _) .raise))
  | sqlen | sqbsz | sqnblk | sqhas => exact .checkForm hi (.needSlot fun _ => .next rfl rfl)
  | sqdec => exact .checkForm hi (.needSlot fun _ => .storeValues _)
  | sqser => exact .checkForm hi (.needSlot fun _ => .require (.next rfl rfl))
  | sqdecb => exact .checkForm hi (.needSlot fun _ => .ite .raise (.storeValues _))
  | sqldb => exact .checkForm hi (.needSlot fun _ => .ite .raise (.storeBlock _))
  | sqget =>
    refine .checkForm hi (.needSlot fun _ => .ite .raise ?_)
    split
    · exact .next rfl rfl
    · exact .refused _
  | sqload k =>
    refine .checkForm hi (.needImage fun img => ?_)
    split
    · exact .raise (malformed_mem_mayRaise ‹_› k)
    · exact .next rfl rfl
  | sqand | sqor => exact .checkForm hi (.needSlot fun _ => .needSlot fun _ => .storeSequence _ _ _)

/-- A command that answers a next state has left `ERR` and `EINFO` alone, or has faulted. -/
theorem exec_fault_registers {i : Instr} {s t : State} (h : exec i s = .next t) :
    (t.err = s.err ∧ t.einfo = s.einfo) ∨ Faulted s t := by
  obtain hfault | hi := wf_of_exec_next h
  · exact .inr hfault
  · obtain hkept | ⟨f, hf, rfl⟩ := exec_faultsWithin hi s t h
    · exact .inl hkept
    · exact .inr ⟨f.1, f.2, (fault_of_mem_mayRaise hf).1, rfl⟩

/-- A fault writes `ERR` and `EINFO` and nothing else (R330). -/
theorem Faulted.eq_faulted {s t : State} (h : Faulted s t) : t.err ≠ .noFault ∧ t = faulted s t.err t.einfo := by
  obtain ⟨kind, info, hkind, rfl⟩ := h
  exact ⟨hkind, rfl⟩

/-! ### Steps of a halted core (R331, R337) -/

section

variable {s t : State}

theorem step_of_port {m : PortMove} {moves : List PortMove} (h : s.port = m :: moves) :
    step s = perform m (s.setPort moves) := by
  rw [step, h]

theorem hostWrite_of_halted (h : s.err ≠ .noFault) (go : Out) : hostWrite s go = .refused .hostWriteHalted :=
  if_pos h

/-- Reset keeps the moves that are left, whatever the state it ends. -/
theorem step_of_reset {moves : List PortMove} (h : s.port = .reset :: moves) :
    step s = .next (State.reset.setPort moves) := step_of_port h

theorem run_succ_of_step (h : step s = .next t) (n : Nat) : core.run (n + 1) s = core.run n t := by
  simp only [Host.Core.run, core, h]

section

variable (hs : s.err ≠ .noFault)

include hs

/-- A halted core drops a presented command. -/
theorem step_of_halted_command {c : CommandWord} {moves : List PortMove} (h : s.port = .command c :: moves) :
    step s = .next (s.setPort moves) := (step_of_command h).trans (if_pos hs)

/-- A halted core drops presented commands one after another. -/
theorem run_of_halted_commands (cs : List CommandWord) :
    core.run cs.length (s.setPort (cs.map .command)) = .next (s.setPort []) := by
  induction cs with
  | nil => rfl
  | cons c cs ih =>
    have hstep : step (s.setPort (.command c :: cs.map .command)) = .next (s.setPort (cs.map .command)) :=
      step_of_halted_command (s := s.setPort (.command c :: cs.map .command)) hs rfl
    exact (run_succ_of_step hstep cs.length).trans ih

/-- A step of a halted core takes a move from the port and does no more, or it is a reset: host writes are refused. -/
theorem step_next_of_halted (h : step s = .next t) :
    t = s.setPort s.port.tail ∨ ∃ moves, s.port = .reset :: moves ∧ t = State.reset.setPort moves := by
  obtain ⟨hport, rfl⟩ | ⟨m, moves, hport, hm⟩ := step_next h
  · refine .inl ?_
    rw [hport, List.tail_nil, ← hport, State.setPort_self]
  cases m with
  | command c =>
    refine .inl ?_
    rw [hport]
    exact Host.Outcome.next.inj (h.symm.trans (step_of_halted_command hs hport))
  | writeValue | writeVlen | writeByte | writeBlen => exact absurd (hostWrite_next hm).1 hs
  | reset => exact .inr ⟨moves, hport, Host.Outcome.next.inj (h.symm.trans (step_of_reset hport))⟩

end

end

/-! ### The host's writes (R337) -/

/-- Dropping the cells at and above a length leaves those below it as they were, in any order they are listed. -/
theorem cellsRead_below {α : Type} (m : Cells α) (n a : Nat) :
    cellsRead (cellsBelow m n) a = if a < n then cellsRead m a else none := by
  induction m with
  | nil => simp [cellsBelow]
  | cons c m ih =>
    obtain ⟨k, v⟩ := c
    by_cases hk : k < n
    · have hbelow : cellsBelow ((k, v) :: m) n = (k, v) :: cellsBelow m n := by simp [cellsBelow, hk]
      rw [hbelow, cellsRead, cellsRead, ih]
      grind
    · have hbelow : cellsBelow ((k, v) :: m) n = cellsBelow m n := by simp [cellsBelow, hk]
      rw [hbelow, cellsRead, ih]
      grind

theorem cellsRead_below_of_lt {α : Type} (m : Cells α) {n a : Nat} (h : a < n) :
    cellsRead (cellsBelow m n) a = cellsRead m a := (cellsRead_below m n a).trans (if_pos h)

theorem cellsRead_below_of_le {α : Type} (m : Cells α) {n a : Nat} (h : n ≤ a) : cellsRead (cellsBelow m n) a = none :=
  (cellsRead_below m n a).trans (if_neg (Nat.not_lt_of_le h))

section

variable {s : State} (hrun : s.err = .noFault) {fits : Bool} (c : Capacity) (go : Out)

include hrun

theorem hostWrite_of_fits (hfit : fits = true) : hostWrite s (require fits c go) = go :=
  (hostWrite_of hrun _).trans (require_of hfit c go)

theorem hostWrite_of_not_fits (hfit : fits = false) : hostWrite s (require fits c go) = .refused (.capacity c) := by
  rw [hostWrite_of hrun, hfit, require_false]

end

end Sys2Proof.Machine

namespace Sys2Proof.Safety

open Sys2Proof.Machine

/-- Settles O10: the faults of a command are those of its row, and a sub-cause is read back from `EINFO` whole. -/
theorem commandsRaiseOnlyTheirFaults : Obligations.CommandsRaiseOnlyTheirFaults := by
  intro i s t hi hrun h hfault
  obtain ⟨herr, -⟩ | ⟨f, hf, rfl⟩ := exec_faultsWithin hi s t h
  · exact absurd (herr.trans hrun) hfault
  · rwa [State.setFault_err, State.setFault_einfo, BitVec.toNat_ofNat, Nat.mod_eq_of_lt (fault_of_mem_mayRaise hf).2]

/-- Settles O9: a presented word is rejected with a fault or runs its command. -/
theorem faultsArePrecise : Obligations.FaultsArePrecise := by
  refine ⟨fun c s t hrun h => ?_, fun i s t h => (exec_fault_registers h).imp_right Faulted.eq_faulted⟩
  obtain ⟨hhalted, -⟩ | ⟨-, ⟨r, -, rfl⟩ | ⟨i, -, hi⟩⟩ := runCommand_next h
  · exact absurd hrun hhalted
  · exact .inr ⟨nofun, rfl⟩
  · obtain ⟨herr, hinfo⟩ | hfault := exec_fault_registers hi
    · exact .inl ⟨herr.trans hrun, hinfo⟩
    · exact .inr hfault.eq_faulted

/-- Settles O7: a halted core only takes moves from the port, by induction over the presented commands, until a reset. -/
theorem faultIsFinalUntilReset : Obligations.FaultIsFinalUntilReset := by
  refine fun s hs => ⟨fun c moves => step_of_halted_command hs, fun cs hport => ?_, fun t => step_next_of_halted hs⟩
  rw [← State.setPort_self s, hport]
  exact run_of_halted_commands hs cs

/-- Settles O8: reset answers the reset state with the moves left, and no other step of a halted core touches `ERR`. -/
theorem resetEstablishesTheResetState : Obligations.ResetEstablishesTheResetState := by
  refine ⟨fun s moves hport => ⟨_, step_of_reset hport, rfl, rfl, rfl, rfl, rfl, rfl, rfl, rfl, rfl, rfl, rfl,
    fun _ => ite_self _, rfl, fun _ => ite_self _, rfl, fun _ => rfl⟩, fun s t hs h hclear => ?_⟩
  obtain rfl | ⟨moves, hport, -⟩ := step_next_of_halted hs h
  · exact absurd hclear hs
  · exact ⟨moves, hport⟩

/-- Settles O51: a move of the host writes one cell, or a length and the cells below it, behind the tests of `ERR` and of the
capacity. -/
theorem hostWritesTheBuffers : Obligations.HostWritesTheBuffers := by
  refine fun s moves => ⟨?_, ?_, ?_, ?_, fun hrun => ?_, fun i v n x hhalted hport => ?_⟩
  iterate 2
    · exact fun _ _ hport hrun hfit => ⟨_, (step_of_port hport).trans (hostWrite_of_fits hrun _ _ hfit),
        cellsRead_write_same .., fun _ => cellsRead_write_other _ _⟩
  iterate 2
    · exact fun _ hport hrun hfit => ⟨_, (step_of_port hport).trans (hostWrite_of_fits hrun _ _ hfit),
        fun _ => cellsRead_below_of_lt _, fun _ => cellsRead_below_of_le _⟩
  · have refuse {m : PortMove} {fits : Bool} {c : Capacity} {go : Out} (hport : s.port = m :: moves)
        (hm : perform m (s.setPort moves) = hostWrite (s.setPort moves) (require fits c go)) (hfit : fits = false) :
        step s = .refused (.capacity c) :=
      (step_of_port hport).trans (hm.trans (hostWrite_of_not_fits hrun c go hfit))
    exact ⟨fun _ _ hport => refuse hport rfl, fun _ hport => refuse hport rfl, fun _ _ hport => refuse hport rfl,
      fun _ hport => refuse hport rfl⟩
  · obtain hport | hport | hport | hport := hport <;>
      exact (step_of_port hport).trans (hostWrite_of_halted hhalted _)

end Sys2Proof.Safety
